-- ==== Sys2Proof/Word.lean ====
section
/-! DEFINITION. The word types of HuffCore and their plainest arithmetic (00_scope.md R12, R14, R16, R17, R19). -/

namespace Sys2Proof

/-- A register, a count or a bus word: 32 bits, unsigned (R14, R16). -/
abbrev Word := BitVec 32

/-- A symbol or a buffer byte: 8 bits (R12). -/
abbrev Byte := BitVec 8

/-- A node index: 9 bits (R14). -/
abbrev NodeIndex := BitVec 9

/-- A byte offset from BASE on the slave port: 26 bits (R14, 20_memory.md R71). -/
abbrev Offset := BitVec 26

/-- A bit sequence in stream order, first bit first (R17); distinct from a number. -/
abbrev BitSeq := List Bool

/-- `ceil8(n) = (n + 7) div 8`, the number of bytes that hold `n` bits, computed without overflow (R19). -/
def ceil8 (n : Nat) : Nat := (n + 7) / 8

end Sys2Proof
end

