-- ==== Sys2Proof/Config.lean ====
section
/-! DEFINITION. What an implementation of HuffCore fixes (00_scope.md R13, R14) and the values the spec leaves free
(93_implementation_defined.md I1, I3, I7, I8). Opaque constants have no body, so no proof can rest on a value of one. -/

namespace Sys2Proof

/-- The three buffers (10_state.md R52 to R54). -/
inductive Buffer where
  | symIn
  | bitBuf
  | symOut
  deriving DecidableEq, Repr

/-- A buffer capacity, given as one less than its number of 32-bit words. The capacities R13 allows (the multiples of
4 from 4 to 2^24) are exactly the values of `Capacity.bytes`. -/
abbrev Capacity := Fin 4194304

/-- The capacity in bytes. -/
def Capacity.bytes (c : Capacity) : Nat := 4 * (c.val + 1)

/-- The capacity parameters of R13, which the capacity registers show (10_state.md R45). -/
structure Params where
  symWords : Capacity
  bitWords : Capacity
  outWords : Capacity
  deriving DecidableEq, Repr

/-- SYM_CAP in bytes. -/
def Params.symCap (p : Params) : Nat := Capacity.bytes p.symWords

/-- BIT_CAP in bytes. -/
def Params.bitCap (p : Params) : Nat := Capacity.bytes p.bitWords

/-- OUT_CAP in bytes. -/
def Params.outCap (p : Params) : Nat := Capacity.bytes p.outWords

/-- The capacity in bytes of a buffer. -/
def Params.cap (p : Params) : Buffer → Nat
  | .symIn => p.symCap
  | .bitBuf => p.bitCap
  | .symOut => p.outCap

namespace Config

/-- SYM_CAP of this implementation (R13: OPEN, D4). Log 1. -/
opaque symWords : Capacity

/-- BIT_CAP of this implementation (R13: OPEN, D4). Log 1. -/
opaque bitWords : Capacity

/-- OUT_CAP of this implementation (R13: OPEN, D4). Log 1. -/
opaque outWords : Capacity

/-- The parameters of this implementation. -/
def params : Params := { symWords := symWords, bitWords := bitWords, outWords := outWords }

/-- BASE in units of 0x0400_0000, so that BASE is aligned as R13 asks (OPEN, D5). Log 2. -/
opaque baseBlock : Nat

/-- BASE, the bus address of offset 0 (R13). -/
def base : Nat := 0x04000000 * baseBlock

/-- The unspecified content of byte `j` of a buffer after the reset number `epoch`, until the byte is written
(93 I1, "any value"; 70_reset_and_hazards.md R275). Log 4. -/
opaque freeByte : Buffer → Nat → Nat → Byte

/-- Whether the bus ends an access that is held when reset arrives with an error response (`true`) or drops it
(`false`): part of BUS_PROTOCOL (70_reset_and_hazards.md R271, 93 I3). Log 11. -/
opaque heldAtResetError : Bool

/-- The identification value of ID, the ASCII bytes "HUFF" (10_state.md R31). -/
def idValue : Word := 0x48554646#32

/-- The longest codeword, `MAX_CODE_LEN` (R14). -/
def maxCodeLen : Nat := 255

end Config
end Sys2Proof
end

