-- ==== Sys2Proof/Syntax.lean ====
section
/-! DEFINITION. The commands of HuffCore, one constructor per row of spec/opcode_table.json (30_encoding.md R103),
and the host's accesses and statements (20_memory.md R72, 30_encoding.md R107). -/

namespace Sys2Proof

/-- The seven commands. None has an operand field (R101); every operand is implicit (R102). -/
inductive Instr where
  | nop
  | softReset
  | freqBuild
  | treeBuild
  | codeDerive
  | encode
  | decode
  deriving DecidableEq, Repr

/-- The width of a host access on the bus. Only `word` is one that HuffCore performs (20_memory.md R72). -/
inductive AccessWidth where
  | byte
  | halfword
  | word
  | wider
  deriving DecidableEq, Repr

/-- One host access as it stands on the bus: an offset from BASE, a width and, for a write, its byte enables and its
data (20_memory.md R70, R72). -/
inductive HostAccess where
  | read (off : Offset) (width : AccessWidth)
  | write (off : Offset) (width : AccessWidth) (enables : BitVec 4) (v : Word)
  deriving DecidableEq, Repr

/-- A condition of the host's own control flow over its variables (30_encoding.md R107). -/
inductive HostCond where
  /-- `x = v` -/
  | isEq (x : Nat) (v : Word)
  /-- `x != v` -/
  | isNe (x : Nat) (v : Word)
  /-- `x[k] = 1` -/
  | bitSet (x : Nat) (k : Nat)
  /-- `x = v and y[k] = 0` -/
  | isEqAndBitClear (x : Nat) (v : Word) (y : Nat) (k : Nat)
  deriving DecidableEq, Repr

/-- One statement of a host program (30_encoding.md R107). Labels are positions in the program. -/
inductive HostStmt where
  /-- `W off, v` -/
  | w (off : Offset) (v : Word)
  /-- `R off -> x` -/
  | r (off : Offset) (x : Nat)
  /-- `EXPECT off == v` -/
  | expect (off : Offset) (v : Word)
  /-- an access of any other width, alignment or byte enables, which the notation cannot write -/
  | raw (a : HostAccess)
  /-- `if c goto target` -/
  | branch (c : HostCond) (target : Nat)
  /-- `goto target` -/
  | goto (target : Nat)
  deriving DecidableEq, Repr

/-- Which input of the machine moves next: the host agent, the engine agent (R10), or the `rst` input (20_memory.md
R70). -/
inductive Turn where
  | host
  | engine
  | reset
  deriving DecidableEq, Repr

end Sys2Proof
end

