-- ==== Sys2Proof/WellFormed.lean ====
section
/-! DEFINITION. Form checks. A command has no operand, so every command is well formed (30_encoding.md R101); the
checks that can refuse are those on command words (R104), on host accesses (20_memory.md R72, R73) and on host
programs (30_encoding.md R107). -/

namespace Sys2Proof

/-- Every command is well formed: OPCODE is its only significant field (R101). -/
def Instr.wf : Instr → Bool
  | .nop => true
  | .softReset => true
  | .freqBuild => true
  | .treeBuild => true
  | .codeDerive => true
  | .encode => true
  | .decode => true

/-- A word is a legal command word: RSVD is 0 and OPCODE is one of 0x00 to 0x06 (R104). -/
def commandWordWf (w : Word) : Bool :=
  w.extractLsb' 0 24 == 0#24 && decide ((w.extractLsb' 24 8).toNat ≤ 6)

/-- An access has the form HuffCore performs: one whole 32-bit word at a multiple of 4 (20_memory.md R72, R73).
Whether its offset is mapped is another question (R74). -/
def HostAccess.wf : HostAccess → Bool
  | .read off width => width == .word && decide (off.toNat % 4 = 0)
  | .write off width enables _ => width == .word && enables == 0xF#4 && decide (off.toNat % 4 = 0)

/-- A statement's label is a position of the program or its end, and its bit tests name a bit of a word. -/
def HostStmt.wf (length : Nat) : HostStmt → Bool
  | .branch (.bitSet _ k) target => decide (k < 32) && decide (target ≤ length)
  | .branch (.isEqAndBitClear _ _ _ k) target => decide (k < 32) && decide (target ≤ length)
  | .branch (.isEq _ _) target => decide (target ≤ length)
  | .branch (.isNe _ _) target => decide (target ≤ length)
  | .goto target => decide (target ≤ length)
  | .w _ _ => true
  | .r _ _ => true
  | .expect _ _ => true
  | .raw _ => true

/-- Every statement of a host program is well formed. -/
def hostProgramWf (code : List HostStmt) : Bool := code.all (HostStmt.wf code.length)

end Sys2Proof
end

