-- ==== Sys2Proof/Decode.lean ====
section
/-! DEFINITION. Decoding of command words, total on every word and rejecting by name, and the encoder, both from the
opcode map of 30_encoding.md R103 to R106. -/

namespace Sys2Proof

/-- Why a word is illegal (R104). Both reasons complete with BAD_COMMAND. -/
inductive IllegalWord where
  /-- RSVD is not 0; checked first (R104). -/
  | reservedBits
  /-- OPCODE is in 0x07 to 0xFF (R104). -/
  | reservedOpcode
  deriving DecidableEq, Repr

/-- The field `OPCODE`, bits 31 to 24 (R100). -/
def opcodeField (w : Word) : BitVec 8 := w.extractLsb' 24 8

/-- The field `RSVD`, bits 23 to 0 (R100). -/
def rsvdField (w : Word) : BitVec 24 := w.extractLsb' 0 24

/-- `decodeCmd` of R106: the check of RSVD comes first. -/
def decodeCmd (w : Word) : Except IllegalWord Instr :=
  if rsvdField w ≠ 0#24 then .error .reservedBits
  else
    match (opcodeField w).toNat with
    | 0x00 => .ok .nop
    | 0x01 => .ok .softReset
    | 0x02 => .ok .freqBuild
    | 0x03 => .ok .treeBuild
    | 0x04 => .ok .codeDerive
    | 0x05 => .ok .encode
    | 0x06 => .ok .decode
    | _ => .error .reservedOpcode

/-- The OPCODE of a command (R103). -/
def opcodeOf : Instr → BitVec 8
  | .nop => 0x00#8
  | .softReset => 0x01#8
  | .freqBuild => 0x02#8
  | .treeBuild => 0x03#8
  | .codeDerive => 0x04#8
  | .encode => 0x05#8
  | .decode => 0x06#8

/-- The command word of a command, `OP << 24` (R103, R108). -/
def encode (i : Instr) : Word := opcodeOf i ++ 0#24

/-- The command word that the `nbits` low bits of `w` give, every bit above them 0; none where they are more than the
32 bits of the one format (R100). A command word is one whole 32-bit value and has no byte order of its own
(20_memory.md R76). Log 20. -/
def tableWord (nbits w : Nat) : Option Word :=
  let v := w % 2 ^ nbits
  if v < 2 ^ 32 then some (BitVec.ofNat 32 v) else none

/-- The command the decoder reads from an opcode-table word. -/
def decodeTableWord (nbits w : Nat) : Option Instr :=
  match tableWord nbits w with
  | none => none
  | some c =>
    match decodeCmd c with
    | .ok i => some i
    | .error _ => none

end Sys2Proof
end

