-- ==== Sys2Proof/Machine/State.lean ====
section
/-! DEFINITION. The state of HuffCore (10_state.md R30 to R58) with its two agents, the reasons a step can stop, and the
state after reset (70_reset_and_hazards.md R270). -/

namespace Sys2Proof.Machine

/-- The error codes of 60_exceptions.md R240; the values 0x0C to 0xFF are never written (93 I20). -/
inductive ErrCode where
  | ok
  | emptyInput
  | unknownSymbol
  | truncatedStream
  | degenerateTree
  | noTree
  | noCode
  | badLength
  | bitOverflow
  | outOverflow
  | invalidBit
  | badCommand
  deriving DecidableEq, Repr

/-- An entry of the node table (10_state.md R47). -/
inductive Node where
  | leaf (sym : Byte) (freq : Word)
  | internal (freq : Word) (left right : NodeIndex)
  deriving DecidableEq, Repr

/-- The frequency table: entry `s` is the count of symbol `s`, 0 for an absent symbol (10_state.md R46). -/
abbrev FreqTable := Vector Word 256

/-- The code table: entry `s` is absent or a codeword (10_state.md R49). -/
abbrev CodeTable := Vector (Option BitSeq) 256

/-- The contents of a buffer: the bytes written since reset, by index, strictly rising. An index not listed holds no
value that the spec gives (93 I1). Log 5. -/
abbrev Memory := List Host.Cell

/-- The host agent (00_scope.md R10): a program in the notation of 30_encoding.md R107, the position of its next
statement, its variables, and whether its current access is on the bus and held (20_memory.md R83). The model's own
state, not HuffCore's. Log 7. -/
structure HostThread where
  code    : List HostStmt
  pos     : Nat
  vars    : List (Nat × Word)
  waiting : Bool
  deriving DecidableEq, Repr

/-- The state of HuffCore and of its host. -/
structure State where
  /-- SYM_CAP_R, BIT_CAP_R, OUT_CAP_R (R45) -/
  params    : Params
  /-- CTRL.IRQ_EN (R32) -/
  irqEn     : Bool
  /-- STATUS.DONE (R36) -/
  done      : Bool
  /-- STATUS.ERR_STICKY (R37) -/
  errSticky : Bool
  /-- STATUS.TREE_VALID (R38) -/
  treeValid : Bool
  /-- STATUS.CODE_VALID (R38) -/
  codeValid : Bool
  /-- ERR_CODE (R41) -/
  errCode   : ErrCode
  /-- ERR_INFO (R42) -/
  errInfo   : Word
  /-- SYM_LEN (R39) -/
  symLen    : Word
  /-- BIT_LEN (R39) -/
  bitLen    : Word
  /-- OUT_LEN (R43) -/
  outLen    : Word
  /-- ROOT (R44) -/
  root      : NodeIndex
  /-- NLEAF (R44) -/
  nleaf     : BitVec 9
  /-- FREQ (R46) -/
  freq      : FreqTable
  /-- NODE (R47): the entries that hold a value -/
  nodes     : List Node
  /-- CODE (R49) -/
  code      : CodeTable
  /-- SYM_IN (R52) -/
  symIn     : Memory
  /-- BIT_BUF (R53) -/
  bitBuf    : Memory
  /-- SYM_OUT (R54) -/
  symOut    : Memory
  /-- the pending command (R55); STATUS.BUSY is 1 exactly when there is one (R35). Log 3. -/
  pending   : Option Word
  /-- the model's own: the number of hardware resets, which selects the unspecified buffer contents. Log 4. -/
  epoch     : Nat
  /-- the model's own: the host agent. Log 7. -/
  host      : HostThread
  /-- the model's own: who moves next, first first. Log 6. -/
  schedule  : List Turn
  deriving DecidableEq, Repr

/-- Why an access gets a bus error response. -/
inductive BusError where
  /-- not one 32-bit word, or a partial byte enable (20_memory.md R72) -/
  | width
  /-- the offset is not a multiple of 4 (20_memory.md R73) -/
  | misaligned
  /-- no row of the address map, or beyond a buffer's capacity (20_memory.md R74, R79, R80) -/
  | unmapped
  /-- held when reset arrived, and the bus ends it with an error (70_reset_and_hazards.md R271). Log 11. -/
  | heldAtReset
  deriving DecidableEq, Repr

/-- Why the machine stops with a fault. -/
inductive Fault where
  /-- A host access gets a bus error response: a fault of the host agent (60_exceptions.md R250). Raised by a host turn
  (and by a reset turn for `heldAtReset`). Safe: the model stops where the hardware goes on. Log 8. -/
  | hostBusError (off : Offset) (why : BusError)
  /-- CODE_DERIVE met the malformed internal node `i`: a fault of the model (60_exceptions.md R249). Raised by
  CODE_DERIVE; unreachable. Safe. Log 9. -/
  | degenerateTree (i : NodeIndex)
  /-- A command read a node table entry that holds no value a model may read (10_state.md R47), or moved to a child of
  a leaf below the root. Raised by CODE_DERIVE and DECODE; unreachable. Safe. Log 10. -/
  | nodeUnreadable (i : NodeIndex)
  /-- An EXPECT statement of the host read another value than it claims (30_encoding.md R107). Raised by a host turn.
  Safe. Log 17. -/
  | expectFailed (off : Offset) (want got : Word)
  /-- The host program tested a variable it never assigned. Raised by a host turn. Safe. Log 17. -/
  | hostVarUnset (x : Nat)
  deriving DecidableEq, Repr

/-- Why a step is refused. -/
inductive Refusal where
  /-- An instruction the model has no meaning for yet. Raised by no arm of this model. Safe. -/
  | notModelled (mnemonic : String)
  deriving DecidableEq, Repr

/-- The outcome of a step of this machine. -/
abbrev Outcome := Host.Outcome State Fault Refusal

/-- The host agent before a program is given to it. -/
def HostThread.idle : HostThread := { code := [], pos := 0, vars := [], waiting := false }

/-- The state right after reset: the "after reset" column of 10_state.md R58 (70_reset_and_hazards.md R270). The
capacities are the implementation's (Log 1); the epoch, the host and the schedule are the model's own (Logs 4, 6, 7). -/
def State.reset : State :=
  { params    := Config.params
    irqEn     := false
    done      := false
    errSticky := false
    treeValid := false
    codeValid := false
    errCode   := .ok
    errInfo   := 0#32
    symLen    := 0#32
    bitLen    := 0#32
    outLen    := 0#32
    root      := 0#9
    nleaf     := 0#9
    freq      := Vector.replicate 256 0#32
    nodes     := []
    code      := Vector.replicate 256 none
    symIn     := []
    bitBuf    := []
    symOut    := []
    pending   := none
    epoch     := 0
    host      := HostThread.idle
    schedule  := [] }

end Sys2Proof.Machine
end

