-- ==== Sys2Proof/Machine/Ops.lean ====
section
/-! DEFINITION. The named operations over buffers and registers: bytes, words and bits (20_memory.md R76 to R78),
the tables, and the end of a command, which is HuffCore's whole exception mechanism (60_exceptions.md R244, R245). -/

namespace Sys2Proof.Machine

/-! ### Bits and bytes -/

/-- The `n`-bit value whose bit `n - 1 - t` is `f t`: the first bit of a sequence is the most significant (20_memory.md
R77, R78). -/
def bitsBE : (n : Nat) → (Nat → Bool) → BitVec n
  | 0, _ => 0#0
  | n + 1, f => BitVec.cons (f 0) (bitsBE n (fun t => f (t + 1)))

/-- `b0 << 24 | b1 << 16 | b2 << 8 | b3`, the big-endian byte lanes of R76. -/
def wordOfBytes (b0 b1 b2 b3 : Byte) : Word := b0 ++ b1 ++ b2 ++ b3

/-- `v[31 - 8t : 24 - 8t]`, the byte of lane `t` (R76). -/
def byteLane (v : Word) (t : Nat) : Byte := v.extractLsb' (24 - 8 * t) 8

/-! ### Buffers -/

/-- The byte written at an index, if one was written since reset. An unlisted index reads as no value. -/
def Memory.get? : Memory → Nat → Option Byte
  | [], _ => none
  | (a, v) :: m, j => if a = j then some v else Memory.get? m j

/-- Write a byte, keeping the indexes strictly rising. -/
def Memory.set : Memory → Nat → Byte → Memory
  | [], j, v => [(j, v)]
  | (a, u) :: m, j, v =>
    if j < a then (j, v) :: (a, u) :: m
    else if j = a then (j, v) :: m
    else (a, u) :: Memory.set m j v

/-- Write bytes at consecutive indexes from `j`. -/
def Memory.store : Memory → Nat → List Byte → Memory
  | m, _, [] => m
  | m, j, v :: vs => Memory.store (Memory.set m j v) (j + 1) vs

/-- The canonical form: indexes strictly rising. An unlisted index reads as no value, so no entry can equal that. -/
def Memory.wf : Memory → Bool
  | [] => true
  | [_] => true
  | (a, _) :: (b, w) :: m => decide (a < b) && Memory.wf ((b, w) :: m)

/-- Every listed index is below `cap`. -/
def Memory.within (m : Memory) (cap : Nat) : Bool := m.all (fun c => decide (c.1 < cap))

/-- The contents of a buffer. -/
def State.mem (s : State) : Buffer → Memory
  | .symIn => s.symIn
  | .bitBuf => s.bitBuf
  | .symOut => s.symOut

/-- The read of one buffer byte: the byte written there, or, where none was written since reset, the unspecified
content, a free value (93 I1, R275). Log 4. -/
def State.readByte (s : State) (b : Buffer) (j : Nat) : Byte :=
  match (s.mem b).get? j with
  | some v => v
  | none => Config.freeByte b s.epoch j

/-- The word at window index `m` of a buffer, `B[4m]` in bits 31 to 24 (R76). -/
def State.readBufferWord (s : State) (b : Buffer) (m : Nat) : Word :=
  wordOfBytes (s.readByte b (4 * m)) (s.readByte b (4 * m + 1)) (s.readByte b (4 * m + 2)) (s.readByte b (4 * m + 3))

/-- The four bytes of a word in lane order (R76). -/
def wordBytes (v : Word) : List Byte := [byteLane v 0, byteLane v 1, byteLane v 2, byteLane v 3]

/-! ### Tables -/

/-- `FREQ[s]` -/
def FreqTable.at (F : FreqTable) (x : Byte) : Word := F[x.toNat]'x.isLt

/-- `FREQ[s] <- v` -/
def FreqTable.put (F : FreqTable) (x : Byte) (v : Word) : FreqTable := F.set x.toNat v x.isLt

/-- The empty frequency table (10_state.md R46). -/
def FreqTable.empty : FreqTable := Vector.replicate 256 0#32

/-- `CODE[s]`, absent or a codeword -/
def CodeTable.at (C : CodeTable) (x : Byte) : Option BitSeq := C[x.toNat]'x.isLt

/-- `CODE[s] <- w` -/
def CodeTable.put (C : CodeTable) (x : Byte) (w : BitSeq) : CodeTable := C.set x.toNat (some w) x.isLt

/-- The code table with every entry absent. -/
def CodeTable.empty : CodeTable := Vector.replicate 256 none

/-- The frequency of a node. -/
def Node.freq : Node → Word
  | .leaf _ f => f
  | .internal f _ _ => f

/-! ### Issue and completion -/

/-- A host write of `w` to CMD (46_control.md R221): the command becomes pending, which sets BUSY, and DONE is cleared.
It does not decode `w`. -/
def State.issue (s : State) (w : Word) : State := { s with pending := some w, done := false }

/-- `complete(code, info)` (60_exceptions.md R244): the one way a command ends, with or without an error. It writes the
completion record and empties the pending command, which clears BUSY. Nothing returns from it (R247). -/
def State.complete (s : State) (code : ErrCode) (info : Word) : State :=
  { s with
    errCode := code
    errInfo := info
    errSticky := s.errSticky || code != .ok
    done := true
    pending := none }

/-- How a command's pseudocode leaves early: `raise E(info)` (00_scope.md R19), or a fault of the model. -/
inductive Abort where
  | raise (code : ErrCode) (info : Word)
  | fault (f : Fault)
  deriving DecidableEq, Repr

/-- The end of a command whose pseudocode gives `r` from the state `s`: on success its writes are committed with
`complete(OK, 0)`; on `raise` every write is discarded and only the completion record changes (R244, R246, R84). -/
def finish (s : State) (r : Except Abort State) : Outcome :=
  match r with
  | .ok t => .next (t.complete .ok 0#32)
  | .error (.raise code info) => .next (s.complete code info)
  | .error (.fault f) => .fault f

end Sys2Proof.Machine
end

