-- ==== Sys2Proof/Machine/Operands.lean ====
section
/-! DEFINITION. The implicit operands of the commands (30_encoding.md R102): the symbols, the bitstream and the tree. -/

namespace Sys2Proof.Machine

/-- `SYM_IN[0..SYM_LEN - 1]` in order (10_state.md R52). -/
def State.inputSymbols (s : State) : List Byte := (List.range s.symLen.toNat).map (s.readByte .symIn)

/-- `bit(BIT_BUF, p) = BIT_BUF[p div 8][7 - (p mod 8)]` (20_memory.md R77). -/
def State.streamBit (s : State) (p : Nat) : Bool := (s.readByte .bitBuf (p / 8)).getLsbD (7 - p % 8)

/-- The bitstream `bit(BIT_BUF, 0)` to `bit(BIT_BUF, BIT_LEN - 1)`, in stream order (45_decode.md R200). -/
def State.bitstream (s : State) : BitSeq := (List.range s.bitLen.toNat).map s.streamBit

/-- NODE_COUNT: `2·NLEAF - 1` when TREE_VALID = 1, and 0 otherwise (10_state.md R44). -/
def State.nodeCount (s : State) : Nat := if s.treeValid then 2 * s.nleaf.toNat - 1 else 0

/-- `NODE[i]`: none where the entry holds no value a model may read (10_state.md R47). -/
def State.nodeAt (s : State) (i : NodeIndex) : Option Node :=
  if i.toNat < s.nodeCount then s.nodes[i.toNat]? else none

/-- The symbols 0x00 to 0xFF in ascending order (00_scope.md R12). -/
def allSymbols : List Byte := (List.range 256).map (BitVec.ofNat 8)

/-- The symbols present in a frequency table with their counts, in ascending order: the pairs of `s` and `FREQ[s]` with
`FREQ[s] ≠ 0` (42_tree_build.md R141). -/
def presentCounts (F : FreqTable) : List (Byte × Word) := (allSymbols.zip F.toList).filter (fun p => p.2 != 0#32)

/-- The symbols present in a frequency table, ascending (42_tree_build.md R141, R147: the list `L`). -/
def presentSymbols (F : FreqTable) : List Byte := (presentCounts F).map Prod.fst

end Sys2Proof.Machine
end

