-- ==== Sys2Proof/Machine/CodeGen.lean ====
section
/-! DEFINITION. The code generator, CODE_DERIVE (43_code_derive.md R160 to R167). -/

namespace Sys2Proof.Machine

/-- `walk(i, path)` of R161, left subtree first, with the code table built so far. `budget` is `255 - |path|`, so that
`|path| + 1 > 255` is exactly `budget = 0`; it also makes the recursion structural. A malformed internal node is a
fault of the model (60_exceptions.md R249). Log 9. -/
def walk (nodeAt : NodeIndex → Option Node) (count : Nat) :
    Nat → NodeIndex → BitSeq → CodeTable → Except Abort CodeTable
  | budget, i, path, C =>
    match nodeAt i with
    | none => .error (.fault (.nodeUnreadable i))
    | some (.leaf x _) => .ok (C.put x path)
    | some (.internal _ l r) =>
      if count ≤ l.toNat ∨ count ≤ r.toNat then .error (.fault (.degenerateTree i))
      else
        match budget with
        | 0 => .error (.fault (.degenerateTree i))
        | budget + 1 =>
          match walk nodeAt count budget l (path ++ [false]) C with
          | .error e => .error e
          | .ok D => walk nodeAt count budget r (path ++ [true]) D

/-- The code table of the tree held: the codeword "0" for a single leaf, else one codeword a leaf (R160, R161). -/
def State.deriveCode (s : State) : Except Abort CodeTable :=
  match s.nodeAt s.root with
  | some (.leaf x _) => .ok (CodeTable.empty.put x [false])
  | _ => walk s.nodeAt s.nodeCount Config.maxCodeLen s.root [] CodeTable.empty

/-- The writes of a successful CODE_DERIVE (R161). -/
def State.withCode (s : State) (C : CodeTable) : State := { s with code := C, codeValid := true }

/-- CODE_DERIVE (R161). -/
def execCodeDerive (s : State) : Outcome :=
  finish s <|
    if s.treeValid = false then .error (.raise .noTree 0#32)
    else
      match s.deriveCode with
      | .error e => .error e
      | .ok C => .ok (s.withCode C)

end Sys2Proof.Machine
end

