-- ==== Sys2Proof/Machine/Flags.lean ====
section
/-! DEFINITION. STATUS and the values computed from it: BUSY, the interrupt line and the numeric error codes
(10_state.md R34 to R41, 60_exceptions.md R240, R252). HuffCore has no arithmetic flag (00_scope.md R22). -/

namespace Sys2Proof.Machine

/-- STATUS.BUSY: 1 exactly when a command is pending (10_state.md R35, R55, R59 (d)). Log 3. -/
def State.busy (s : State) : Bool := s.pending.isSome

/-- STATUS as read (10_state.md R34): bit 0 BUSY, bit 1 DONE, bit 2 ERR_STICKY, bit 3 TREE_VALID, bit 4 CODE_VALID,
bits 31 to 5 read 0. -/
def State.statusWord (s : State) : Word :=
  0#27 ++ BitVec.ofBool s.codeValid ++ BitVec.ofBool s.treeValid ++ BitVec.ofBool s.errSticky ++ BitVec.ofBool s.done
    ++ BitVec.ofBool s.busy

/-- A write of `v` to STATUS: write 1 to clear DONE and ERR_STICKY, and nothing else (10_state.md R34). -/
def State.writeStatus (s : State) (v : Word) : State :=
  { s with done := s.done && !v.getLsbD 1, errSticky := s.errSticky && !v.getLsbD 2 }

/-- CTRL as read: IRQ_EN in bit 0, bits 31 to 1 read 0 (10_state.md R32). -/
def State.ctrlWord (s : State) : Word := 0#31 ++ BitVec.ofBool s.irqEn

/-- A write of `v` to CTRL: bit 0 is stored, the reserved bits are ignored (10_state.md R32). -/
def State.writeCtrl (s : State) (v : Word) : State := { s with irqEn := v.getLsbD 0 }

/-- The interrupt output, a level: `irq = STATUS.DONE AND CTRL.IRQ_EN` (10_state.md R57, 60_exceptions.md R252). -/
def State.irq (s : State) : Bool := s.done && s.irqEn

/-- The numeric error code of ERR_CODE[7:0] (60_exceptions.md R240). -/
def ErrCode.toByte : ErrCode → BitVec 8
  | .ok => 0x00#8
  | .emptyInput => 0x01#8
  | .unknownSymbol => 0x02#8
  | .truncatedStream => 0x03#8
  | .degenerateTree => 0x04#8
  | .noTree => 0x05#8
  | .noCode => 0x06#8
  | .badLength => 0x07#8
  | .bitOverflow => 0x08#8
  | .outOverflow => 0x09#8
  | .invalidBit => 0x0A#8
  | .badCommand => 0x0B#8

/-- ERR_CODE as read: bits 31 to 8 read 0 (10_state.md R41). -/
def State.errCodeWord (s : State) : Word := 0#24 ++ s.errCode.toByte

/-- BIT_BYTES = ceil8(BIT_LEN), computed at the time of the read (10_state.md R40). -/
def State.bitBytes (s : State) : Word := BitVec.ofNat 32 (ceil8 s.bitLen.toNat)

end Sys2Proof.Machine
end

