-- ==== Sys2Proof/Machine/Control.lean ====
section
/-! DEFINITION. The control commands NOP and SOFT_RESET, illegal command words, and hardware reset (46_control.md R224
to R226, 70_reset_and_hazards.md R270, R271). -/

namespace Sys2Proof.Machine

/-- NOP: `complete(OK, 0)` (46_control.md R224). -/
def execNop (s : State) : Outcome := finish s (.ok s)

/-- The codec emptied, with CTRL, the buffers and the capacities kept (46_control.md R226). NODE and CODE then hold no
value (10_state.md R58). Log 14. -/
def State.emptied (s : State) : State :=
  { s with
    freq := FreqTable.empty
    treeValid := false
    codeValid := false
    root := 0#9
    nleaf := 0#9
    nodes := []
    code := CodeTable.empty
    symLen := 0#32
    bitLen := 0#32
    outLen := 0#32
    errSticky := false }

/-- SOFT_RESET (46_control.md R226). -/
def execSoftReset (s : State) : Outcome := finish s (.ok s.emptied)

/-- An illegal command word `w`: `complete(BAD_COMMAND, w)` and nothing else (46_control.md R225, 30_encoding.md R104). -/
def execIllegal (w : Word) (s : State) : Outcome := finish s (.error (.raise .badCommand w))

/-- Hardware reset (70_reset_and_hazards.md R270): every piece of HuffCore's state takes its value after reset and a
command in progress is abandoned without a completion (R271). The capacities are constants; the buffers hold
unspecified contents again, a new draw (log 4); the host and the schedule are not HuffCore's and are kept (log 12). -/
def State.hardReset (s : State) : State :=
  { State.reset with params := s.params, epoch := s.epoch + 1, host := s.host, schedule := s.schedule }

end Sys2Proof.Machine
end

