-- ==== Sys2Proof/Machine/Decoder.lean ====
section
/-! DEFINITION. The bitstream decoder, DECODE (45_decode.md R200 to R206). -/

namespace Sys2Proof.Machine

/-- `emit(s, p)` of R202: OUT_OVERFLOW when the staged output already holds OUT_CAP symbols. -/
def emit (outCap : Nat) (out : List Byte) (x : Byte) (p : Nat) : Except Abort (List Byte) :=
  if out.length = outCap then .error (.raise .outOverflow (BitVec.ofNat 32 p)) else .ok (out ++ [x])

/-- What one bit does to the cursor: the symbol emitted, if any, and the next cursor (R201, R203). -/
inductive Move where
  | emits (x : Byte)
  | moves (cur : NodeIndex)
  deriving DecidableEq, Repr

/-- One bit `b` at position `p` with the cursor at `cur` (R201, R202): on a single-leaf tree 0 emits its symbol and 1 is
INVALID_BIT (R203); else go to the left child on 0 and the right child on 1, and a leaf emits its symbol. A node that
holds no value, or a cursor on a leaf, is a fault of the model (log 10). -/
def cursorMove (nodeAt : NodeIndex → Option Node) (root cur : NodeIndex) (b : Bool) (p : Nat) : Except Abort Move :=
  match nodeAt root with
  | none => .error (.fault (.nodeUnreadable root))
  | some (.leaf x _) => if b then .error (.raise .invalidBit (BitVec.ofNat 32 p)) else .ok (.emits x)
  | some (.internal _ _ _) =>
    match nodeAt cur with
    | some (.internal _ l r) =>
      let nxt := if b then r else l
      match nodeAt nxt with
      | none => .error (.fault (.nodeUnreadable nxt))
      | some (.leaf x _) => .ok (.emits x)
      | some (.internal _ _ _) => .ok (.moves nxt)
    | _ => .error (.fault (.nodeUnreadable cur))

/-- The loop of R202 over the bits from position `p`: `start` is the first bit of the codeword in progress and `out` the
staged output. At the end the cursor must be at the root, else TRUNCATED_STREAM. -/
def decodeLoop (nodeAt : NodeIndex → Option Node) (root : NodeIndex) (outCap : Nat) :
    BitSeq → Nat → NodeIndex → Nat → List Byte → Except Abort (List Byte)
  | [], _, cur, start, out =>
    if cur = root then .ok out else .error (.raise .truncatedStream (BitVec.ofNat 32 start))
  | b :: bs, p, cur, start, out =>
    match cursorMove nodeAt root cur b p with
    | .error e => .error e
    | .ok (.moves nxt) => decodeLoop nodeAt root outCap bs (p + 1) nxt start out
    | .ok (.emits x) =>
      match emit outCap out x p with
      | .error e => .error e
      | .ok out' => decodeLoop nodeAt root outCap bs (p + 1) root (p + 1) out'

/-- The writes of a successful DECODE (R202): SYM_OUT[0..k - 1] and OUT_LEN <- k. -/
def State.withOutput (s : State) (out : List Byte) : State :=
  { s with symOut := s.symOut.store 0 out, outLen := BitVec.ofNat 32 out.length }

/-- DECODE (R202). -/
def execDecode (s : State) : Outcome :=
  finish s <|
    if s.treeValid = false then .error (.raise .noTree 0#32)
    else if 8 * s.params.bitCap < s.bitLen.toNat then .error (.raise .badLength s.bitLen)
    else
      match decodeLoop s.nodeAt s.root s.params.outCap s.bitstream 0 s.root 0 [] with
      | .error e => .error e
      | .ok out => .ok (s.withOutput out)

end Sys2Proof.Machine
end

