-- ==== Sys2Proof/Machine/Encoder.lean ====
section
/-! DEFINITION. The bitstream encoder, ENCODE (44_encode.md R180 to R185). -/

namespace Sys2Proof.Machine

/-- Pass 1 of R181, in order from index `i` with the running total: UNKNOWN_SYMBOL before BIT_OVERFLOW at one index, the
lower index first. It gives the final total. -/
def encodeCheck (C : CodeTable) (limit : Nat) : List Byte → Nat → Nat → Except Abort Nat
  | [], _, total => .ok total
  | x :: xs, i, total =>
    match C.at x with
    | none => .error (.raise .unknownSymbol (BitVec.ofNat 32 i))
    | some w =>
      if limit < total + w.length then .error (.raise .bitOverflow (BitVec.ofNat 32 i))
      else encodeCheck C limit xs (i + 1) (total + w.length)

/-- The encoding of a symbol sequence: `CODE[S0] ++ CODE[S1] ++ ...` (R180). -/
def encodeSymbols (C : CodeTable) (syms : List Byte) : BitSeq := syms.flatMap (fun x => (C.at x).getD [])

/-- Byte `j` of the packed stream: bit `7 - t` is `bits[8j + t]`, or 0 past the end (R181: MSB first, pad 0). -/
def packByte (bits : BitSeq) (j : Nat) : Byte := bitsBE 8 (fun t => bits.getD (8 * j + t) false)

/-- The bytes `0` to `ceil8(total) - 1` of the packed stream (R181, R184). -/
def packBits (bits : BitSeq) : List Byte := (List.range (ceil8 bits.length)).map (packByte bits)

/-- The writes of a successful ENCODE (R181): the stream's bytes only (R184), and BIT_LEN <- total. -/
def State.withStream (s : State) (bits : BitSeq) (total : Nat) : State :=
  { s with bitBuf := s.bitBuf.store 0 (packBits bits), bitLen := BitVec.ofNat 32 total }

/-- ENCODE (R181). -/
def execEncode (s : State) : Outcome :=
  finish s <|
    if s.codeValid = false then .error (.raise .noCode 0#32)
    else if s.params.symCap < s.symLen.toNat then .error (.raise .badLength s.symLen)
    else
      match encodeCheck s.code (8 * s.params.bitCap) s.inputSymbols 0 0 with
      | .error e => .error e
      | .ok total => .ok (s.withStream (encodeSymbols s.code s.inputSymbols) total)

end Sys2Proof.Machine
end

