-- ==== Sys2Proof/Machine/Frequency.lean ====
section
/-! DEFINITION. The frequency counter, FREQ_BUILD (41_frequency.md R120 to R123). -/

namespace Sys2Proof.Machine

/-- `F[s] <- F[s] + 1` for each symbol in order, from the all-zero table (R120). The count cannot overflow (R121). -/
def countSymbols (syms : List Byte) : FreqTable :=
  syms.foldl (fun F x => F.put x (F.at x + 1#32)) FreqTable.empty

/-- FREQ_BUILD (R120). -/
def execFreqBuild (s : State) : Outcome :=
  finish s <|
    if s.params.symCap < s.symLen.toNat then .error (.raise .badLength s.symLen)
    else .ok { s with freq := countSymbols s.inputSymbols }

end Sys2Proof.Machine
end

