-- ==== Sys2Proof/Machine/Tree.lean ====
section
/-! DEFINITION. The tree builder, TREE_BUILD (42_tree_build.md R140 to R151). -/

namespace Sys2Proof.Machine

/-- A queue key: the frequency of a node and its sequence number, which is its node index (R142, R143). -/
structure Key where
  freq : Word
  seq  : Nat
  deriving DecidableEq, Repr

/-- `(f1, q1) < (f2, q2)`: lexicographic and unsigned, never a difference (R143, 00_scope.md R20). -/
def Key.less (a b : Key) : Bool :=
  decide (a.freq.toNat < b.freq.toNat) || (decide (a.freq.toNat = b.freq.toNat) && decide (a.seq < b.seq))

/-- The least key of a queue that holds `k` and `q`, and the rest of the queue (R143: argmin, then removal). -/
def extractMin (k : Key) : List Key → Key × List Key
  | [] => (k, [])
  | x :: q =>
    if x.less k then ((extractMin x q).1, k :: (extractMin x q).2)
    else ((extractMin k q).1, x :: (extractMin k q).2)

/-- The merge loop (R144): while the queue holds two or more nodes, remove the least `a` and then the least `b`, append
`Internal(a.freq + b.freq, left = a, right = b)` to the table and insert its key. One round per unit of fuel; the
queue's length at the start is enough (R145). -/
def mergeLoop : Nat → List Key → List Node → List Node
  | fuel + 1, k :: x :: q, N =>
    let a := (extractMin k (x :: q)).1
    match (extractMin k (x :: q)).2 with
    | [] => N
    | y :: r =>
      let b := (extractMin y r).1
      let f := a.freq + b.freq
      mergeLoop fuel ({ freq := f, seq := N.length } :: (extractMin y r).2)
        (N ++ [.internal f (BitVec.ofNat 9 a.seq) (BitVec.ofNat 9 b.seq)])
  | _, _, N => N

/-- The leaves, in ascending symbol order (R141). -/
def leavesOf (F : FreqTable) : List Node := (presentCounts F).map (fun p => .leaf p.1 p.2)

/-- The queue at the start: every leaf, keyed by its frequency and index (R142, R147). -/
def startQueue (leaves : List Node) : List Key := leaves.zipIdx.map (fun p => { freq := p.1.freq, seq := p.2 })

/-- The node table built from a frequency table: a function of FREQ alone (R147, R150). -/
def buildTree (F : FreqTable) : List Node :=
  mergeLoop (leavesOf F).length (startQueue (leavesOf F)) (leavesOf F)

/-- The writes of a successful TREE_BUILD (R147): NODE, ROOT = 2n - 2, NLEAF = n, TREE_VALID <- 1, CODE_VALID <- 0. The
code table is not written; it is no longer valid. Log 14. -/
def State.withTree (s : State) (nodes : List Node) (n : Nat) : State :=
  { s with
    nodes := nodes
    root := BitVec.ofNat 9 (2 * n - 2)
    nleaf := BitVec.ofNat 9 n
    treeValid := true
    codeValid := false }

/-- TREE_BUILD (R147). -/
def execTreeBuild (s : State) : Outcome :=
  finish s <|
    if (presentSymbols s.freq).length = 0 then .error (.raise .emptyInput 0#32)
    else .ok (s.withTree (buildTree s.freq) (presentSymbols s.freq).length)

end Sys2Proof.Machine
end

