-- ==== Sys2Proof/Machine/Dispatch.lean ====
section
/-! DEFINITION. One arm per command (46_control.md R222: `perform`). -/

namespace Sys2Proof.Machine

def exec (i : Instr) (s : State) : Host.Outcome State Fault Refusal :=
  match i with
  | .nop => Sys2Proof.Machine.execNop s
  | .softReset => Sys2Proof.Machine.execSoftReset s
  | .freqBuild => Sys2Proof.Machine.execFreqBuild s
  | .treeBuild => Sys2Proof.Machine.execTreeBuild s
  | .codeDerive => Sys2Proof.Machine.execCodeDerive s
  | .encode => Sys2Proof.Machine.execEncode s
  | .decode => Sys2Proof.Machine.execDecode s

end Sys2Proof.Machine
end

