-- ==== Sys2Proof/Machine/Bus.lean ====
section
/-! DEFINITION. The bus slave port: the address map and the host's reads and writes (20_memory.md R71 to R83, 46_control.md
R227). -/

namespace Sys2Proof.Machine

/-- What an offset of the address map names (20_memory.md R79). -/
inductive Loc where
  | id
  | ctrl
  | cmd
  | status
  | errCode
  | errInfo
  | symLen
  | bitLen
  | bitBytes
  | outLen
  | root
  | nleaf
  | symCapR
  | bitCapR
  | outCapR
  | freq (x : Byte)
  | codeLen (x : Byte)
  | node (i : NodeIndex) (k : BitVec 2)
  | codeBits (x : Byte) (k : BitVec 3)
  | buffer (b : Buffer) (m : Nat)
  deriving DecidableEq, Repr

/-- The registers, offsets 0x000 to 0x038 (R79). -/
def locateRegister (a : Nat) : Option Loc :=
  match a with
  | 0x000 => some .id
  | 0x004 => some .ctrl
  | 0x008 => some .cmd
  | 0x00C => some .status
  | 0x010 => some .errCode
  | 0x014 => some .errInfo
  | 0x018 => some .symLen
  | 0x01C => some .bitLen
  | 0x020 => some .bitBytes
  | 0x024 => some .outLen
  | 0x028 => some .root
  | 0x02C => some .nleaf
  | 0x030 => some .symCapR
  | 0x034 => some .bitCapR
  | 0x038 => some .outCapR
  | _ => none

/-- The word at window index `m` of a buffer, mapped exactly when `4·m < CAP` (R80). -/
def locateBuffer (p : Params) (b : Buffer) (m : Nat) : Option Loc :=
  if 4 * m < p.cap b then some (.buffer b m) else none

/-- The address map at an aligned offset; none where it is unmapped (R74, R79, R80). -/
def locate (p : Params) (off : Offset) : Option Loc :=
  let a := off.toNat
  if a < 0x400 then locateRegister a
  else if a < 0x800 then some (.freq (BitVec.ofNat 8 ((a - 0x400) / 4)))
  else if a < 0xC00 then some (.codeLen (BitVec.ofNat 8 ((a - 0x800) / 4)))
  else if a < 0x1000 then none
  else if a < 0x3000 then some (.node (BitVec.ofNat 9 ((a - 0x1000) / 16)) (BitVec.ofNat 2 ((a - 0x1000) / 4 % 4)))
  else if a < 0x4000 then none
  else if a < 0x6000 then some (.codeBits (BitVec.ofNat 8 ((a - 0x4000) / 32)) (BitVec.ofNat 3 ((a - 0x4000) / 4 % 8)))
  else if a < 0x1000000 then none
  else if a < 0x2000000 then locateBuffer p .symIn ((a - 0x1000000) / 4)
  else if a < 0x3000000 then locateBuffer p .bitBuf ((a - 0x2000000) / 4)
  else locateBuffer p .symOut ((a - 0x3000000) / 4)

/-- Word `k` of node `i` in the node window (10_state.md R48): NODE_INFO, NODE_LINK, NODE_FREQ and a reserved 0; all 0
where the entry holds no value. -/
def nodeWord (n : Option Node) (k : BitVec 2) : Word :=
  match n with
  | none => 0#32
  | some (.leaf x f) =>
    if k = 0#2 then 0b11#2 ++ 0#22 ++ x else if k = 2#2 then f else 0#32
  | some (.internal f l r) =>
    if k = 0#2 then 0b01#2 ++ 0#30 else if k = 1#2 then 0#7 ++ r ++ 0#7 ++ l else if k = 2#2 then f else 0#32

/-- `CODE[s]` as the windows show it: absent unless CODE_VALID = 1 (10_state.md R49). -/
def State.codewordAt (s : State) (x : Byte) : Option BitSeq := if s.codeValid then s.code.at x else none

/-- CODE_LEN[s] (10_state.md R50): the length in bits 7 to 0; 0 means no codeword. -/
def State.codeLenWord (s : State) (x : Byte) : Word :=
  match s.codewordAt x with
  | none => 0#32
  | some w => 0#24 ++ BitVec.ofNat 8 w.length

/-- CODE_BITS[s][k] (10_state.md R51): bit `31 - t` is `w[32k + t]`, and 0 at or beyond the length. -/
def State.codeBitsWord (s : State) (x : Byte) (k : BitVec 3) : Word :=
  match s.codewordAt x with
  | none => 0#32
  | some w => bitsBE 32 (fun t => w.getD (32 * k.toNat + t) false)

/-- The value of a mapped location; no read has a side effect (20_memory.md R81). -/
def State.readLoc (s : State) : Loc → Word
  | .id => Config.idValue
  | .ctrl => s.ctrlWord
  | .cmd => 0#32
  | .status => s.statusWord
  | .errCode => s.errCodeWord
  | .errInfo => s.errInfo
  | .symLen => s.symLen
  | .bitLen => s.bitLen
  | .bitBytes => s.bitBytes
  | .outLen => s.outLen
  | .root => 0#23 ++ s.root
  | .nleaf => 0#23 ++ s.nleaf
  | .symCapR => BitVec.ofNat 32 s.params.symCap
  | .bitCapR => BitVec.ofNat 32 s.params.bitCap
  | .outCapR => BitVec.ofNat 32 s.params.outCap
  | .freq x => s.freq.at x
  | .codeLen x => s.codeLenWord x
  | .node i k => nodeWord (s.nodeAt i) k
  | .codeBits x k => s.codeBitsWord x k
  | .buffer b m => s.readBufferWord b m

/-- A write to a mapped location. CMD issues, STATUS clears the bits written as 1, CTRL, SYM_LEN, BIT_LEN, SYM_IN and
BIT_BUF store, and every other write is accepted and ignored (20_memory.md R75, R81). -/
def State.writeLoc (s : State) (v : Word) : Loc → State
  | .id => s
  | .ctrl => s.writeCtrl v
  | .cmd => s.issue v
  | .status => s.writeStatus v
  | .errCode => s
  | .errInfo => s
  | .symLen => { s with symLen := v }
  | .bitLen => { s with bitLen := v }
  | .bitBytes => s
  | .outLen => s
  | .root => s
  | .nleaf => s
  | .symCapR => s
  | .bitCapR => s
  | .outCapR => s
  | .freq _ => s
  | .codeLen _ => s
  | .node _ _ => s
  | .codeBits _ _ => s
  | .buffer .symIn m => { s with symIn := s.symIn.store (4 * m) (wordBytes v) }
  | .buffer .bitBuf m => { s with bitBuf := s.bitBuf.store (4 * m) (wordBytes v) }
  | .buffer .symOut _ => s

/-- What the bus answers to an access that gets no error (20_memory.md R70). -/
inductive BusResponse where
  | data (v : Word)
  | written
  deriving DecidableEq, Repr

/-- The offset of an access. -/
def HostAccess.off : HostAccess → Offset
  | .read off _ => off
  | .write off _ _ _ => off

/-- The location an access reaches, or why it gets a bus error: its width, its alignment, its offset (R72 to R74). -/
def accessLoc (p : Params) (a : HostAccess) : Except BusError Loc :=
  let formed := match a with
    | .read _ width => width == .word
    | .write _ width enables _ => width == .word && enables == 0xF#4
  if formed = false then .error .width
  else if (HostAccess.off a).toNat % 4 ≠ 0 then .error .misaligned
  else
    match locate p (HostAccess.off a) with
    | none => .error .unmapped
    | some l => .ok l

/-- One access performed against the state (R72 to R82): the response and the state after it. -/
def State.access (s : State) (a : HostAccess) : Except BusError (BusResponse × State) :=
  match accessLoc s.params a with
  | .error e => .error e
  | .ok l =>
    match a with
    | .read _ _ => .ok (.data (s.readLoc l), s)
    | .write _ _ _ v => .ok (.written, s.writeLoc v l)

/-- `MemRead(off, 4)` (00_scope.md R19) -/
def memRead (off : Offset) : HostAccess := .read off .word

/-- `MemWrite(off, 4, v)` (00_scope.md R19) -/
def memWrite (off : Offset) (v : Word) : HostAccess := .write off .word 0xF#4 v

/-- An access is held while BUSY = 1, unless it is a read of STATUS (20_memory.md R83); an access that will get a bus
error is held too. -/
def State.held (s : State) (a : HostAccess) : Bool := s.busy && a != memRead 0x00C#26

/-- The bus address of an offset: `BASE + off`, the one addressing mode (46_control.md R227). -/
def effectiveAddress (off : Offset) : Nat := Config.base + off.toNat

end Sys2Proof.Machine
end

