-- ==== Sys2Proof/Machine/HostAgent.lean ====
section
/-! DEFINITION. The host agent: it runs a program in the notation of 30_encoding.md R107, one statement a turn, and the
expansions of the pseudo-instructions (R108 to R113). -/

namespace Sys2Proof.Machine

/-- The value of a host variable, none before its first assignment. -/
def HostThread.get? : List (Nat × Word) → Nat → Option Word
  | [], _ => none
  | (y, v) :: vs, x => if y = x then some v else HostThread.get? vs x

/-- Assign a host variable, keeping one entry for it and the order of the others. -/
def HostThread.assign : List (Nat × Word) → Nat → Word → List (Nat × Word)
  | [], x, v => [(x, v)]
  | (y, u) :: vs, x, v => if y = x then (x, v) :: vs else (y, u) :: HostThread.assign vs x v

/-- A host condition over the variables, or the variable it tests that was never assigned. -/
def HostThread.holds (vars : List (Nat × Word)) : HostCond → Except Nat Bool
  | .isEq x v =>
    match HostThread.get? vars x with
    | none => .error x
    | some u => .ok (u == v)
  | .isNe x v =>
    match HostThread.get? vars x with
    | none => .error x
    | some u => .ok (u != v)
  | .bitSet x k =>
    match HostThread.get? vars x with
    | none => .error x
    | some u => .ok (u.getLsbD k)
  | .isEqAndBitClear x v y k =>
    match HostThread.get? vars x, HostThread.get? vars y with
    | none, _ => .error x
    | some _, none => .error y
    | some u, some t => .ok (u == v && !t.getLsbD k)

/-- The bus access a statement makes, if it makes one (R107). -/
def stmtAccess : HostStmt → Option HostAccess
  | .w off v => some (memWrite off v)
  | .r off _ => some (memRead off)
  | .expect off _ => some (memRead off)
  | .raw a => some a
  | .branch _ _ => none
  | .goto _ => none

/-- The host moves to position `pos`; nothing of its is on the bus. -/
def State.hostAt (s : State) (pos : Nat) : State := { s with host := { s.host with pos := pos, waiting := false } }

/-- The host assigns `v` to the variable `x`. -/
def State.hostAssign (s : State) (x : Nat) (v : Word) : State :=
  { s with host := { s.host with vars := HostThread.assign s.host.vars x v } }

/-- The host's access is on the bus and held (20_memory.md R83). -/
def State.hostWait (s : State) : State := { s with host := { s.host with waiting := true } }

/-- What the host does with the word `v` a statement read: it assigns it, compares it, or drops it (R107). -/
def hostReceive (t : State) (v : Word) : HostStmt → Outcome
  | .w _ _ => .next t
  | .r _ x => .next (t.hostAssign x v)
  | .expect off want => if v = want then .next t else .fault (.expectFailed off want v)
  | .raw _ => .next t
  | .branch _ _ => .next t
  | .goto _ => .next t

/-- A statement that makes the access `a`: held, or performed, in which case the host goes on to its next statement
with what it read. A bus error is a fault of the host agent (60_exceptions.md R250). -/
def hostAccess (s : State) (stmt : HostStmt) (a : HostAccess) : Outcome :=
  if s.held a then .next s.hostWait
  else
    match s.access a with
    | .error e => .fault (.hostBusError (HostAccess.off a) e)
    | .ok (.written, t) => .next (t.hostAt (s.host.pos + 1))
    | .ok (.data v, t) => hostReceive (t.hostAt (s.host.pos + 1)) v stmt

/-- A statement of the host's own control flow (R107), which touches nothing of HuffCore. -/
def hostJump (s : State) : HostStmt → Outcome
  | .branch c target =>
    match HostThread.holds s.host.vars c with
    | .error x => .fault (.hostVarUnset x)
    | .ok true => .next (s.hostAt target)
    | .ok false => .next (s.hostAt (s.host.pos + 1))
  | .goto target => .next (s.hostAt target)
  | .w _ _ => .next s
  | .r _ _ => .next s
  | .expect _ _ => .next s
  | .raw _ => .next s

/-- One turn of the host: its next statement, or nothing where its program is at its end. -/
def hostTurn (s : State) : Outcome :=
  match s.host.code[s.host.pos]? with
  | none => .next s
  | some stmt =>
    match stmtAccess stmt with
    | some a => hostAccess s stmt a
    | none => hostJump s stmt

/-- The access of the host that is on the bus and held (20_memory.md R83), if any. -/
def State.heldAccess (s : State) : Option HostAccess :=
  if s.host.waiting then
    match s.host.code[s.host.pos]? with
    | none => none
    | some stmt => (stmtAccess stmt).filter s.held
  else none

/-- One turn of the `rst` input (70_reset_and_hazards.md R270, R271). An access held at the time is not performed: the
bus ends it with an error or drops it, as BUS_PROTOCOL says (93 I3). Log 11. -/
def resetTurn (s : State) : Outcome :=
  match s.heldAccess with
  | none => .next s.hardReset
  | some a =>
    if Config.heldAtResetError then .fault (.hostBusError (HostAccess.off a) .heldAtReset)
    else .next (s.hardReset.hostAt (s.host.pos + 1))

/-! ### Pseudo-instructions -/

/-- `C NAME`: exactly one write, of the command word to CMD (R108). -/
def expandC (i : Instr) : List HostStmt := [.w 0x008#26 (encode i)]

/-- `WAIT` placed at position `at_`, with `t` its variable: poll STATUS until BUSY is 0 (R109). -/
def expandWait (at_ t : Nat) : List HostStmt := [.r 0x00C#26 t, .branch (.bitSet t 0) at_]

/-- `CHECK`, with `e` its variable and `fail` the program's label (R111). -/
def expandCheck (e fail : Nat) : List HostStmt := [.r 0x010#26 e, .branch (.isNe e 0#32) fail]

/-- Writes of consecutive words of a buffer window from word `m`, four bytes a word, the bytes past the end 0x00 (R110). -/
def expandWords (window : Nat) (bytes : List Byte) : List HostStmt :=
  (List.range ((bytes.length + 3) / 4)).map (fun m =>
    .w (BitVec.ofNat 26 (window + 4 * m))
      (wordOfBytes (bytes.getD (4 * m) 0#8) (bytes.getD (4 * m + 1) 0#8) (bytes.getD (4 * m + 2) 0#8)
        (bytes.getD (4 * m + 3) 0#8)))

/-- `LOADSYM b0 b1 ...`: the symbols into SYM_IN and their number into SYM_LEN (R110). -/
def expandLoadSym (bytes : List Byte) : List HostStmt :=
  expandWords 0x1000000 bytes ++ [.w 0x018#26 (BitVec.ofNat 32 bytes.length)]

/-- `LOADBITS "bitstring"`: the bits into BIT_BUF, packed by R77 with padding bits 0, and their number into BIT_LEN
(R110). -/
def expandLoadBits (bits : BitSeq) : List HostStmt :=
  expandWords 0x2000000 ((List.range (ceil8 bits.length)).map
      (fun j => bitsBE 8 (fun t => bits.getD (8 * j + t) false)))
    ++ [.w 0x01C#26 (BitVec.ofNat 32 bits.length)]

/-- `COMPRESS` placed at position `at_`, with `e` its variable and `fail` the program's label (R112). Its end, `done`, is
the position after it, 15 statements on. -/
def expandCompress (at_ e fail : Nat) : List HostStmt :=
  expandC .freqBuild ++ expandCheck e fail ++ expandC .treeBuild
    ++ [.r 0x010#26 e, .branch (.isNe e 0x01#32) (at_ + 8), .w 0x01C#26 0#32, .goto (at_ + 15),
        .branch (.isNe e 0#32) fail]
    ++ expandC .codeDerive ++ expandCheck e fail ++ expandC .encode ++ expandCheck e fail

/-- `DECOMPRESS` placed at position `at_`, with `n`, `t` and `e` its variables and `fail` the program's label (R113). Its
end, `done`, is the position after it, 6 statements on. -/
def expandDecompress (at_ n t e fail : Nat) : List HostStmt :=
  [.r 0x01C#26 n, .r 0x00C#26 t, .branch (.isEqAndBitClear n 0#32 t 3) (at_ + 6)]
    ++ expandC .decode ++ expandCheck e fail

end Sys2Proof.Machine
end

