-- ==== Sys2Proof/Machine/Engine.lean ====
section
/-! DEFINITION. The engine agent and the choice of who moves (46_control.md R220 to R223, 20_memory.md R85). -/

namespace Sys2Proof.Machine

/-- `perform(decodeCmd(w), st)` (46_control.md R222): a legal word runs its command, and an illegal one completes with
BAD_COMMAND (R225). -/
def perform (w : Word) (s : State) : Outcome :=
  match decodeCmd w with
  | .ok i => exec i s
  | .error _ => execIllegal w s

/-- One turn of the engine (46_control.md R222): with a command pending, its one step; with none it has no step, and
the state stays as it is. Log 13. -/
def engineTurn (s : State) : Outcome :=
  match s.pending with
  | none => .next s
  | some w => perform w s

/-- Who moves next: the first turn of the schedule; with no schedule the engine completes a pending command, and the
host moves otherwise. Log 6. -/
def State.nextTurn (s : State) : Turn :=
  match s.schedule with
  | [] => if s.busy then .engine else .host
  | t :: _ => t

/-- The state with its next turn taken off the schedule. -/
def State.popTurn (s : State) : State := { s with schedule := s.schedule.tail }

/-- One turn of the host, the engine or the reset input. -/
def takeTurn (t : Turn) (s : State) : Outcome :=
  match t with
  | .host => hostTurn s
  | .engine => engineTurn s
  | .reset => resetTurn s

/-- `w` issued as by a CMD write (46_control.md R221), with the next turn the engine's. -/
def State.issueNext (s : State) (w : Word) : State :=
  { s.issue w with schedule := match s.schedule with
      | [] => []
      | t :: ts => .engine :: t :: ts }

end Sys2Proof.Machine
end

