-- ==== Sys2Proof/Machine/Step.lean ====
section
/-! DEFINITION. One step of the machine: the agent or input whose turn it is moves (00_scope.md R10, 20_memory.md R85). -/

namespace Sys2Proof.Machine

/-- One step: the next turn is taken off the schedule and made. -/
def step (s : State) : Host.Outcome State Fault Refusal := takeTurn s.nextTurn s.popTurn

/-- The state in which the command word given by the `nbits` low bits of `w` is pending and the engine moves next.
HuffCore fetches nothing (20_memory.md R87): a command comes to the engine by a host write to CMD, and this is that
write's effect (46_control.md R221). Log 20. -/
def State.withFetchWord (s : State) (nbits w : Nat) : State := s.issueNext (BitVec.ofNat 32 (w % 2 ^ nbits))

end Sys2Proof.Machine
end

