-- ==== Sys2Proof/Safety.lean ====
section
/-! DEFINITION. What claims about HuffCore are stated with: the invariant of 10_state.md R59, the codewords of a tree
(43_code_derive.md R160), the order of the greedy merge (42_tree_build.md R143), and good final states (60_exceptions.md
R250). -/

namespace Sys2Proof.Machine

/-! ### Trees -/

/-- The symbol of a leaf. -/
def Node.sym? : Node → Option Byte
  | .leaf x _ => some x
  | .internal _ _ _ => none

/-- The child indices of a node, left first. -/
def Node.children : Node → List Nat
  | .leaf _ _ => []
  | .internal _ l r => [l.toNat, r.toNat]

/-- All child indices of a node table, parent by parent. -/
def childIndices (nodes : List Node) : List Nat := nodes.flatMap Node.children

/-- Entry `k` is an internal node whose children come before it and whose frequency is the exact sum of theirs (42_tree_build.md
R149 (b), (g)). -/
def internalWf (nodes : List Node) (k : Nat) : Bool :=
  match nodes[k]? with
  | some (.internal f l r) =>
    match nodes[l.toNat]?, nodes[r.toNat]? with
    | some a, some b =>
      decide (l.toNat < k) && decide (r.toNat < k) && decide (f.toNat = a.freq.toNat + b.freq.toNat)
    | _, _ => false
  | _ => false

/-- `nodes` is a full binary tree of `n` leaves rooted at its last entry (10_state.md R59 (a), 42_tree_build.md R149): the
first `n` entries are leaves with distinct symbols in ascending order, the others are internal nodes, and every entry
but the last is a child exactly once. -/
structure TreeShape (nodes : List Node) (n : Nat) : Prop where
  one_le    : 1 ≤ n
  le_256    : n ≤ 256
  length    : nodes.length = 2 * n - 1
  leaves    : ∀ k < n, ((nodes[k]?).bind Node.sym?).isSome = true
  ascending : ((nodes.take n).filterMap Node.sym?).Pairwise (fun x y => x.toNat < y.toNat)
  internals : ∀ k < 2 * n - 1, n ≤ k → internalWf nodes k = true
  parents   : (childIndices nodes).Perm (List.range (2 * n - 2))

/-- The node reached from node `i` by following bits, 0 to the left child and 1 to the right (R160). -/
def follow (nodeAt : NodeIndex → Option Node) : NodeIndex → BitSeq → Option NodeIndex
  | i, [] => some i
  | i, b :: bs =>
    match nodeAt i with
    | some (.internal _ l r) => follow nodeAt (if b then r else l) bs
    | _ => none

/-- `w` is the codeword of symbol `x` in the tree held (43_code_derive.md R160): the bits of the path from the root to the
leaf of `x`, or "0" where the root itself is the leaf of `x`. -/
def State.isCodeword (s : State) (x : Byte) (w : BitSeq) : Prop :=
  match s.nodeAt s.root with
  | some (.leaf y _) => x = y ∧ w = [false]
  | _ => ∃ k f, follow s.nodeAt s.root w = some k ∧ s.nodeAt k = some (.leaf x f)

/-- A decoded sequence: codewords of the tree held, each with its symbol. -/
def State.areCodewords (s : State) (ws : List (BitSeq × Byte)) : Prop := ∀ p ∈ ws, s.isCodeword p.2 p.1

/-- No codeword of the table is a prefix of another's (43_code_derive.md R163). -/
def prefixFree (C : CodeTable) : Prop :=
  ∀ x y u w, x ≠ y → C.at x = some u → C.at y = some w → ¬ u <+: w

/-- The key order of 42_tree_build.md R143 on entries of a node table: lower frequency first, then lower index. -/
def keyBefore (nodes : List Node) (i j : Nat) : Prop :=
  ∃ a b, nodes[i]? = some a ∧ nodes[j]? = some b ∧
    (a.freq.toNat < b.freq.toNat ∨ (a.freq.toNat = b.freq.toNat ∧ i < j))

/-- Entry `i` is in the queue when entry `k` is created: it exists, and no earlier merge removed it (R144). -/
def inQueueAt (nodes : List Node) (k i : Nat) : Prop := i < k ∧ i ∉ childIndices (nodes.take k)

/-- The sum of all counts of a frequency table. -/
def freqTotal (F : FreqTable) : Nat := (F.toList.map BitVec.toNat).sum

/-! ### Streams -/

/-- SYM_OUT[0..OUT_LEN - 1] in order (10_state.md R54). -/
def State.outputSymbols (s : State) : List Byte := (List.range s.outLen.toNat).map (s.readByte .symOut)

/-! ### The host's reads -/

/-- The outcome `o` is that of a read of the word `v` by the host's statement `stmt` (30_encoding.md R107): nothing of
HuffCore changes, the host goes on, and `R` assigns `v`, `EXPECT` compares it (another value is a fault of the host
program, log 17), and a raw read drops it. -/
def State.receives (s : State) (stmt : HostStmt) (v : Word) (o : Outcome) : Prop :=
  (∀ off x, stmt = .r off x →
    ∃ t : State, o = .next t ∧ t = { s with host := t.host } ∧ t.host.code = s.host.code ∧
      t.host.pos = s.host.pos + 1 ∧ t.host.waiting = false ∧ HostThread.get? t.host.vars x = some v ∧
      ∀ y, y ≠ x → HostThread.get? t.host.vars y = HostThread.get? s.host.vars y) ∧
  (∀ off want, stmt = .expect off want →
    o = if v = want then .next (s.hostAt (s.host.pos + 1)) else .fault (.expectFailed off want v)) ∧
  (∀ a, stmt = .raw a → o = .next (s.hostAt (s.host.pos + 1)))

/-! ### The address map -/

/-- The offsets 20_memory.md R79 and R80 map, as ranges. -/
def mappedOffset (p : Params) (a : Nat) : Prop :=
  a ≤ 0x03B ∨ (0x400 ≤ a ∧ a ≤ 0xBFF) ∨ (0x1000 ≤ a ∧ a ≤ 0x2FFF) ∨ (0x4000 ≤ a ∧ a ≤ 0x5FFF) ∨
    (0x1000000 ≤ a ∧ a < 0x1000000 + p.symCap) ∨ (0x2000000 ≤ a ∧ a < 0x2000000 + p.bitCap) ∨
    (0x3000000 ≤ a ∧ a < 0x3000000 + p.outCap)

/-- The locations whose writes are accepted and ignored (R75, R79: RO). -/
def Loc.readOnly : Loc → Bool
  | .ctrl => false
  | .cmd => false
  | .status => false
  | .symLen => false
  | .bitLen => false
  | .buffer .symIn _ => false
  | .buffer .bitBuf _ => false
  | _ => true

/-! ### The invariant -/

/-- The buffers are in canonical form and list no index at or beyond their capacities. -/
def State.buffersWf (s : State) : Bool :=
  s.symIn.wf && s.bitBuf.wf && s.symOut.wf && s.symIn.within s.params.symCap && s.bitBuf.within s.params.bitCap
    && s.symOut.within s.params.outCap

/-- What holds in every reachable state: 10_state.md R59 (a) to (d), with R15, R36, R42, R43, R121 and R162. R59 (d) holds by
construction, since BUSY is computed from the pending command. -/
structure State.Inv (s : State) : Prop where
  buffers  : s.buffersWf = true
  tree     : s.treeValid = true → TreeShape s.nodes s.nleaf.toNat ∧ s.root.toNat = 2 * s.nleaf.toNat - 2
  noTree   : s.treeValid = false → s.nleaf = 0#9 ∧ s.root = 0#9 ∧ s.nodes = []
  code     : s.codeValid = true → s.treeValid = true ∧ s.deriveCode = .ok s.code
  counts   : freqTotal s.freq ≤ s.params.symCap
  output   : s.outLen.toNat ≤ s.params.outCap
  okInfo   : s.errCode = .ok → s.errInfo = 0#32
  busyDone : s.busy = true → s.done = false
  noDefect : s.errCode ≠ .degenerateTree

/-- The states a run can reach from a state: steps that answer a next state. -/
inductive Reaches (s : State) : State → Prop where
  | refl : Reaches s s
  | step (t u : State) : Reaches s t → Sys2Proof.Machine.step t = .next u → Reaches s u

/-- A run is safe from a state: no reachable state's step ends in a fault (60_exceptions.md R249, R250). -/
def State.safe (s : State) : Prop := ∀ t, Reaches s t → ∃ u, Sys2Proof.Machine.step t = .next u

/-- A good final state of a host program: the program has ended, no command is pending and no error is outstanding
(10_state.md R37). -/
def State.finished (s : State) : Bool := s.host.code.length ≤ s.host.pos && !s.busy && !s.errSticky

end Sys2Proof.Machine
end

