-- ==== Sys2Proof/Certificates/Slice0/Obligations.lean ====
section
/-! DEFINITION. The statements for the provers, from the numbered rules of spec/. -/

open Sys2Proof Sys2Proof.Machine

/-! ### Encoding and dispatch -/

/-- 30_encoding.md R103, R104, R106 (sanity): words of the opcode map and two illegal words. -/
def Obligations.OpcodeMapWordsDecode : Prop :=
  decodeTableWord 32 0x00000000 = some .nop ∧ decodeTableWord 32 0x01000000 = some .softReset ∧
  decodeTableWord 32 0x02000000 = some .freqBuild ∧ decodeTableWord 32 0x03000000 = some .treeBuild ∧
  decodeTableWord 32 0x04000000 = some .codeDerive ∧ decodeTableWord 32 0x05000000 = some .encode ∧
  decodeTableWord 32 0x06000000 = some .decode ∧ decodeTableWord 32 0x07000000 = none ∧
  decodeTableWord 32 0x02000001 = none

/-- 30_encoding.md R103: the opcode map, and decoding and encoding agree in both directions: each command is selected by
its whole word and by no other. -/
def Obligations.DecodeAndEncodeAgree : Prop :=
  Sys2Proof.encode .nop = 0x00000000#32 ∧ Sys2Proof.encode .softReset = 0x01000000#32 ∧
  Sys2Proof.encode .freqBuild = 0x02000000#32 ∧ Sys2Proof.encode .treeBuild = 0x03000000#32 ∧
  Sys2Proof.encode .codeDerive = 0x04000000#32 ∧ Sys2Proof.encode .encode = 0x05000000#32 ∧
  Sys2Proof.encode .decode = 0x06000000#32 ∧
  (∀ i : Instr, i.wf = true → decodeCmd (Sys2Proof.encode i) = .ok i) ∧
  (∀ (w : Word) (i : Instr), decodeCmd w = .ok i → w = Sys2Proof.encode i)

/-- 30_encoding.md R104, 46_control.md R225: exactly the words with RSVD not 0 or OPCODE 0x07 to 0xFF are illegal, RSVD is
checked first, an illegal word issues like any other, and it completes with BAD_COMMAND and the word. -/
def Obligations.IllegalWordsCompleteBadCommand : Prop :=
  ∀ (s : State) (w : Word),
    ((∃ e, decodeCmd w = .error e) ↔ (rsvdField w ≠ 0#24 ∨ 7 ≤ (opcodeField w).toNat)) ∧
    (rsvdField w ≠ 0#24 → decodeCmd w = .error .reservedBits) ∧
    (s.access (memWrite 0x008#26 w) = .ok (.written, s.issue w) ∧ (s.issue w).busy = true ∧ (s.issue w).done = false) ∧
    (∀ e, decodeCmd w = .error e → perform w s = .next (s.complete .badCommand w))

/-- 46_control.md R222, 30_encoding.md R106: when the engine moves and a word is pending, the step is the execution of the
decoded command on the state with that turn taken off the schedule (or BAD_COMMAND). Two clauses are the model's choice:
a turn with nothing pending, where R222 gives the engine no step, leaves the state as it is (log 13, DESIGN CHOICE), and
with an empty schedule the engine moves exactly when a command is pending (log 6, DESIGN CHOICE). -/
def Obligations.StepRunsDecodedCommand : Prop :=
  ∀ s : State,
    (s.schedule = [] → (s.nextTurn = .engine ↔ s.busy = true)) ∧
    (s.nextTurn = .engine →
      (∀ w i, s.pending = some w → decodeCmd w = .ok i → step s = exec i s.popTurn) ∧
      (∀ w e, s.pending = some w → decodeCmd w = .error e → step s = .next (s.popTurn.complete .badCommand w)) ∧
      (s.pending = none → step s = .next s.popTurn))

/-- 46_control.md R221, R222: the state that withFetchWord gives runs exactly that command next, from the state right
after its CMD write. (withFetchWord is the model's own: log 20.) -/
def Obligations.FetchedWordRunsNext : Prop :=
  ∀ (s : State) (i : Instr), i.wf = true →
    step (s.withFetchWord 32 (Sys2Proof.encode i).toNat) = exec i (s.issue (Sys2Proof.encode i))

/-! ### Completion, failure and the invariant -/

/-- 60_exceptions.md R244: what `complete(code, info)` writes, that it writes nothing else, and that a command's other
writes are committed on OK and discarded on `raise`; and the twelve numeric codes of R240. -/
def Obligations.CompleteWritesRecord : Prop :=
  ∀ (s : State) (code : ErrCode) (info : Word),
    s.complete code info =
      { s with errCode := code, errInfo := info, done := true, pending := none,
               errSticky := if code = .ok then s.errSticky else true } ∧
    (s.complete code info).errCodeWord = 0#24 ++ code.toByte ∧ (s.complete code info).busy = false ∧
    (∀ t, finish s (.ok t) = .next (t.complete .ok 0#32)) ∧
    finish s (.error (.raise code info)) = .next (s.complete code info) ∧
    (ErrCode.toByte .ok = 0x00#8 ∧ ErrCode.toByte .emptyInput = 0x01#8 ∧ ErrCode.toByte .unknownSymbol = 0x02#8 ∧
      ErrCode.toByte .truncatedStream = 0x03#8 ∧ ErrCode.toByte .degenerateTree = 0x04#8 ∧
      ErrCode.toByte .noTree = 0x05#8 ∧ ErrCode.toByte .noCode = 0x06#8 ∧ ErrCode.toByte .badLength = 0x07#8 ∧
      ErrCode.toByte .bitOverflow = 0x08#8 ∧ ErrCode.toByte .outOverflow = 0x09#8 ∧
      ErrCode.toByte .invalidBit = 0x0A#8 ∧ ErrCode.toByte .badCommand = 0x0B#8)

/-- 46_control.md R222, R223, 43_code_derive.md R162: in every state that meets the invariant every command completes, so
no command faults (DEGENERATE_TREE is unreachable) and a pending command never hangs. -/
def Obligations.EveryCommandCompletes : Prop :=
  ∀ s : State, s.Inv →
    (∀ i : Instr, ∃ t : State, exec i s = .next t ∧ t.pending = none ∧ t.done = true ∧ t.errCode ≠ .degenerateTree) ∧
    (∀ w, s.pending = some w → ∃ t : State, engineTurn s = .next t ∧ t.busy = false ∧ t.done = true)

/-- 10_state.md R59: every step keeps the invariant. -/
def Obligations.StepKeepsInvariant : Prop :=
  ∀ s t : State, s.Inv → step s = .next t → t.Inv

/-- 10_state.md R59, 70_reset_and_hazards.md R270: the state after reset meets the invariant. -/
def Obligations.ResetMeetsInvariant : Prop := State.reset.Inv

/-- 60_exceptions.md R246: a command, legal or not, that completes with another code than OK changes only the completion
record. -/
def Obligations.FailedCommandChangesOnlyRecord : Prop :=
  ∀ (s t : State) (w : Word), perform w s = .next t → t.errCode ≠ .ok → t = s.complete t.errCode t.errInfo

/-- 10_state.md R36, R37, R42: every completion sets DONE and ends BUSY, leaves ERR_INFO 0 on success, and sets ERR_STICKY on
an error; only SOFT_RESET clears ERR_STICKY. -/
def Obligations.CompletionRecordOfEveryCommand : Prop :=
  ∀ (s t : State) (w : Word), perform w s = .next t →
    t.done = true ∧ t.busy = false ∧ (t.errCode = .ok → t.errInfo = 0#32) ∧
    (t.errCode ≠ .ok → t.errSticky = true) ∧
    (w ≠ 0x01000000#32 → t.errCode = .ok → t.errSticky = s.errSticky) ∧
    (w = 0x01000000#32 → t.errSticky = false)

/-- 60_exceptions.md R242: the codes each command can report. -/
def Obligations.CommandsReportOnlyTheirCodes : Prop :=
  ∀ s t : State,
    (exec .nop s = .next t → t.errCode = .ok) ∧
    (exec .softReset s = .next t → t.errCode = .ok) ∧
    (exec .freqBuild s = .next t → t.errCode ∈ [ErrCode.ok, .badLength]) ∧
    (exec .treeBuild s = .next t → t.errCode ∈ [ErrCode.ok, .emptyInput]) ∧
    (exec .codeDerive s = .next t → t.errCode ∈ [ErrCode.ok, .noTree, .degenerateTree]) ∧
    (exec .encode s = .next t → t.errCode ∈ [ErrCode.ok, .noCode, .badLength, .unknownSymbol, .bitOverflow]) ∧
    (exec .decode s = .next t →
      t.errCode ∈ [ErrCode.ok, .noTree, .badLength, .invalidBit, .outOverflow, .truncatedStream]) ∧
    (∀ w e, decodeCmd w = .error e → perform w s = .next t → t.errCode = .badCommand)

/-- 30_encoding.md R102, 10_state.md R32, R45, R52: what no command changes, and which command alone changes what. -/
def Obligations.CommandsWriteOnlyTheirOperands : Prop :=
  ∀ (s t : State) (i : Instr), exec i s = .next t →
    (t.params = s.params ∧ t.irqEn = s.irqEn ∧ t.symIn = s.symIn ∧ t.epoch = s.epoch ∧ t.host = s.host ∧
      t.schedule = s.schedule) ∧
    (i ≠ .encode → ∀ j, t.readByte .bitBuf j = s.readByte .bitBuf j) ∧
    (i ≠ .decode → ∀ j, t.readByte .symOut j = s.readByte .symOut j) ∧
    (i ≠ .softReset → t.symLen = s.symLen) ∧
    (i ≠ .softReset → i ≠ .encode → t.bitLen = s.bitLen) ∧
    (i ≠ .softReset → i ≠ .decode → t.outLen = s.outLen) ∧
    (i ≠ .softReset → i ≠ .freqBuild → t.freq = s.freq) ∧
    (i ≠ .softReset → i ≠ .treeBuild →
      t.nodes = s.nodes ∧ t.root = s.root ∧ t.nleaf = s.nleaf ∧ t.treeValid = s.treeValid) ∧
    (i ≠ .softReset → i ≠ .codeDerive → t.code = s.code) ∧
    (i ≠ .softReset → i ≠ .codeDerive → i ≠ .treeBuild → t.codeValid = s.codeValid)

/-! ### Control commands -/

/-- 46_control.md R224: NOP completes with OK; the completion record is all it changes, and ERR_STICKY is kept. -/
def Obligations.NopChangesOnlyRecord : Prop :=
  Sys2Proof.encode .nop = 0x00000000#32 ∧
  ∀ s : State, exec .nop s =
    .next { s with errCode := .ok, errInfo := 0#32, done := true, pending := none }

/-- 46_control.md R226: SOFT_RESET completes with OK and leaves the hardware reset state but for CTRL, DONE and the buffers
(and the capacities, which are constants, and the model's own fields). -/
def Obligations.SoftResetEmptiesCodec : Prop :=
  Sys2Proof.encode .softReset = 0x01000000#32 ∧
  ∀ s : State, ∃ t : State, exec .softReset s = .next t ∧
    t = { State.reset with
            params := s.params, irqEn := s.irqEn, done := true, symIn := s.symIn, bitBuf := s.bitBuf,
            symOut := s.symOut, epoch := s.epoch, host := s.host, schedule := s.schedule } ∧
    t.statusWord = 0x00000002#32 ∧ t.irq = s.irqEn ∧
    (∀ x, t.readLoc (.freq x) = 0#32 ∧ t.readLoc (.codeLen x) = 0#32) ∧
    (∀ i k, t.readLoc (.node i k) = 0#32) ∧ (∀ x k, t.readLoc (.codeBits x k) = 0#32)

/-! ### Frequency counter -/

/-- 41_frequency.md R120: FREQ_BUILD gives every symbol its number of occurrences in SYM_IN[0..SYM_LEN - 1] and changes
nothing else, or fails with BAD_LENGTH when SYM_LEN > SYM_CAP. -/
def Obligations.FreqBuildCountsSymbols : Prop :=
  Sys2Proof.encode .freqBuild = 0x02000000#32 ∧
  ∀ s : State,
    (s.symLen.toNat ≤ s.params.symCap →
      ∃ t : State, exec .freqBuild s = .next t ∧ (∀ x, (t.freq.at x).toNat = s.inputSymbols.count x) ∧
        t = ({ s with freq := t.freq } : State).complete .ok 0#32) ∧
    (s.params.symCap < s.symLen.toNat → exec .freqBuild s = .next (s.complete .badLength s.symLen))

/-- 41_frequency.md R121, R122: after a successful FREQ_BUILD the counts are bounded and sum to SYM_LEN, and exactly the
symbols that occur have a count. -/
def Obligations.FreqCountsSumToLength : Prop :=
  ∀ s t : State, exec .freqBuild s = .next t → t.errCode = .ok →
    (∀ x, (t.freq.at x).toNat ≤ s.symLen.toNat) ∧ s.symLen.toNat ≤ s.params.symCap ∧ s.params.symCap ≤ 2 ^ 24 ∧
    freqTotal t.freq = s.symLen.toNat ∧ (∀ x, t.freq.at x ≠ 0#32 ↔ x ∈ s.inputSymbols)

/-! ### Tree builder -/

/-- 42_tree_build.md R141 and the writes of R147: with n ≥ 1 symbols present TREE_BUILD completes, the leaves are the symbols
present in ascending order with their counts, ROOT = 2n - 2, NLEAF = n, TREE_VALID is set and CODE_VALID cleared, and
nothing else changes. -/
def Obligations.TreeBuildWritesTree : Prop :=
  ∀ s : State, (∃ x, s.freq.at x ≠ 0#32) →
    ∃ t : State, exec .treeBuild s = .next t ∧
      t.nleaf.toNat = (presentSymbols s.freq).length ∧
      t.root.toNat = 2 * (presentSymbols s.freq).length - 2 ∧
      t.nodes.length = 2 * (presentSymbols s.freq).length - 1 ∧
      (∀ x, x ∈ presentSymbols s.freq ↔ s.freq.at x ≠ 0#32) ∧
      (presentSymbols s.freq).Pairwise (fun x y => x.toNat < y.toNat) ∧
      (∀ (k : Nat) (x : Byte), (presentSymbols s.freq)[k]? = some x → t.nodes[k]? = some (.leaf x (s.freq.at x))) ∧
      t = ({ s with nodes := t.nodes, root := t.root, nleaf := t.nleaf, treeValid := true, codeValid := false }
            : State).complete .ok 0#32

/-- 42_tree_build.md R147, 60_exceptions.md R240, R246: on an empty frequency table TREE_BUILD fails with EMPTY_INPUT and
information 0, and an earlier tree and code table are kept. -/
def Obligations.TreeBuildRejectsEmptyTable : Prop :=
  ∀ s : State, (∀ x, s.freq.at x = 0#32) → exec .treeBuild s = .next (s.complete .emptyInput 0#32)

/-- 42_tree_build.md R143, R144: every internal node that TREE_BUILD creates has as its left child the entry of least key
(frequency, then index) among those in the queue at that moment, as its right child the least of the rest, and as its
frequency their sum. -/
def Obligations.MergesTakeLeastKeys : Prop :=
  ∀ (s t : State), exec .treeBuild s = .next t → t.errCode = .ok →
    ∀ (k : Nat) (f : Word) (l r : NodeIndex), t.nodes[k]? = some (.internal f l r) →
      inQueueAt t.nodes k l.toNat ∧ inQueueAt t.nodes k r.toNat ∧ l ≠ r ∧
      (∀ i, inQueueAt t.nodes k i → i ≠ l.toNat →
        keyBefore t.nodes l.toNat i ∧ (i ≠ r.toNat → keyBefore t.nodes r.toNat i)) ∧
      (∃ a b, t.nodes[l.toNat]? = some a ∧ t.nodes[r.toNat]? = some b ∧ f = a.freq + b.freq)

/-- 42_tree_build.md R149: the tree is a full binary tree, with exact frequency sums, one parent for every other node,
children before parents, exactly the symbols present as leaves, and the total count at the root. The counts are bounded
as R121 gives. -/
def Obligations.TreeIsFullBinaryTree : Prop :=
  ∀ s t : State, freqTotal s.freq ≤ s.params.symCap → exec .treeBuild s = .next t → t.errCode = .ok →
    TreeShape t.nodes t.nleaf.toNat ∧
    (t.nodes.take t.nleaf.toNat).filterMap Node.sym? = presentSymbols s.freq ∧
    (∀ x, x ∈ presentSymbols s.freq ↔ s.freq.at x ≠ 0#32) ∧
    (∃ a, t.nodeAt t.root = some a ∧ a.freq.toNat = freqTotal s.freq)

/-- 42_tree_build.md R150: equal frequency tables give identical node tables. -/
def Obligations.TreeDependsOnFrequenciesOnly : Prop :=
  ∀ s s' t t' : State, s.freq = s'.freq → exec .treeBuild s = .next t → exec .treeBuild s' = .next t' →
    t.errCode = t'.errCode ∧
    (t.errCode = .ok → t.nodes = t'.nodes ∧ t.root = t'.root ∧ t.nleaf = t'.nleaf)

/-- 43_code_derive.md R166: a more frequent symbol never gets a strictly longer codeword. R166 and 93 I21 mark this as
general knowledge, which the spec does not prove: it is stated here as the law to be proved from R147. -/
def Obligations.MoreFrequentSymbolsGetNoLongerCodes : Prop :=
  ∀ s t u : State, freqTotal s.freq ≤ s.params.symCap → exec .treeBuild s = .next t → t.errCode = .ok →
    exec .codeDerive t = .next u → u.errCode = .ok →
    ∀ a b v w, (s.freq.at b).toNat < (s.freq.at a).toNat → u.code.at a = some v → u.code.at b = some w →
      v.length ≤ w.length

/-! ### Code generator -/

/-- 43_code_derive.md R160: with a tree held CODE_DERIVE completes, and the code table has exactly the codewords of the tree:
the path bits of each leaf, or "0" for a single leaf. Nothing else changes. -/
def Obligations.CodeDeriveGivesPathCodewords : Prop :=
  ∀ s : State, s.Inv → s.treeValid = true →
    ∃ t : State, exec .codeDerive s = .next t ∧ (∀ x w, t.code.at x = some w ↔ s.isCodeword x w) ∧
      t = ({ s with code := t.code, codeValid := true } : State).complete .ok 0#32

/-- 43_code_derive.md R161, 60_exceptions.md R240, R241: without a tree CODE_DERIVE fails with NO_TREE and information 0. -/
def Obligations.CodeDeriveNeedsTree : Prop :=
  ∀ s : State, s.treeValid = false → exec .codeDerive s = .next (s.complete .noTree 0#32)

/-- 43_code_derive.md R163: a valid code table is prefix-free. -/
def Obligations.CodeTableIsPrefixFree : Prop :=
  ∀ s : State, s.Inv → s.codeValid = true → prefixFree s.code

/-- 43_code_derive.md R164: for n ≥ 2 a codeword is as long as its leaf is deep, between 1 and n - 1; for n = 1 its length is
1; so every length is at most 255. -/
def Obligations.CodewordLengthIsDepth : Prop :=
  ∀ s : State, s.Inv → s.codeValid = true → ∀ x w, s.code.at x = some w →
    (2 ≤ s.nleaf.toNat →
      (∃ k f, follow s.nodeAt s.root w = some k ∧ s.nodeAt k = some (.leaf x f)) ∧
      1 ≤ w.length ∧ w.length ≤ s.nleaf.toNat - 1) ∧
    (s.nleaf.toNat = 1 → w.length = 1) ∧ w.length ≤ 255

/-- 43_code_derive.md R165, 70_reset_and_hazards.md R277: the symbols with a codeword are exactly those that had a count at
the TREE_BUILD that built the tree held, whatever else changed before the CODE_DERIVE. A FREQ_BUILD in between keeps the
tree held, and a FREQ_BUILD after keeps the code table and its validity. -/
def Obligations.CodeTableCoversPresentSymbols : Prop :=
  ∀ s t u v : State, s.Inv → exec .treeBuild s = .next t → t.errCode = .ok →
    (∀ a, exec .freqBuild t = .next a →
      a.nodes = t.nodes ∧ a.root = t.root ∧ a.nleaf = t.nleaf ∧ a.treeValid = t.treeValid ∧ t.treeValid = true) ∧
    (u.nodes = t.nodes → u.root = t.root → u.nleaf = t.nleaf → u.treeValid = true →
      exec .codeDerive u = .next v → v.errCode = .ok →
      v.codeValid = true ∧ (∀ x, (∃ w, v.code.at x = some w) ↔ s.freq.at x ≠ 0#32) ∧
      ∀ b, exec .freqBuild v = .next b → b.code = v.code ∧ b.codeValid = true)

/-! ### Encoder -/

/-- 44_encode.md R182, R184 and the success of R181: ENCODE completes when every input symbol has a codeword and the stream
fits; BIT_LEN is the sum of the codeword lengths, the stream is the codewords in order, its padding bits are 0, the
bytes past it keep their values, and nothing else changes. -/
def Obligations.EncodePacksCodewords : Prop :=
  ∀ s : State, s.codeValid = true → s.symLen.toNat ≤ s.params.symCap →
    (∀ x ∈ s.inputSymbols, s.code.at x ≠ none) →
    (s.inputSymbols.flatMap (fun x => (s.code.at x).getD [])).length ≤ 8 * s.params.bitCap →
    ∃ t : State, exec .encode s = .next t ∧
      t.bitLen.toNat = (s.inputSymbols.map (fun x => ((s.code.at x).getD []).length)).sum ∧
      t.bitBytes.toNat = ceil8 t.bitLen.toNat ∧
      t.bitstream = s.inputSymbols.flatMap (fun x => (s.code.at x).getD []) ∧
      (∀ p, t.bitLen.toNat ≤ p → p < 8 * ceil8 t.bitLen.toNat → t.streamBit p = false) ∧
      (∀ j, ceil8 t.bitLen.toNat ≤ j → t.readByte .bitBuf j = s.readByte .bitBuf j) ∧
      t = ({ s with bitBuf := t.bitBuf, bitLen := t.bitLen } : State).complete .ok 0#32

/-- 44_encode.md R181, 60_exceptions.md R243: the checks of ENCODE before its input: NO_CODE, then BAD_LENGTH. -/
def Obligations.EncodeChecksTableThenLength : Prop :=
  ∀ s : State,
    (s.codeValid = false → exec .encode s = .next (s.complete .noCode 0#32)) ∧
    (s.codeValid = true → s.params.symCap < s.symLen.toNat →
      exec .encode s = .next (s.complete .badLength s.symLen))

/-- 44_encode.md R181, 60_exceptions.md R241, R243: the first symbol in order that has no codeword, or whose codeword does not
fit, is the one reported, with its index; at one index UNKNOWN_SYMBOL comes first. -/
def Obligations.EncodeReportsFirstBadSymbol : Prop :=
  ∀ (s : State) (pre post : List Byte) (x : Byte), s.codeValid = true → s.symLen.toNat ≤ s.params.symCap →
    s.inputSymbols = pre ++ x :: post → (∀ y ∈ pre, s.code.at y ≠ none) →
    (pre.flatMap (fun y => (s.code.at y).getD [])).length ≤ 8 * s.params.bitCap →
    (s.code.at x = none → exec .encode s = .next (s.complete .unknownSymbol (BitVec.ofNat 32 pre.length))) ∧
    (∀ w, s.code.at x = some w →
      8 * s.params.bitCap < (pre.flatMap (fun y => (s.code.at y).getD [])).length + w.length →
      exec .encode s = .next (s.complete .bitOverflow (BitVec.ofNat 32 pre.length)))

/-! ### Decoder -/

/-- 45_decode.md R201, R202, R203: a stream that is a sequence of codewords of the tree held decodes to their symbols, if
they fit; the bytes past the output keep their values and nothing else changes. -/
def Obligations.DecodeEmitsSymbolsOfCodewords : Prop :=
  ∀ (s : State) (ws : List (BitSeq × Byte)), s.treeValid = true → s.bitLen.toNat ≤ 8 * s.params.bitCap →
    s.areCodewords ws → s.bitstream = ws.flatMap Prod.fst → ws.length ≤ s.params.outCap →
    ∃ t : State, exec .decode s = .next t ∧ t.outLen.toNat = ws.length ∧ t.outputSymbols = ws.map Prod.snd ∧
      (∀ j, ws.length ≤ j → t.readByte .symOut j = s.readByte .symOut j) ∧
      t = ({ s with symOut := t.symOut, outLen := t.outLen } : State).complete .ok 0#32

/-- 45_decode.md R202, 60_exceptions.md R243: the checks of DECODE before its input: NO_TREE, then BAD_LENGTH. -/
def Obligations.DecodeChecksTreeThenLength : Prop :=
  ∀ s : State,
    (s.treeValid = false → exec .decode s = .next (s.complete .noTree 0#32)) ∧
    (s.treeValid = true → 8 * s.params.bitCap < s.bitLen.toNat →
      exec .decode s = .next (s.complete .badLength s.bitLen))

/-- 45_decode.md R202, R206: a stream that ends mid-tree after whole codewords fails with TRUNCATED_STREAM at the first bit
of the unfinished codeword, and nothing is output. -/
def Obligations.DecodeRejectsTruncatedStream : Prop :=
  ∀ (s : State) (ws : List (BitSeq × Byte)) (u : BitSeq) (k : NodeIndex) (f : Word) (l r : NodeIndex),
    s.treeValid = true → s.bitLen.toNat ≤ 8 * s.params.bitCap → s.areCodewords ws →
    ws.length ≤ s.params.outCap → s.bitstream = ws.flatMap Prod.fst ++ u → u ≠ [] →
    follow s.nodeAt s.root u = some k → k ≠ s.root → s.nodeAt k = some (.internal f l r) →
    exec .decode s = .next (s.complete .truncatedStream (BitVec.ofNat 32 (ws.flatMap Prod.fst).length))

/-- 45_decode.md R203: on a single-leaf tree each bit 0 emits the leaf's symbol, a bit 1 fails with INVALID_BIT at its
position, and TRUNCATED_STREAM cannot arise. -/
def Obligations.SingleLeafTreeDecodesZeros : Prop :=
  ∀ (s : State) (x : Byte) (f : Word), s.treeValid = true → s.bitLen.toNat ≤ 8 * s.params.bitCap →
    s.nodeAt s.root = some (.leaf x f) →
    (∀ n, s.bitstream = List.replicate n false → n ≤ s.params.outCap →
      ∃ t : State, exec .decode s = .next t ∧ t.errCode = .ok ∧ t.outLen.toNat = n ∧
        t.outputSymbols = List.replicate n x) ∧
    (∀ n rest, s.bitstream = List.replicate n false ++ true :: rest → n ≤ s.params.outCap →
      exec .decode s = .next (s.complete .invalidBit (BitVec.ofNat 32 n))) ∧
    (∀ t, exec .decode s = .next t → t.errCode ≠ .truncatedStream)

/-- 45_decode.md R202, 60_exceptions.md R241, R243: the bit that completes symbol number OUT_CAP + 1 fails with OUT_OVERFLOW at
its position, whatever follows. -/
def Obligations.DecodeRejectsOutputOverflow : Prop :=
  ∀ (s : State) (ws : List (BitSeq × Byte)) (rest : BitSeq), s.treeValid = true →
    s.bitLen.toNat ≤ 8 * s.params.bitCap → s.areCodewords ws → ws.length = s.params.outCap + 1 →
    s.bitstream = ws.flatMap Prod.fst ++ rest →
    exec .decode s = .next (s.complete .outOverflow (BitVec.ofNat 32 ((ws.flatMap Prod.fst).length - 1)))

/-- 45_decode.md R205: the round trip. From any state with 1 ≤ SYM_LEN ≤ SYM_CAP, the five commands in order all complete
with OK and SYM_OUT holds the input, if the stream fits BIT_BUF and the input fits SYM_OUT. For SYM_LEN = 0 the
TREE_BUILD fails with EMPTY_INPUT. -/
def Obligations.CodecRoundTrip : Prop :=
  ∀ s : State, s.symLen.toNat ≤ s.params.symCap →
    ∃ a, exec .freqBuild s = .next a ∧ a.errCode = .ok ∧
      (s.symLen.toNat = 0 → exec .treeBuild a = .next (a.complete .emptyInput 0#32)) ∧
      (1 ≤ s.symLen.toNat →
        ∃ b c, exec .treeBuild a = .next b ∧ b.errCode = .ok ∧ exec .codeDerive b = .next c ∧ c.errCode = .ok ∧
          (ceil8 (s.inputSymbols.flatMap (fun x => (c.code.at x).getD [])).length ≤ s.params.bitCap →
            s.symLen.toNat ≤ s.params.outCap →
            ∃ d e, exec .encode c = .next d ∧ d.errCode = .ok ∧ exec .decode d = .next e ∧ e.errCode = .ok ∧
              e.outLen = s.symLen ∧ e.outputSymbols = s.inputSymbols))

/-! ### Reset -/

/-- 70_reset_and_hazards.md R270: hardware reset, from any state and at power-up, puts every register, flag and table at its
value after reset, leaves nothing pending and irq 0, keeps the constants, and leaves no buffer byte with a value. -/
def Obligations.HardwareResetValues : Prop :=
  ∀ s t : State, (t = s.hardReset ∨ t = State.reset) →
    t.ctrlWord = 0#32 ∧ t.statusWord = 0#32 ∧ t.errCodeWord = 0#32 ∧ t.errInfo = 0#32 ∧ t.symLen = 0#32 ∧
    t.bitLen = 0#32 ∧ t.bitBytes = 0#32 ∧ t.outLen = 0#32 ∧ t.root = 0#9 ∧ t.nleaf = 0#9 ∧
    (∀ x, t.freq.at x = 0#32) ∧ (∀ i k, t.readLoc (.node i k) = 0#32) ∧
    (∀ x, t.readLoc (.codeLen x) = 0#32) ∧ (∀ x k, t.readLoc (.codeBits x k) = 0#32) ∧
    t.pending = none ∧ t.irq = false ∧ t.readLoc .id = 0x48554646#32 ∧
    (t = s.hardReset → t.params = s.params) ∧
    (∀ b j, (t.mem b).get? j = none)

/-- 70_reset_and_hazards.md R271: a reset turn abandons a pending command: no completion record, DONE 0, irq 0, and an
access held at the time is not performed. What the bus does with that access is left open (93 I3); that the host then goes
on, or stops with a fault, is the model's choice (logs 11, 12). -/
def Obligations.ResetAbandonsCommand : Prop :=
  ∀ s : State,
    (s.heldAccess = none → resetTurn s = .next s.hardReset) ∧
    (∀ a, s.heldAccess = some a →
      resetTurn s = .next (s.hardReset.hostAt (s.host.pos + 1)) ∨
      resetTurn s = .fault (.hostBusError (HostAccess.off a) .heldAtReset)) ∧
    (∀ t, resetTurn s = .next t →
      t.pending = none ∧ t.done = false ∧ t.errCode = .ok ∧ t.errSticky = false ∧ t.irq = false)

/-! ### Registers and the bus -/

/-- 10_state.md R31: ID reads 0x4855_4646, ignores writes, and never changes. -/
def Obligations.IdIsConstant : Prop :=
  ∀ (s : State) (v : Word),
    s.access (memRead 0x000#26) = .ok (.data 0x48554646#32, s) ∧
    s.access (memWrite 0x000#26 v) = .ok (.written, s)

/-- 10_state.md R32: CTRL holds IRQ_EN in bit 0, which enables the completion interrupt; its other bits read 0 and ignore
writes; it is 0 at reset and SOFT_RESET keeps it. -/
def Obligations.CtrlHoldsInterruptEnable : Prop :=
  ∀ (s : State) (v : Word),
    (∃ u, s.access (memRead 0x004#26) = .ok (.data u, s) ∧ u.getLsbD 0 = s.irqEn ∧
      ∀ k, 1 ≤ k → u.getLsbD k = false) ∧
    s.access (memWrite 0x004#26 v) = .ok (.written, { s with irqEn := v.getLsbD 0 }) ∧
    s.irq = (s.done && s.irqEn) ∧
    State.reset.ctrlWord = 0#32 ∧ (∀ t, exec .softReset s = .next t → t.ctrlWord = s.ctrlWord)

/-- 10_state.md R33, 46_control.md R221: a read of CMD returns 0 and has no effect; a write makes the word pending, sets BUSY,
clears DONE and does nothing else, whatever the word. -/
def Obligations.CmdWriteIssuesCommand : Prop :=
  ∀ (s : State) (w : Word),
    s.access (memRead 0x008#26) = .ok (.data 0#32, s) ∧
    s.access (memWrite 0x008#26 w) = .ok (.written, { s with pending := some w, done := false }) ∧
    ({ s with pending := some w, done := false } : State).busy = true

/-- 10_state.md R34: the fields of STATUS as read, and the effect of a write: write 1 to clear DONE and ERR_STICKY, and
nothing else. -/
def Obligations.StatusFieldsAndClear : Prop :=
  ∀ (s : State) (v : Word),
    (∃ u, s.access (memRead 0x00C#26) = .ok (.data u, s) ∧ u.getLsbD 0 = s.busy ∧ u.getLsbD 1 = s.done ∧
      u.getLsbD 2 = s.errSticky ∧ u.getLsbD 3 = s.treeValid ∧ u.getLsbD 4 = s.codeValid ∧
      ∀ k, 5 ≤ k → u.getLsbD k = false) ∧
    s.access (memWrite 0x00C#26 v) =
      .ok (.written, { s with done := if v.getLsbD 1 then false else s.done,
                              errSticky := if v.getLsbD 2 then false else s.errSticky }) ∧
    State.reset.statusWord = 0#32

/-- 10_state.md R39, R40: SYM_LEN and BIT_LEN take any 32-bit value and read it back; BIT_BYTES is ceil8(BIT_LEN), and its
value for 0xFFFF_FFFF is 0x2000_0000 and after reset 0. -/
def Obligations.LengthRegistersReadBack : Prop :=
  ∀ (s : State) (v : Word),
    s.access (memWrite 0x018#26 v) = .ok (.written, { s with symLen := v }) ∧
    s.access (memWrite 0x01C#26 v) = .ok (.written, { s with bitLen := v }) ∧
    s.access (memRead 0x018#26) = .ok (.data s.symLen, s) ∧
    s.access (memRead 0x01C#26) = .ok (.data s.bitLen, s) ∧
    (∃ u, s.access (memRead 0x020#26) = .ok (.data u, s) ∧ u.toNat = (s.bitLen.toNat + 7) / 8) ∧
    s.access (memWrite 0x020#26 v) = .ok (.written, s) ∧
    (s.bitLen = 0xFFFFFFFF#32 → s.access (memRead 0x020#26) = .ok (.data 0x20000000#32, s)) ∧
    State.reset.bitBytes = 0#32

/-- 10_state.md R45, 00_scope.md R13: the capacities are within their bounds, their registers show them, and no step changes
them. -/
def Obligations.CapacitiesAreConstant : Prop :=
  ∀ (s : State) (v : Word),
    (∀ b, 4 ≤ s.params.cap b ∧ s.params.cap b ≤ 2 ^ 24 ∧ s.params.cap b % 4 = 0) ∧
    (∃ u, s.access (memRead 0x030#26) = .ok (.data u, s) ∧ u.toNat = s.params.symCap) ∧
    (∃ u, s.access (memRead 0x034#26) = .ok (.data u, s) ∧ u.toNat = s.params.bitCap) ∧
    (∃ u, s.access (memRead 0x038#26) = .ok (.data u, s) ∧ u.toNat = s.params.outCap) ∧
    (∀ off ∈ [0x030#26, 0x034#26, 0x038#26], s.access (memWrite off v) = .ok (.written, s)) ∧
    (∀ t, step s = .next t → t.params = s.params)

/-- 20_memory.md R72, R73, R74, R79, R80: an access gets a bus error exactly when it is not one whole 32-bit word, is
misaligned, or reaches an unmapped offset. That a host statement that makes it, not held, stops the machine with a fault of
the host agent (60_exceptions.md R250) is the model's choice (log 8, DESIGN CHOICE). -/
def Obligations.BusErrorsExactly : Prop :=
  ∀ (s : State) (a : HostAccess),
    ((∃ e, s.access a = .error e) ↔ ¬(a.wf = true ∧ mappedOffset s.params (HostAccess.off a).toNat)) ∧
    (∀ e stmt, s.access a = .error e → s.held a = false → s.host.code[s.host.pos]? = some stmt →
      stmtAccess stmt = some a → hostTurn s = .fault (.hostBusError (HostAccess.off a) e))

/-- 20_memory.md R75, R81: no read changes state, and a write to a read-only location is accepted and ignored. -/
def Obligations.ReadsAndReadOnlyWritesChangeNothing : Prop :=
  ∀ (s t : State) (r : BusResponse),
    (∀ off width, s.access (.read off width) = .ok (r, t) → t = s) ∧
    (∀ off v l, accessLoc s.params (memWrite off v) = .ok l → l.readOnly = true →
      s.access (memWrite off v) = .ok (.written, s))

/-- 10_state.md R46, R47, R49, R54, 20_memory.md R81: no host access changes a table, a validity bit, a result register or
SYM_OUT. -/
def Obligations.HostCannotWriteTables : Prop :=
  ∀ (s t : State) (a : HostAccess) (r : BusResponse), s.access a = .ok (r, t) →
    t.freq = s.freq ∧ t.nodes = s.nodes ∧ t.code = s.code ∧ t.treeValid = s.treeValid ∧ t.codeValid = s.codeValid ∧
    t.root = s.root ∧ t.nleaf = s.nleaf ∧ t.outLen = s.outLen ∧ t.errCode = s.errCode ∧ t.errInfo = s.errInfo ∧
    t.symOut = s.symOut ∧ t.params = s.params

/-- 20_memory.md R76: the byte lanes of a window word are big-endian, and the windows at 0x100_0000, 0x200_0000 and
0x300_0000 read the words of SYM_IN, BIT_BUF and SYM_OUT; a write of `v` to SYM_IN or BIT_BUF sets the four bytes of its
word and leaves every other byte of the memory alone, and the word then reads `v`; a write to SYM_OUT is ignored. -/
def Obligations.BufferWordsAreBigEndian : Prop :=
  ∀ (s : State) (m : Nat) (v : Word),
    (∀ b, 4 * m < s.params.cap b → ∀ k < 4, ∀ i < 8,
      (s.readLoc (.buffer b m)).getLsbD (24 - 8 * k + i) = (s.readByte b (4 * m + k)).getLsbD i) ∧
    (4 * m < s.params.symCap → s.access (memRead (BitVec.ofNat 26 (0x1000000 + 4 * m))) =
      .ok (.data (s.readLoc (.buffer .symIn m)), s)) ∧
    (4 * m < s.params.bitCap → s.access (memRead (BitVec.ofNat 26 (0x2000000 + 4 * m))) =
      .ok (.data (s.readLoc (.buffer .bitBuf m)), s)) ∧
    (4 * m < s.params.outCap → s.access (memRead (BitVec.ofNat 26 (0x3000000 + 4 * m))) =
      .ok (.data (s.readLoc (.buffer .symOut m)), s)) ∧
    (4 * m < s.params.symCap →
      ∃ t : State, s.access (memWrite (BitVec.ofNat 26 (0x1000000 + 4 * m)) v) = .ok (.written, t) ∧
        (∀ k < 4, ∀ i < 8, (t.readByte .symIn (4 * m + k)).getLsbD i = v.getLsbD (24 - 8 * k + i)) ∧
        (∀ j, j < 4 * m ∨ 4 * m + 4 ≤ j → t.readByte .symIn j = s.readByte .symIn j) ∧
        t.readLoc (.buffer .symIn m) = v ∧ t = { s with symIn := t.symIn }) ∧
    (4 * m < s.params.bitCap →
      ∃ t : State, s.access (memWrite (BitVec.ofNat 26 (0x2000000 + 4 * m)) v) = .ok (.written, t) ∧
        (∀ k < 4, ∀ i < 8, (t.readByte .bitBuf (4 * m + k)).getLsbD i = v.getLsbD (24 - 8 * k + i)) ∧
        (∀ j, j < 4 * m ∨ 4 * m + 4 ≤ j → t.readByte .bitBuf j = s.readByte .bitBuf j) ∧
        t.readLoc (.buffer .bitBuf m) = v ∧ t = { s with bitBuf := t.bitBuf }) ∧
    (4 * m < s.params.outCap →
      s.access (memWrite (BitVec.ofNat 26 (0x3000000 + 4 * m)) v) = .ok (.written, s))

/-- 20_memory.md R77: stream bit p is bit 31 - (p mod 32) of BIT_BUF window word p div 32. -/
def Obligations.StreamBitsReadInWindowOrder : Prop :=
  ∀ (s : State) (p : Nat), s.streamBit p = (s.readLoc (.buffer .bitBuf (p / 32))).getLsbD (31 - p % 32)

/-- 10_state.md R50, R51, 20_memory.md R78: the code windows show a codeword's length and its bits from bit 31 of word 0
down, 0 past its end, and 0 where there is no valid codeword; the windows stand at 0x800 and 0x4000 and ignore writes. -/
def Obligations.CodeWindowsShowCodewords : Prop :=
  ∀ (s : State) (x : Byte),
    (∀ v, s.access (memRead (BitVec.ofNat 26 (0x800 + 4 * x.toNat))) = .ok (.data (s.readLoc (.codeLen x)), s) ∧
      s.access (memWrite (BitVec.ofNat 26 (0x800 + 4 * x.toNat)) v) = .ok (.written, s)) ∧
    (∀ (k : BitVec 3) v,
      s.access (memRead (BitVec.ofNat 26 (0x4000 + 32 * x.toNat + 4 * k.toNat))) =
        .ok (.data (s.readLoc (.codeBits x k)), s) ∧
      s.access (memWrite (BitVec.ofNat 26 (0x4000 + 32 * x.toNat + 4 * k.toNat)) v) = .ok (.written, s)) ∧
    (∀ w, s.codeValid = true → s.code.at x = some w → w.length ≤ 255 →
      (s.readLoc (.codeLen x)).toNat = w.length ∧
      ∀ (k : BitVec 3) (t : Nat), t < 32 →
        (s.readLoc (.codeBits x k)).getLsbD (31 - t) = w.getD (32 * k.toNat + t) false) ∧
    (s.codeValid = false ∨ s.code.at x = none →
      s.readLoc (.codeLen x) = 0#32 ∧ ∀ k, s.readLoc (.codeBits x k) = 0#32)

/-- 10_state.md R48: the four words of a node in the node window at 0x1000, 0 for entries that hold no value, and writes
ignored. -/
def Obligations.NodeWindowShowsNodes : Prop :=
  ∀ (s : State) (i : NodeIndex),
    (∀ (k : BitVec 2) v,
      s.access (memRead (BitVec.ofNat 26 (0x1000 + 16 * i.toNat + 4 * k.toNat))) =
        .ok (.data (s.readLoc (.node i k)), s) ∧
      s.access (memWrite (BitVec.ofNat 26 (0x1000 + 16 * i.toNat + 4 * k.toNat)) v) = .ok (.written, s)) ∧
    (∀ x f, s.nodeAt i = some (.leaf x f) →
      s.readLoc (.node i 0#2) = 0b11#2 ++ 0#22 ++ x ∧ s.readLoc (.node i 1#2) = 0#32 ∧
      s.readLoc (.node i 2#2) = f ∧ s.readLoc (.node i 3#2) = 0#32) ∧
    (∀ f l r, s.nodeAt i = some (.internal f l r) →
      s.readLoc (.node i 0#2) = 0x40000000#32 ∧ s.readLoc (.node i 1#2) = 0#7 ++ r ++ 0#7 ++ l ∧
      s.readLoc (.node i 2#2) = f ∧ s.readLoc (.node i 3#2) = 0#32) ∧
    (s.treeValid = false ∨ 2 * s.nleaf.toNat - 1 ≤ i.toNat → ∀ k, s.readLoc (.node i k) = 0#32)

/-- 20_memory.md R83: while BUSY = 1 a read of STATUS, by whichever statement, is performed at once and shows BUSY = 1, and
every other access, even one that will get a bus error, is held and changes nothing of HuffCore. The model's choices here:
a partial read at STATUS counts as another access (log 21), a held access is marked in the host's own state (log 7), and
an EXPECT of another value is a fault of the host program (log 17), all DESIGN CHOICE. -/
def Obligations.AccessesHeldWhileBusy : Prop :=
  ∀ (s : State) (stmt : HostStmt) (a : HostAccess), s.busy = true → s.host.code[s.host.pos]? = some stmt →
    stmtAccess stmt = some a →
    (a ≠ memRead 0x00C#26 → hostTurn s = .next { s with host := { s.host with waiting := true } }) ∧
    (a = memRead 0x00C#26 → s.statusWord.getLsbD 0 = true ∧ s.receives stmt s.statusWord (hostTurn s))

/-- 10_state.md R57, 60_exceptions.md R252: irq is DONE and IRQ_EN at every instant: raised by every completion when enabled,
dropped by writing 1 to STATUS bit 1, by the next CMD write, by clearing IRQ_EN (which keeps DONE) and by reset, and
raised at once by setting IRQ_EN while DONE = 1. -/
def Obligations.InterruptFollowsDoneAndEnable : Prop :=
  ∀ (s : State) (v w : Word),
    s.irq = (s.done && s.irqEn) ∧
    (∀ t, perform w s = .next t → t.irq = s.irqEn) ∧
    (∀ t, s.access (memWrite 0x00C#26 v) = .ok (.written, t) → v.getLsbD 1 = true → t.irq = false) ∧
    (∀ t, s.access (memWrite 0x008#26 w) = .ok (.written, t) → t.irq = false) ∧
    (∀ t, s.access (memWrite 0x004#26 v) = .ok (.written, t) →
      t.irq = (s.done && v.getLsbD 0) ∧ t.done = s.done) ∧
    s.hardReset.irq = false

/-! ### Whole-machine rules -/

/-- 10_state.md R35, 20_memory.md R83, R87: in every step, only a host write to CMD starts a command, only the engine or a
reset ends it, and a pending word never changes. -/
def Obligations.OnlyCmdWritesStartCommands : Prop :=
  ∀ s t : State, step s = .next t →
    (s.busy = false → t.busy = true →
      s.nextTurn = .host ∧ ∃ stmt w, s.host.code[s.host.pos]? = some stmt ∧
        stmtAccess stmt = some (memWrite 0x008#26 w) ∧ t.pending = some w ∧ t.done = false) ∧
    (s.busy = true → t.busy = false → s.nextTurn = .engine ∨ s.nextTurn = .reset) ∧
    (s.busy = true → t.busy = true → t.pending = s.pending)

/-- 10_state.md R38: in every step, TREE_VALID is set only by a successful TREE_BUILD and cleared only by SOFT_RESET and
reset; CODE_VALID is set only by a successful CODE_DERIVE and cleared only by a successful TREE_BUILD, SOFT_RESET and
reset; and these commands do set and clear them. -/
def Obligations.ValidityBitsChangeOnlyByTheirCommands : Prop :=
  (∀ s t : State, step s = .next t →
    (s.treeValid = false → t.treeValid = true →
      s.nextTurn = .engine ∧ s.pending = some (Sys2Proof.encode .treeBuild) ∧ t.errCode = .ok) ∧
    (s.treeValid = true → t.treeValid = false →
      s.nextTurn = .reset ∨ (s.nextTurn = .engine ∧ s.pending = some (Sys2Proof.encode .softReset))) ∧
    (s.codeValid = false → t.codeValid = true →
      s.nextTurn = .engine ∧ s.pending = some (Sys2Proof.encode .codeDerive) ∧ t.errCode = .ok) ∧
    (s.codeValid = true → t.codeValid = false →
      s.nextTurn = .reset ∨
      (s.nextTurn = .engine ∧ (s.pending = some (Sys2Proof.encode .softReset) ∨
        (s.pending = some (Sys2Proof.encode .treeBuild) ∧ t.errCode = .ok))))) ∧
  (∀ s t : State,
    (exec .treeBuild s = .next t → t.errCode = .ok → t.treeValid = true ∧ t.codeValid = false) ∧
    (exec .codeDerive s = .next t → t.errCode = .ok → t.codeValid = true) ∧
    (exec .softReset s = .next t → t.treeValid = false ∧ t.codeValid = false)) ∧
  (∀ s : State, s.hardReset.treeValid = false ∧ s.hardReset.codeValid = false) ∧
  State.reset.treeValid = false ∧ State.reset.codeValid = false

/-- 10_state.md R37: in every step, ERR_STICKY is cleared only by a write of 1 to bit 2 of STATUS, by SOFT_RESET and by
reset, which do clear it; every completion with an error sets it. -/
def Obligations.StickyErrorIsNotLost : Prop :=
  (∀ s t : State, step s = .next t → s.errSticky = true → t.errSticky = false →
    s.nextTurn = .reset ∨
    (s.nextTurn = .engine ∧ s.pending = some (Sys2Proof.encode .softReset)) ∨
    (s.nextTurn = .host ∧ ∃ stmt v, s.host.code[s.host.pos]? = some stmt ∧
      stmtAccess stmt = some (memWrite 0x00C#26 v) ∧ v.getLsbD 2 = true)) ∧
  (∀ (s t : State) (w : Word), perform w s = .next t → t.errCode ≠ .ok → t.errSticky = true) ∧
  (∀ (s t : State) (v : Word), s.access (memWrite 0x00C#26 v) = .ok (.written, t) → v.getLsbD 2 = true →
    t.errSticky = false) ∧
  (∀ s t : State, exec .softReset s = .next t → t.errSticky = false) ∧
  (∀ s : State, s.hardReset.errSticky = false) ∧ State.reset.errSticky = false

/-- 30_encoding.md R108, 46_control.md R221: the pseudo-instruction `C NAME`, executed while no command is pending, makes the
command's word pending and moves the host on. -/
def Obligations.CommandStatementIssuesCommand : Prop :=
  ∀ (s : State) (i : Instr), s.busy = false → s.host.code[s.host.pos]? = (expandC i)[0]? →
    hostTurn s = .next ((s.issue (Sys2Proof.encode i)).hostAt (s.host.pos + 1)) ∧ (expandC i).length = 1

/-! ### Result registers and held accesses as the host sees them -/

/-- 10_state.md R41 to R44, R46: what the host reads of the exception and result registers and of FREQ: ERR_CODE is the code
of R240 with bits 31 to 8 zero, ERR_INFO and OUT_LEN their words, ROOT and NLEAF 9 bits with bits 31 to 9 zero, and the
window at 0x400 the counts; writes there are ignored. -/
def Obligations.ResultRegistersShowTheirValues : Prop :=
  ∀ (s : State) (v : Word),
    (∃ u, s.access (memRead 0x010#26) = .ok (.data u, s) ∧ (∀ k < 8, u.getLsbD k = s.errCode.toByte.getLsbD k) ∧
      ∀ k, 8 ≤ k → u.getLsbD k = false) ∧
    s.access (memRead 0x014#26) = .ok (.data s.errInfo, s) ∧
    s.access (memRead 0x024#26) = .ok (.data s.outLen, s) ∧
    (∃ u, s.access (memRead 0x028#26) = .ok (.data u, s) ∧ (∀ k < 9, u.getLsbD k = s.root.getLsbD k) ∧
      ∀ k, 9 ≤ k → u.getLsbD k = false) ∧
    (∃ u, s.access (memRead 0x02C#26) = .ok (.data u, s) ∧ (∀ k < 9, u.getLsbD k = s.nleaf.getLsbD k) ∧
      ∀ k, 9 ≤ k → u.getLsbD k = false) ∧
    (∀ x : Byte, s.access (memRead (BitVec.ofNat 26 (0x400 + 4 * x.toNat))) = .ok (.data (s.freq.at x), s) ∧
      s.access (memWrite (BitVec.ofNat 26 (0x400 + 4 * x.toNat)) v) = .ok (.written, s)) ∧
    (∀ off ∈ [0x010#26, 0x014#26, 0x024#26, 0x028#26, 0x02C#26], s.access (memWrite off v) = .ok (.written, s))

/-- 20_memory.md R83: an access that the host has before it while BUSY = 1 is performed against the state after the
completion, and lifting the hold takes the engine's completion step alone. That a bus error then stops the machine is the
model's choice (log 8), and so is the fault of an EXPECT (log 17). -/
def Obligations.HeldAccessPerformedAfterCompletion : Prop :=
  ∀ (s t : State) (stmt : HostStmt) (a : HostAccess), s.busy = true → s.host.code[s.host.pos]? = some stmt →
    stmtAccess stmt = some a → engineTurn s = .next t →
    t.host = s.host ∧ t.busy = false ∧
    (∀ u, t.access a = .ok (.written, u) → hostTurn t = .next (u.hostAt (s.host.pos + 1))) ∧
    (∀ v u, t.access a = .ok (.data v, u) → u = t ∧ t.receives stmt v (hostTurn t)) ∧
    (∀ e, t.access a = .error e → hostTurn t = .fault (.hostBusError (HostAccess.off a) e))
end

