-- ==== Sys2Proof/Laws/State.lean ====
section
/-! SUPPORT. One lemma per field per update of State, and what the reads of State give after each update. -/

namespace Sys2Proof.Machine

variable (s : State)

/-! ### issue -/

@[simp] theorem State.issue_params (w : Word) : (s.issue w).params = s.params := rfl
@[simp] theorem State.issue_irqEn (w : Word) : (s.issue w).irqEn = s.irqEn := rfl
@[simp] theorem State.issue_done (w : Word) : (s.issue w).done = false := rfl
@[simp] theorem State.issue_errSticky (w : Word) : (s.issue w).errSticky = s.errSticky := rfl
@[simp] theorem State.issue_treeValid (w : Word) : (s.issue w).treeValid = s.treeValid := rfl
@[simp] theorem State.issue_codeValid (w : Word) : (s.issue w).codeValid = s.codeValid := rfl
@[simp] theorem State.issue_errCode (w : Word) : (s.issue w).errCode = s.errCode := rfl
@[simp] theorem State.issue_errInfo (w : Word) : (s.issue w).errInfo = s.errInfo := rfl
@[simp] theorem State.issue_symLen (w : Word) : (s.issue w).symLen = s.symLen := rfl
@[simp] theorem State.issue_bitLen (w : Word) : (s.issue w).bitLen = s.bitLen := rfl
@[simp] theorem State.issue_outLen (w : Word) : (s.issue w).outLen = s.outLen := rfl
@[simp] theorem State.issue_root (w : Word) : (s.issue w).root = s.root := rfl
@[simp] theorem State.issue_nleaf (w : Word) : (s.issue w).nleaf = s.nleaf := rfl
@[simp] theorem State.issue_freq (w : Word) : (s.issue w).freq = s.freq := rfl
@[simp] theorem State.issue_nodes (w : Word) : (s.issue w).nodes = s.nodes := rfl
@[simp] theorem State.issue_code (w : Word) : (s.issue w).code = s.code := rfl
@[simp] theorem State.issue_symIn (w : Word) : (s.issue w).symIn = s.symIn := rfl
@[simp] theorem State.issue_bitBuf (w : Word) : (s.issue w).bitBuf = s.bitBuf := rfl
@[simp] theorem State.issue_symOut (w : Word) : (s.issue w).symOut = s.symOut := rfl
@[simp] theorem State.issue_pending (w : Word) : (s.issue w).pending = some w := rfl
@[simp] theorem State.issue_epoch (w : Word) : (s.issue w).epoch = s.epoch := rfl
@[simp] theorem State.issue_host (w : Word) : (s.issue w).host = s.host := rfl
@[simp] theorem State.issue_schedule (w : Word) : (s.issue w).schedule = s.schedule := rfl

/-! ### complete -/

@[simp] theorem State.complete_params (c : ErrCode) (i : Word) : (s.complete c i).params = s.params := rfl
@[simp] theorem State.complete_irqEn (c : ErrCode) (i : Word) : (s.complete c i).irqEn = s.irqEn := rfl
@[simp] theorem State.complete_done (c : ErrCode) (i : Word) : (s.complete c i).done = true := rfl
@[simp] theorem State.complete_errSticky (c : ErrCode) (i : Word) : (s.complete c i).errSticky = (s.errSticky || c != .ok) := rfl
@[simp] theorem State.complete_treeValid (c : ErrCode) (i : Word) : (s.complete c i).treeValid = s.treeValid := rfl
@[simp] theorem State.complete_codeValid (c : ErrCode) (i : Word) : (s.complete c i).codeValid = s.codeValid := rfl
@[simp] theorem State.complete_errCode (c : ErrCode) (i : Word) : (s.complete c i).errCode = c := rfl
@[simp] theorem State.complete_errInfo (c : ErrCode) (i : Word) : (s.complete c i).errInfo = i := rfl
@[simp] theorem State.complete_symLen (c : ErrCode) (i : Word) : (s.complete c i).symLen = s.symLen := rfl
@[simp] theorem State.complete_bitLen (c : ErrCode) (i : Word) : (s.complete c i).bitLen = s.bitLen := rfl
@[simp] theorem State.complete_outLen (c : ErrCode) (i : Word) : (s.complete c i).outLen = s.outLen := rfl
@[simp] theorem State.complete_root (c : ErrCode) (i : Word) : (s.complete c i).root = s.root := rfl
@[simp] theorem State.complete_nleaf (c : ErrCode) (i : Word) : (s.complete c i).nleaf = s.nleaf := rfl
@[simp] theorem State.complete_freq (c : ErrCode) (i : Word) : (s.complete c i).freq = s.freq := rfl
@[simp] theorem State.complete_nodes (c : ErrCode) (i : Word) : (s.complete c i).nodes = s.nodes := rfl
@[simp] theorem State.complete_code (c : ErrCode) (i : Word) : (s.complete c i).code = s.code := rfl
@[simp] theorem State.complete_symIn (c : ErrCode) (i : Word) : (s.complete c i).symIn = s.symIn := rfl
@[simp] theorem State.complete_bitBuf (c : ErrCode) (i : Word) : (s.complete c i).bitBuf = s.bitBuf := rfl
@[simp] theorem State.complete_symOut (c : ErrCode) (i : Word) : (s.complete c i).symOut = s.symOut := rfl
@[simp] theorem State.complete_pending (c : ErrCode) (i : Word) : (s.complete c i).pending = none := rfl
@[simp] theorem State.complete_epoch (c : ErrCode) (i : Word) : (s.complete c i).epoch = s.epoch := rfl
@[simp] theorem State.complete_host (c : ErrCode) (i : Word) : (s.complete c i).host = s.host := rfl
@[simp] theorem State.complete_schedule (c : ErrCode) (i : Word) : (s.complete c i).schedule = s.schedule := rfl

/-! ### writeStatus -/

@[simp] theorem State.writeStatus_params (v : Word) : (s.writeStatus v).params = s.params := rfl
@[simp] theorem State.writeStatus_irqEn (v : Word) : (s.writeStatus v).irqEn = s.irqEn := rfl
@[simp] theorem State.writeStatus_done (v : Word) : (s.writeStatus v).done = (s.done && !v.getLsbD 1) := rfl
@[simp] theorem State.writeStatus_errSticky (v : Word) : (s.writeStatus v).errSticky = (s.errSticky && !v.getLsbD 2) := rfl
@[simp] theorem State.writeStatus_treeValid (v : Word) : (s.writeStatus v).treeValid = s.treeValid := rfl
@[simp] theorem State.writeStatus_codeValid (v : Word) : (s.writeStatus v).codeValid = s.codeValid := rfl
@[simp] theorem State.writeStatus_errCode (v : Word) : (s.writeStatus v).errCode = s.errCode := rfl
@[simp] theorem State.writeStatus_errInfo (v : Word) : (s.writeStatus v).errInfo = s.errInfo := rfl
@[simp] theorem State.writeStatus_symLen (v : Word) : (s.writeStatus v).symLen = s.symLen := rfl
@[simp] theorem State.writeStatus_bitLen (v : Word) : (s.writeStatus v).bitLen = s.bitLen := rfl
@[simp] theorem State.writeStatus_outLen (v : Word) : (s.writeStatus v).outLen = s.outLen := rfl
@[simp] theorem State.writeStatus_root (v : Word) : (s.writeStatus v).root = s.root := rfl
@[simp] theorem State.writeStatus_nleaf (v : Word) : (s.writeStatus v).nleaf = s.nleaf := rfl
@[simp] theorem State.writeStatus_freq (v : Word) : (s.writeStatus v).freq = s.freq := rfl
@[simp] theorem State.writeStatus_nodes (v : Word) : (s.writeStatus v).nodes = s.nodes := rfl
@[simp] theorem State.writeStatus_code (v : Word) : (s.writeStatus v).code = s.code := rfl
@[simp] theorem State.writeStatus_symIn (v : Word) : (s.writeStatus v).symIn = s.symIn := rfl
@[simp] theorem State.writeStatus_bitBuf (v : Word) : (s.writeStatus v).bitBuf = s.bitBuf := rfl
@[simp] theorem State.writeStatus_symOut (v : Word) : (s.writeStatus v).symOut = s.symOut := rfl
@[simp] theorem State.writeStatus_pending (v : Word) : (s.writeStatus v).pending = s.pending := rfl
@[simp] theorem State.writeStatus_epoch (v : Word) : (s.writeStatus v).epoch = s.epoch := rfl
@[simp] theorem State.writeStatus_host (v : Word) : (s.writeStatus v).host = s.host := rfl
@[simp] theorem State.writeStatus_schedule (v : Word) : (s.writeStatus v).schedule = s.schedule := rfl

/-! ### writeCtrl -/

@[simp] theorem State.writeCtrl_params (v : Word) : (s.writeCtrl v).params = s.params := rfl
@[simp] theorem State.writeCtrl_irqEn (v : Word) : (s.writeCtrl v).irqEn = v.getLsbD 0 := rfl
@[simp] theorem State.writeCtrl_done (v : Word) : (s.writeCtrl v).done = s.done := rfl
@[simp] theorem State.writeCtrl_errSticky (v : Word) : (s.writeCtrl v).errSticky = s.errSticky := rfl
@[simp] theorem State.writeCtrl_treeValid (v : Word) : (s.writeCtrl v).treeValid = s.treeValid := rfl
@[simp] theorem State.writeCtrl_codeValid (v : Word) : (s.writeCtrl v).codeValid = s.codeValid := rfl
@[simp] theorem State.writeCtrl_errCode (v : Word) : (s.writeCtrl v).errCode = s.errCode := rfl
@[simp] theorem State.writeCtrl_errInfo (v : Word) : (s.writeCtrl v).errInfo = s.errInfo := rfl
@[simp] theorem State.writeCtrl_symLen (v : Word) : (s.writeCtrl v).symLen = s.symLen := rfl
@[simp] theorem State.writeCtrl_bitLen (v : Word) : (s.writeCtrl v).bitLen = s.bitLen := rfl
@[simp] theorem State.writeCtrl_outLen (v : Word) : (s.writeCtrl v).outLen = s.outLen := rfl
@[simp] theorem State.writeCtrl_root (v : Word) : (s.writeCtrl v).root = s.root := rfl
@[simp] theorem State.writeCtrl_nleaf (v : Word) : (s.writeCtrl v).nleaf = s.nleaf := rfl
@[simp] theorem State.writeCtrl_freq (v : Word) : (s.writeCtrl v).freq = s.freq := rfl
@[simp] theorem State.writeCtrl_nodes (v : Word) : (s.writeCtrl v).nodes = s.nodes := rfl
@[simp] theorem State.writeCtrl_code (v : Word) : (s.writeCtrl v).code = s.code := rfl
@[simp] theorem State.writeCtrl_symIn (v : Word) : (s.writeCtrl v).symIn = s.symIn := rfl
@[simp] theorem State.writeCtrl_bitBuf (v : Word) : (s.writeCtrl v).bitBuf = s.bitBuf := rfl
@[simp] theorem State.writeCtrl_symOut (v : Word) : (s.writeCtrl v).symOut = s.symOut := rfl
@[simp] theorem State.writeCtrl_pending (v : Word) : (s.writeCtrl v).pending = s.pending := rfl
@[simp] theorem State.writeCtrl_epoch (v : Word) : (s.writeCtrl v).epoch = s.epoch := rfl
@[simp] theorem State.writeCtrl_host (v : Word) : (s.writeCtrl v).host = s.host := rfl
@[simp] theorem State.writeCtrl_schedule (v : Word) : (s.writeCtrl v).schedule = s.schedule := rfl

/-! ### emptied -/

@[simp] theorem State.emptied_params : s.emptied.params = s.params := rfl
@[simp] theorem State.emptied_irqEn : s.emptied.irqEn = s.irqEn := rfl
@[simp] theorem State.emptied_done : s.emptied.done = s.done := rfl
@[simp] theorem State.emptied_errSticky : s.emptied.errSticky = false := rfl
@[simp] theorem State.emptied_treeValid : s.emptied.treeValid = false := rfl
@[simp] theorem State.emptied_codeValid : s.emptied.codeValid = false := rfl
@[simp] theorem State.emptied_errCode : s.emptied.errCode = s.errCode := rfl
@[simp] theorem State.emptied_errInfo : s.emptied.errInfo = s.errInfo := rfl
@[simp] theorem State.emptied_symLen : s.emptied.symLen = 0#32 := rfl
@[simp] theorem State.emptied_bitLen : s.emptied.bitLen = 0#32 := rfl
@[simp] theorem State.emptied_outLen : s.emptied.outLen = 0#32 := rfl
@[simp] theorem State.emptied_root : s.emptied.root = 0#9 := rfl
@[simp] theorem State.emptied_nleaf : s.emptied.nleaf = 0#9 := rfl
@[simp] theorem State.emptied_freq : s.emptied.freq = FreqTable.empty := rfl
@[simp] theorem State.emptied_nodes : s.emptied.nodes = [] := rfl
@[simp] theorem State.emptied_code : s.emptied.code = CodeTable.empty := rfl
@[simp] theorem State.emptied_symIn : s.emptied.symIn = s.symIn := rfl
@[simp] theorem State.emptied_bitBuf : s.emptied.bitBuf = s.bitBuf := rfl
@[simp] theorem State.emptied_symOut : s.emptied.symOut = s.symOut := rfl
@[simp] theorem State.emptied_pending : s.emptied.pending = s.pending := rfl
@[simp] theorem State.emptied_epoch : s.emptied.epoch = s.epoch := rfl
@[simp] theorem State.emptied_host : s.emptied.host = s.host := rfl
@[simp] theorem State.emptied_schedule : s.emptied.schedule = s.schedule := rfl

/-! ### withTree -/

@[simp] theorem State.withTree_params (N : List Node) (n : Nat) : (s.withTree N n).params = s.params := rfl
@[simp] theorem State.withTree_irqEn (N : List Node) (n : Nat) : (s.withTree N n).irqEn = s.irqEn := rfl
@[simp] theorem State.withTree_done (N : List Node) (n : Nat) : (s.withTree N n).done = s.done := rfl
@[simp] theorem State.withTree_errSticky (N : List Node) (n : Nat) : (s.withTree N n).errSticky = s.errSticky := rfl
@[simp] theorem State.withTree_treeValid (N : List Node) (n : Nat) : (s.withTree N n).treeValid = true := rfl
@[simp] theorem State.withTree_codeValid (N : List Node) (n : Nat) : (s.withTree N n).codeValid = false := rfl
@[simp] theorem State.withTree_errCode (N : List Node) (n : Nat) : (s.withTree N n).errCode = s.errCode := rfl
@[simp] theorem State.withTree_errInfo (N : List Node) (n : Nat) : (s.withTree N n).errInfo = s.errInfo := rfl
@[simp] theorem State.withTree_symLen (N : List Node) (n : Nat) : (s.withTree N n).symLen = s.symLen := rfl
@[simp] theorem State.withTree_bitLen (N : List Node) (n : Nat) : (s.withTree N n).bitLen = s.bitLen := rfl
@[simp] theorem State.withTree_outLen (N : List Node) (n : Nat) : (s.withTree N n).outLen = s.outLen := rfl
@[simp] theorem State.withTree_root (N : List Node) (n : Nat) : (s.withTree N n).root = BitVec.ofNat 9 (2 * n - 2) := rfl
@[simp] theorem State.withTree_nleaf (N : List Node) (n : Nat) : (s.withTree N n).nleaf = BitVec.ofNat 9 n := rfl
@[simp] theorem State.withTree_freq (N : List Node) (n : Nat) : (s.withTree N n).freq = s.freq := rfl
@[simp] theorem State.withTree_nodes (N : List Node) (n : Nat) : (s.withTree N n).nodes = N := rfl
@[simp] theorem State.withTree_code (N : List Node) (n : Nat) : (s.withTree N n).code = s.code := rfl
@[simp] theorem State.withTree_symIn (N : List Node) (n : Nat) : (s.withTree N n).symIn = s.symIn := rfl
@[simp] theorem State.withTree_bitBuf (N : List Node) (n : Nat) : (s.withTree N n).bitBuf = s.bitBuf := rfl
@[simp] theorem State.withTree_symOut (N : List Node) (n : Nat) : (s.withTree N n).symOut = s.symOut := rfl
@[simp] theorem State.withTree_pending (N : List Node) (n : Nat) : (s.withTree N n).pending = s.pending := rfl
@[simp] theorem State.withTree_epoch (N : List Node) (n : Nat) : (s.withTree N n).epoch = s.epoch := rfl
@[simp] theorem State.withTree_host (N : List Node) (n : Nat) : (s.withTree N n).host = s.host := rfl
@[simp] theorem State.withTree_schedule (N : List Node) (n : Nat) : (s.withTree N n).schedule = s.schedule := rfl

/-! ### withCode -/

@[simp] theorem State.withCode_params (C : CodeTable) : (s.withCode C).params = s.params := rfl
@[simp] theorem State.withCode_irqEn (C : CodeTable) : (s.withCode C).irqEn = s.irqEn := rfl
@[simp] theorem State.withCode_done (C : CodeTable) : (s.withCode C).done = s.done := rfl
@[simp] theorem State.withCode_errSticky (C : CodeTable) : (s.withCode C).errSticky = s.errSticky := rfl
@[simp] theorem State.withCode_treeValid (C : CodeTable) : (s.withCode C).treeValid = s.treeValid := rfl
@[simp] theorem State.withCode_codeValid (C : CodeTable) : (s.withCode C).codeValid = true := rfl
@[simp] theorem State.withCode_errCode (C : CodeTable) : (s.withCode C).errCode = s.errCode := rfl
@[simp] theorem State.withCode_errInfo (C : CodeTable) : (s.withCode C).errInfo = s.errInfo := rfl
@[simp] theorem State.withCode_symLen (C : CodeTable) : (s.withCode C).symLen = s.symLen := rfl
@[simp] theorem State.withCode_bitLen (C : CodeTable) : (s.withCode C).bitLen = s.bitLen := rfl
@[simp] theorem State.withCode_outLen (C : CodeTable) : (s.withCode C).outLen = s.outLen := rfl
@[simp] theorem State.withCode_root (C : CodeTable) : (s.withCode C).root = s.root := rfl
@[simp] theorem State.withCode_nleaf (C : CodeTable) : (s.withCode C).nleaf = s.nleaf := rfl
@[simp] theorem State.withCode_freq (C : CodeTable) : (s.withCode C).freq = s.freq := rfl
@[simp] theorem State.withCode_nodes (C : CodeTable) : (s.withCode C).nodes = s.nodes := rfl
@[simp] theorem State.withCode_code (C : CodeTable) : (s.withCode C).code = C := rfl
@[simp] theorem State.withCode_symIn (C : CodeTable) : (s.withCode C).symIn = s.symIn := rfl
@[simp] theorem State.withCode_bitBuf (C : CodeTable) : (s.withCode C).bitBuf = s.bitBuf := rfl
@[simp] theorem State.withCode_symOut (C : CodeTable) : (s.withCode C).symOut = s.symOut := rfl
@[simp] theorem State.withCode_pending (C : CodeTable) : (s.withCode C).pending = s.pending := rfl
@[simp] theorem State.withCode_epoch (C : CodeTable) : (s.withCode C).epoch = s.epoch := rfl
@[simp] theorem State.withCode_host (C : CodeTable) : (s.withCode C).host = s.host := rfl
@[simp] theorem State.withCode_schedule (C : CodeTable) : (s.withCode C).schedule = s.schedule := rfl

/-! ### withStream -/

@[simp] theorem State.withStream_params (b : BitSeq) (n : Nat) : (s.withStream b n).params = s.params := rfl
@[simp] theorem State.withStream_irqEn (b : BitSeq) (n : Nat) : (s.withStream b n).irqEn = s.irqEn := rfl
@[simp] theorem State.withStream_done (b : BitSeq) (n : Nat) : (s.withStream b n).done = s.done := rfl
@[simp] theorem State.withStream_errSticky (b : BitSeq) (n : Nat) : (s.withStream b n).errSticky = s.errSticky := rfl
@[simp] theorem State.withStream_treeValid (b : BitSeq) (n : Nat) : (s.withStream b n).treeValid = s.treeValid := rfl
@[simp] theorem State.withStream_codeValid (b : BitSeq) (n : Nat) : (s.withStream b n).codeValid = s.codeValid := rfl
@[simp] theorem State.withStream_errCode (b : BitSeq) (n : Nat) : (s.withStream b n).errCode = s.errCode := rfl
@[simp] theorem State.withStream_errInfo (b : BitSeq) (n : Nat) : (s.withStream b n).errInfo = s.errInfo := rfl
@[simp] theorem State.withStream_symLen (b : BitSeq) (n : Nat) : (s.withStream b n).symLen = s.symLen := rfl
@[simp] theorem State.withStream_bitLen (b : BitSeq) (n : Nat) : (s.withStream b n).bitLen = BitVec.ofNat 32 n := rfl
@[simp] theorem State.withStream_outLen (b : BitSeq) (n : Nat) : (s.withStream b n).outLen = s.outLen := rfl
@[simp] theorem State.withStream_root (b : BitSeq) (n : Nat) : (s.withStream b n).root = s.root := rfl
@[simp] theorem State.withStream_nleaf (b : BitSeq) (n : Nat) : (s.withStream b n).nleaf = s.nleaf := rfl
@[simp] theorem State.withStream_freq (b : BitSeq) (n : Nat) : (s.withStream b n).freq = s.freq := rfl
@[simp] theorem State.withStream_nodes (b : BitSeq) (n : Nat) : (s.withStream b n).nodes = s.nodes := rfl
@[simp] theorem State.withStream_code (b : BitSeq) (n : Nat) : (s.withStream b n).code = s.code := rfl
@[simp] theorem State.withStream_symIn (b : BitSeq) (n : Nat) : (s.withStream b n).symIn = s.symIn := rfl
@[simp] theorem State.withStream_bitBuf (b : BitSeq) (n : Nat) : (s.withStream b n).bitBuf = s.bitBuf.store 0 (packBits b) := rfl
@[simp] theorem State.withStream_symOut (b : BitSeq) (n : Nat) : (s.withStream b n).symOut = s.symOut := rfl
@[simp] theorem State.withStream_pending (b : BitSeq) (n : Nat) : (s.withStream b n).pending = s.pending := rfl
@[simp] theorem State.withStream_epoch (b : BitSeq) (n : Nat) : (s.withStream b n).epoch = s.epoch := rfl
@[simp] theorem State.withStream_host (b : BitSeq) (n : Nat) : (s.withStream b n).host = s.host := rfl
@[simp] theorem State.withStream_schedule (b : BitSeq) (n : Nat) : (s.withStream b n).schedule = s.schedule := rfl

/-! ### withOutput -/

@[simp] theorem State.withOutput_params (o : List Byte) : (s.withOutput o).params = s.params := rfl
@[simp] theorem State.withOutput_irqEn (o : List Byte) : (s.withOutput o).irqEn = s.irqEn := rfl
@[simp] theorem State.withOutput_done (o : List Byte) : (s.withOutput o).done = s.done := rfl
@[simp] theorem State.withOutput_errSticky (o : List Byte) : (s.withOutput o).errSticky = s.errSticky := rfl
@[simp] theorem State.withOutput_treeValid (o : List Byte) : (s.withOutput o).treeValid = s.treeValid := rfl
@[simp] theorem State.withOutput_codeValid (o : List Byte) : (s.withOutput o).codeValid = s.codeValid := rfl
@[simp] theorem State.withOutput_errCode (o : List Byte) : (s.withOutput o).errCode = s.errCode := rfl
@[simp] theorem State.withOutput_errInfo (o : List Byte) : (s.withOutput o).errInfo = s.errInfo := rfl
@[simp] theorem State.withOutput_symLen (o : List Byte) : (s.withOutput o).symLen = s.symLen := rfl
@[simp] theorem State.withOutput_bitLen (o : List Byte) : (s.withOutput o).bitLen = s.bitLen := rfl
@[simp] theorem State.withOutput_outLen (o : List Byte) : (s.withOutput o).outLen = BitVec.ofNat 32 o.length := rfl
@[simp] theorem State.withOutput_root (o : List Byte) : (s.withOutput o).root = s.root := rfl
@[simp] theorem State.withOutput_nleaf (o : List Byte) : (s.withOutput o).nleaf = s.nleaf := rfl
@[simp] theorem State.withOutput_freq (o : List Byte) : (s.withOutput o).freq = s.freq := rfl
@[simp] theorem State.withOutput_nodes (o : List Byte) : (s.withOutput o).nodes = s.nodes := rfl
@[simp] theorem State.withOutput_code (o : List Byte) : (s.withOutput o).code = s.code := rfl
@[simp] theorem State.withOutput_symIn (o : List Byte) : (s.withOutput o).symIn = s.symIn := rfl
@[simp] theorem State.withOutput_bitBuf (o : List Byte) : (s.withOutput o).bitBuf = s.bitBuf := rfl
@[simp] theorem State.withOutput_symOut (o : List Byte) : (s.withOutput o).symOut = s.symOut.store 0 o := rfl
@[simp] theorem State.withOutput_pending (o : List Byte) : (s.withOutput o).pending = s.pending := rfl
@[simp] theorem State.withOutput_epoch (o : List Byte) : (s.withOutput o).epoch = s.epoch := rfl
@[simp] theorem State.withOutput_host (o : List Byte) : (s.withOutput o).host = s.host := rfl
@[simp] theorem State.withOutput_schedule (o : List Byte) : (s.withOutput o).schedule = s.schedule := rfl

/-! ### hardReset -/

@[simp] theorem State.hardReset_params : s.hardReset.params = s.params := rfl
@[simp] theorem State.hardReset_irqEn : s.hardReset.irqEn = false := rfl
@[simp] theorem State.hardReset_done : s.hardReset.done = false := rfl
@[simp] theorem State.hardReset_errSticky : s.hardReset.errSticky = false := rfl
@[simp] theorem State.hardReset_treeValid : s.hardReset.treeValid = false := rfl
@[simp] theorem State.hardReset_codeValid : s.hardReset.codeValid = false := rfl
@[simp] theorem State.hardReset_errCode : s.hardReset.errCode = .ok := rfl
@[simp] theorem State.hardReset_errInfo : s.hardReset.errInfo = 0#32 := rfl
@[simp] theorem State.hardReset_symLen : s.hardReset.symLen = 0#32 := rfl
@[simp] theorem State.hardReset_bitLen : s.hardReset.bitLen = 0#32 := rfl
@[simp] theorem State.hardReset_outLen : s.hardReset.outLen = 0#32 := rfl
@[simp] theorem State.hardReset_root : s.hardReset.root = 0#9 := rfl
@[simp] theorem State.hardReset_nleaf : s.hardReset.nleaf = 0#9 := rfl
@[simp] theorem State.hardReset_freq : s.hardReset.freq = FreqTable.empty := rfl
@[simp] theorem State.hardReset_nodes : s.hardReset.nodes = [] := rfl
@[simp] theorem State.hardReset_code : s.hardReset.code = CodeTable.empty := rfl
@[simp] theorem State.hardReset_symIn : s.hardReset.symIn = [] := rfl
@[simp] theorem State.hardReset_bitBuf : s.hardReset.bitBuf = [] := rfl
@[simp] theorem State.hardReset_symOut : s.hardReset.symOut = [] := rfl
@[simp] theorem State.hardReset_pending : s.hardReset.pending = none := rfl
@[simp] theorem State.hardReset_epoch : s.hardReset.epoch = s.epoch + 1 := rfl
@[simp] theorem State.hardReset_host : s.hardReset.host = s.host := rfl
@[simp] theorem State.hardReset_schedule : s.hardReset.schedule = s.schedule := rfl

/-! ### hostAt -/

@[simp] theorem State.hostAt_params (p : Nat) : (s.hostAt p).params = s.params := rfl
@[simp] theorem State.hostAt_irqEn (p : Nat) : (s.hostAt p).irqEn = s.irqEn := rfl
@[simp] theorem State.hostAt_done (p : Nat) : (s.hostAt p).done = s.done := rfl
@[simp] theorem State.hostAt_errSticky (p : Nat) : (s.hostAt p).errSticky = s.errSticky := rfl
@[simp] theorem State.hostAt_treeValid (p : Nat) : (s.hostAt p).treeValid = s.treeValid := rfl
@[simp] theorem State.hostAt_codeValid (p : Nat) : (s.hostAt p).codeValid = s.codeValid := rfl
@[simp] theorem State.hostAt_errCode (p : Nat) : (s.hostAt p).errCode = s.errCode := rfl
@[simp] theorem State.hostAt_errInfo (p : Nat) : (s.hostAt p).errInfo = s.errInfo := rfl
@[simp] theorem State.hostAt_symLen (p : Nat) : (s.hostAt p).symLen = s.symLen := rfl
@[simp] theorem State.hostAt_bitLen (p : Nat) : (s.hostAt p).bitLen = s.bitLen := rfl
@[simp] theorem State.hostAt_outLen (p : Nat) : (s.hostAt p).outLen = s.outLen := rfl
@[simp] theorem State.hostAt_root (p : Nat) : (s.hostAt p).root = s.root := rfl
@[simp] theorem State.hostAt_nleaf (p : Nat) : (s.hostAt p).nleaf = s.nleaf := rfl
@[simp] theorem State.hostAt_freq (p : Nat) : (s.hostAt p).freq = s.freq := rfl
@[simp] theorem State.hostAt_nodes (p : Nat) : (s.hostAt p).nodes = s.nodes := rfl
@[simp] theorem State.hostAt_code (p : Nat) : (s.hostAt p).code = s.code := rfl
@[simp] theorem State.hostAt_symIn (p : Nat) : (s.hostAt p).symIn = s.symIn := rfl
@[simp] theorem State.hostAt_bitBuf (p : Nat) : (s.hostAt p).bitBuf = s.bitBuf := rfl
@[simp] theorem State.hostAt_symOut (p : Nat) : (s.hostAt p).symOut = s.symOut := rfl
@[simp] theorem State.hostAt_pending (p : Nat) : (s.hostAt p).pending = s.pending := rfl
@[simp] theorem State.hostAt_epoch (p : Nat) : (s.hostAt p).epoch = s.epoch := rfl
@[simp] theorem State.hostAt_host (p : Nat) : (s.hostAt p).host = { s.host with pos := p, waiting := false } := rfl
@[simp] theorem State.hostAt_schedule (p : Nat) : (s.hostAt p).schedule = s.schedule := rfl

/-! ### hostAssign -/

@[simp] theorem State.hostAssign_params (x : Nat) (v : Word) : (s.hostAssign x v).params = s.params := rfl
@[simp] theorem State.hostAssign_irqEn (x : Nat) (v : Word) : (s.hostAssign x v).irqEn = s.irqEn := rfl
@[simp] theorem State.hostAssign_done (x : Nat) (v : Word) : (s.hostAssign x v).done = s.done := rfl
@[simp] theorem State.hostAssign_errSticky (x : Nat) (v : Word) : (s.hostAssign x v).errSticky = s.errSticky := rfl
@[simp] theorem State.hostAssign_treeValid (x : Nat) (v : Word) : (s.hostAssign x v).treeValid = s.treeValid := rfl
@[simp] theorem State.hostAssign_codeValid (x : Nat) (v : Word) : (s.hostAssign x v).codeValid = s.codeValid := rfl
@[simp] theorem State.hostAssign_errCode (x : Nat) (v : Word) : (s.hostAssign x v).errCode = s.errCode := rfl
@[simp] theorem State.hostAssign_errInfo (x : Nat) (v : Word) : (s.hostAssign x v).errInfo = s.errInfo := rfl
@[simp] theorem State.hostAssign_symLen (x : Nat) (v : Word) : (s.hostAssign x v).symLen = s.symLen := rfl
@[simp] theorem State.hostAssign_bitLen (x : Nat) (v : Word) : (s.hostAssign x v).bitLen = s.bitLen := rfl
@[simp] theorem State.hostAssign_outLen (x : Nat) (v : Word) : (s.hostAssign x v).outLen = s.outLen := rfl
@[simp] theorem State.hostAssign_root (x : Nat) (v : Word) : (s.hostAssign x v).root = s.root := rfl
@[simp] theorem State.hostAssign_nleaf (x : Nat) (v : Word) : (s.hostAssign x v).nleaf = s.nleaf := rfl
@[simp] theorem State.hostAssign_freq (x : Nat) (v : Word) : (s.hostAssign x v).freq = s.freq := rfl
@[simp] theorem State.hostAssign_nodes (x : Nat) (v : Word) : (s.hostAssign x v).nodes = s.nodes := rfl
@[simp] theorem State.hostAssign_code (x : Nat) (v : Word) : (s.hostAssign x v).code = s.code := rfl
@[simp] theorem State.hostAssign_symIn (x : Nat) (v : Word) : (s.hostAssign x v).symIn = s.symIn := rfl
@[simp] theorem State.hostAssign_bitBuf (x : Nat) (v : Word) : (s.hostAssign x v).bitBuf = s.bitBuf := rfl
@[simp] theorem State.hostAssign_symOut (x : Nat) (v : Word) : (s.hostAssign x v).symOut = s.symOut := rfl
@[simp] theorem State.hostAssign_pending (x : Nat) (v : Word) : (s.hostAssign x v).pending = s.pending := rfl
@[simp] theorem State.hostAssign_epoch (x : Nat) (v : Word) : (s.hostAssign x v).epoch = s.epoch := rfl
@[simp] theorem State.hostAssign_host (x : Nat) (v : Word) : (s.hostAssign x v).host = { s.host with vars := HostThread.assign s.host.vars x v } := rfl
@[simp] theorem State.hostAssign_schedule (x : Nat) (v : Word) : (s.hostAssign x v).schedule = s.schedule := rfl

/-! ### hostWait -/

@[simp] theorem State.hostWait_params : s.hostWait.params = s.params := rfl
@[simp] theorem State.hostWait_irqEn : s.hostWait.irqEn = s.irqEn := rfl
@[simp] theorem State.hostWait_done : s.hostWait.done = s.done := rfl
@[simp] theorem State.hostWait_errSticky : s.hostWait.errSticky = s.errSticky := rfl
@[simp] theorem State.hostWait_treeValid : s.hostWait.treeValid = s.treeValid := rfl
@[simp] theorem State.hostWait_codeValid : s.hostWait.codeValid = s.codeValid := rfl
@[simp] theorem State.hostWait_errCode : s.hostWait.errCode = s.errCode := rfl
@[simp] theorem State.hostWait_errInfo : s.hostWait.errInfo = s.errInfo := rfl
@[simp] theorem State.hostWait_symLen : s.hostWait.symLen = s.symLen := rfl
@[simp] theorem State.hostWait_bitLen : s.hostWait.bitLen = s.bitLen := rfl
@[simp] theorem State.hostWait_outLen : s.hostWait.outLen = s.outLen := rfl
@[simp] theorem State.hostWait_root : s.hostWait.root = s.root := rfl
@[simp] theorem State.hostWait_nleaf : s.hostWait.nleaf = s.nleaf := rfl
@[simp] theorem State.hostWait_freq : s.hostWait.freq = s.freq := rfl
@[simp] theorem State.hostWait_nodes : s.hostWait.nodes = s.nodes := rfl
@[simp] theorem State.hostWait_code : s.hostWait.code = s.code := rfl
@[simp] theorem State.hostWait_symIn : s.hostWait.symIn = s.symIn := rfl
@[simp] theorem State.hostWait_bitBuf : s.hostWait.bitBuf = s.bitBuf := rfl
@[simp] theorem State.hostWait_symOut : s.hostWait.symOut = s.symOut := rfl
@[simp] theorem State.hostWait_pending : s.hostWait.pending = s.pending := rfl
@[simp] theorem State.hostWait_epoch : s.hostWait.epoch = s.epoch := rfl
@[simp] theorem State.hostWait_host : s.hostWait.host = { s.host with waiting := true } := rfl
@[simp] theorem State.hostWait_schedule : s.hostWait.schedule = s.schedule := rfl

/-! ### popTurn -/

@[simp] theorem State.popTurn_params : s.popTurn.params = s.params := rfl
@[simp] theorem State.popTurn_irqEn : s.popTurn.irqEn = s.irqEn := rfl
@[simp] theorem State.popTurn_done : s.popTurn.done = s.done := rfl
@[simp] theorem State.popTurn_errSticky : s.popTurn.errSticky = s.errSticky := rfl
@[simp] theorem State.popTurn_treeValid : s.popTurn.treeValid = s.treeValid := rfl
@[simp] theorem State.popTurn_codeValid : s.popTurn.codeValid = s.codeValid := rfl
@[simp] theorem State.popTurn_errCode : s.popTurn.errCode = s.errCode := rfl
@[simp] theorem State.popTurn_errInfo : s.popTurn.errInfo = s.errInfo := rfl
@[simp] theorem State.popTurn_symLen : s.popTurn.symLen = s.symLen := rfl
@[simp] theorem State.popTurn_bitLen : s.popTurn.bitLen = s.bitLen := rfl
@[simp] theorem State.popTurn_outLen : s.popTurn.outLen = s.outLen := rfl
@[simp] theorem State.popTurn_root : s.popTurn.root = s.root := rfl
@[simp] theorem State.popTurn_nleaf : s.popTurn.nleaf = s.nleaf := rfl
@[simp] theorem State.popTurn_freq : s.popTurn.freq = s.freq := rfl
@[simp] theorem State.popTurn_nodes : s.popTurn.nodes = s.nodes := rfl
@[simp] theorem State.popTurn_code : s.popTurn.code = s.code := rfl
@[simp] theorem State.popTurn_symIn : s.popTurn.symIn = s.symIn := rfl
@[simp] theorem State.popTurn_bitBuf : s.popTurn.bitBuf = s.bitBuf := rfl
@[simp] theorem State.popTurn_symOut : s.popTurn.symOut = s.symOut := rfl
@[simp] theorem State.popTurn_pending : s.popTurn.pending = s.pending := rfl
@[simp] theorem State.popTurn_epoch : s.popTurn.epoch = s.epoch := rfl
@[simp] theorem State.popTurn_host : s.popTurn.host = s.host := rfl
@[simp] theorem State.popTurn_schedule : s.popTurn.schedule = s.schedule.tail := rfl

/-! ### Reads after an update -/

@[simp] theorem State.issue_nodeCount (w : Word) : (s.issue w).nodeCount = s.nodeCount := rfl
@[simp] theorem State.issue_nodeAt (w : Word) : (s.issue w).nodeAt = s.nodeAt := rfl
@[simp] theorem State.issue_deriveCode (w : Word) : (s.issue w).deriveCode = s.deriveCode := rfl
@[simp] theorem State.issue_inputSymbols (w : Word) : (s.issue w).inputSymbols = s.inputSymbols := rfl
@[simp] theorem State.issue_bitstream (w : Word) : (s.issue w).bitstream = s.bitstream := rfl
@[simp] theorem State.complete_nodeCount (c : ErrCode) (i : Word) : (s.complete c i).nodeCount = s.nodeCount := rfl
@[simp] theorem State.complete_nodeAt (c : ErrCode) (i : Word) : (s.complete c i).nodeAt = s.nodeAt := rfl
@[simp] theorem State.complete_deriveCode (c : ErrCode) (i : Word) : (s.complete c i).deriveCode = s.deriveCode := rfl
@[simp] theorem State.complete_inputSymbols (c : ErrCode) (i : Word) : (s.complete c i).inputSymbols = s.inputSymbols := rfl
@[simp] theorem State.complete_bitstream (c : ErrCode) (i : Word) : (s.complete c i).bitstream = s.bitstream := rfl
@[simp] theorem State.writeStatus_busy (v : Word) : (s.writeStatus v).busy = s.busy := rfl
@[simp] theorem State.writeStatus_nodeCount (v : Word) : (s.writeStatus v).nodeCount = s.nodeCount := rfl
@[simp] theorem State.writeStatus_nodeAt (v : Word) : (s.writeStatus v).nodeAt = s.nodeAt := rfl
@[simp] theorem State.writeStatus_deriveCode (v : Word) : (s.writeStatus v).deriveCode = s.deriveCode := rfl
@[simp] theorem State.writeStatus_inputSymbols (v : Word) : (s.writeStatus v).inputSymbols = s.inputSymbols := rfl
@[simp] theorem State.writeStatus_bitstream (v : Word) : (s.writeStatus v).bitstream = s.bitstream := rfl
@[simp] theorem State.writeCtrl_busy (v : Word) : (s.writeCtrl v).busy = s.busy := rfl
@[simp] theorem State.writeCtrl_nodeCount (v : Word) : (s.writeCtrl v).nodeCount = s.nodeCount := rfl
@[simp] theorem State.writeCtrl_nodeAt (v : Word) : (s.writeCtrl v).nodeAt = s.nodeAt := rfl
@[simp] theorem State.writeCtrl_deriveCode (v : Word) : (s.writeCtrl v).deriveCode = s.deriveCode := rfl
@[simp] theorem State.writeCtrl_inputSymbols (v : Word) : (s.writeCtrl v).inputSymbols = s.inputSymbols := rfl
@[simp] theorem State.writeCtrl_bitstream (v : Word) : (s.writeCtrl v).bitstream = s.bitstream := rfl
@[simp] theorem State.emptied_busy : s.emptied.busy = s.busy := rfl
@[simp] theorem State.withTree_busy (N : List Node) (n : Nat) : (s.withTree N n).busy = s.busy := rfl
@[simp] theorem State.withTree_inputSymbols (N : List Node) (n : Nat) : (s.withTree N n).inputSymbols = s.inputSymbols := rfl
@[simp] theorem State.withTree_bitstream (N : List Node) (n : Nat) : (s.withTree N n).bitstream = s.bitstream := rfl
@[simp] theorem State.withCode_busy (C : CodeTable) : (s.withCode C).busy = s.busy := rfl
@[simp] theorem State.withCode_nodeCount (C : CodeTable) : (s.withCode C).nodeCount = s.nodeCount := rfl
@[simp] theorem State.withCode_nodeAt (C : CodeTable) : (s.withCode C).nodeAt = s.nodeAt := rfl
@[simp] theorem State.withCode_deriveCode (C : CodeTable) : (s.withCode C).deriveCode = s.deriveCode := rfl
@[simp] theorem State.withCode_inputSymbols (C : CodeTable) : (s.withCode C).inputSymbols = s.inputSymbols := rfl
@[simp] theorem State.withCode_bitstream (C : CodeTable) : (s.withCode C).bitstream = s.bitstream := rfl
@[simp] theorem State.withStream_busy (b : BitSeq) (n : Nat) : (s.withStream b n).busy = s.busy := rfl
@[simp] theorem State.withStream_nodeCount (b : BitSeq) (n : Nat) : (s.withStream b n).nodeCount = s.nodeCount := rfl
@[simp] theorem State.withStream_nodeAt (b : BitSeq) (n : Nat) : (s.withStream b n).nodeAt = s.nodeAt := rfl
@[simp] theorem State.withStream_deriveCode (b : BitSeq) (n : Nat) : (s.withStream b n).deriveCode = s.deriveCode := rfl
@[simp] theorem State.withStream_inputSymbols (b : BitSeq) (n : Nat) : (s.withStream b n).inputSymbols = s.inputSymbols := rfl
@[simp] theorem State.withOutput_busy (o : List Byte) : (s.withOutput o).busy = s.busy := rfl
@[simp] theorem State.withOutput_nodeCount (o : List Byte) : (s.withOutput o).nodeCount = s.nodeCount := rfl
@[simp] theorem State.withOutput_nodeAt (o : List Byte) : (s.withOutput o).nodeAt = s.nodeAt := rfl
@[simp] theorem State.withOutput_deriveCode (o : List Byte) : (s.withOutput o).deriveCode = s.deriveCode := rfl
@[simp] theorem State.withOutput_inputSymbols (o : List Byte) : (s.withOutput o).inputSymbols = s.inputSymbols := rfl
@[simp] theorem State.withOutput_bitstream (o : List Byte) : (s.withOutput o).bitstream = s.bitstream := rfl
@[simp] theorem State.hostAt_busy (p : Nat) : (s.hostAt p).busy = s.busy := rfl
@[simp] theorem State.hostAt_nodeCount (p : Nat) : (s.hostAt p).nodeCount = s.nodeCount := rfl
@[simp] theorem State.hostAt_nodeAt (p : Nat) : (s.hostAt p).nodeAt = s.nodeAt := rfl
@[simp] theorem State.hostAt_deriveCode (p : Nat) : (s.hostAt p).deriveCode = s.deriveCode := rfl
@[simp] theorem State.hostAt_inputSymbols (p : Nat) : (s.hostAt p).inputSymbols = s.inputSymbols := rfl
@[simp] theorem State.hostAt_bitstream (p : Nat) : (s.hostAt p).bitstream = s.bitstream := rfl
@[simp] theorem State.hostAssign_busy (x : Nat) (v : Word) : (s.hostAssign x v).busy = s.busy := rfl
@[simp] theorem State.hostAssign_nodeCount (x : Nat) (v : Word) : (s.hostAssign x v).nodeCount = s.nodeCount := rfl
@[simp] theorem State.hostAssign_nodeAt (x : Nat) (v : Word) : (s.hostAssign x v).nodeAt = s.nodeAt := rfl
@[simp] theorem State.hostAssign_deriveCode (x : Nat) (v : Word) : (s.hostAssign x v).deriveCode = s.deriveCode := rfl
@[simp] theorem State.hostAssign_inputSymbols (x : Nat) (v : Word) : (s.hostAssign x v).inputSymbols = s.inputSymbols := rfl
@[simp] theorem State.hostAssign_bitstream (x : Nat) (v : Word) : (s.hostAssign x v).bitstream = s.bitstream := rfl
@[simp] theorem State.hostWait_busy : s.hostWait.busy = s.busy := rfl
@[simp] theorem State.hostWait_nodeCount : s.hostWait.nodeCount = s.nodeCount := rfl
@[simp] theorem State.hostWait_nodeAt : s.hostWait.nodeAt = s.nodeAt := rfl
@[simp] theorem State.hostWait_deriveCode : s.hostWait.deriveCode = s.deriveCode := rfl
@[simp] theorem State.hostWait_inputSymbols : s.hostWait.inputSymbols = s.inputSymbols := rfl
@[simp] theorem State.hostWait_bitstream : s.hostWait.bitstream = s.bitstream := rfl
@[simp] theorem State.popTurn_busy : s.popTurn.busy = s.busy := rfl
@[simp] theorem State.popTurn_nodeCount : s.popTurn.nodeCount = s.nodeCount := rfl
@[simp] theorem State.popTurn_nodeAt : s.popTurn.nodeAt = s.nodeAt := rfl
@[simp] theorem State.popTurn_deriveCode : s.popTurn.deriveCode = s.deriveCode := rfl
@[simp] theorem State.popTurn_inputSymbols : s.popTurn.inputSymbols = s.inputSymbols := rfl
@[simp] theorem State.popTurn_bitstream : s.popTurn.bitstream = s.bitstream := rfl

@[simp] theorem State.issue_busy (w : Word) : (s.issue w).busy = true := rfl
@[simp] theorem State.complete_busy (c : ErrCode) (i : Word) : (s.complete c i).busy = false := rfl
@[simp] theorem State.hardReset_busy : s.hardReset.busy = false := rfl

end Sys2Proof.Machine
end

