-- ==== Sys2Proof/Laws/Bits.lean ====
section
/-! SUPPORT. The laws of bits, bytes and words (20_memory.md R76, R77). -/

namespace Sys2Proof.Machine

/-- Bit `n - 1 - t` of `bitsBE n f` is `f t`. -/
theorem bitsBE_getLsbD (n : Nat) (f : Nat → Bool) {t : Nat} (h : t < n) : (bitsBE n f).getLsbD (n - 1 - t) = f t := by
  induction n generalizing f t with
  | zero => omega
  | succ n ih =>
    rw [bitsBE, BitVec.getLsbD_cons]
    cases t with
    | zero => simp
    | succ t =>
      have := ih (fun t => f (t + 1)) (t := t) (by omega)
      rw [if_neg (by omega), show n + 1 - 1 - (t + 1) = n - 1 - t by omega, this]

/-- Lane `t` of a word is bits `31 - 8t` to `24 - 8t` (R76). -/
theorem byteLane_getLsbD (v : Word) (t i : Nat) (h : i < 8) :
    (byteLane v t).getLsbD i = v.getLsbD (24 - 8 * t + i) := by
  simp [byteLane, h]

/-- Writing a word's lanes and reading them back gives the word (R76). -/
theorem wordOfBytes_lanes (v : Word) :
    wordOfBytes (byteLane v 0) (byteLane v 1) (byteLane v 2) (byteLane v 3) = v := by
  unfold wordOfBytes byteLane
  ext i hi
  simp only [BitVec.getElem_append, BitVec.getElem_extractLsb']
  rcases Nat.lt_or_ge i 8 with h | h
  · simp [h, ← BitVec.getLsbD_eq_getElem]
  rcases Nat.lt_or_ge i 16 with h2 | h2
  · rw [dif_neg (by omega), dif_pos (by omega), ← BitVec.getLsbD_eq_getElem]; congr 1; omega
  rcases Nat.lt_or_ge i 24 with h3 | h3
  · rw [dif_neg (by omega), dif_neg (by omega), dif_pos (by omega), ← BitVec.getLsbD_eq_getElem]; congr 1; omega
  · rw [dif_neg (by omega), dif_neg (by omega), dif_neg (by omega), ← BitVec.getLsbD_eq_getElem]; congr 1; omega

theorem ceil8_le_iff (n c : Nat) : ceil8 n ≤ c ↔ n ≤ 8 * c := by unfold ceil8; omega

theorem length_packBits (bits : BitSeq) : (packBits bits).length = ceil8 bits.length := by simp [packBits]

/-- Bit `7 - t` of byte `j` of a packed stream is stream bit `8j + t`, 0 past the end (44_encode.md R181). -/
theorem packByte_getLsbD (bits : BitSeq) (j : Nat) {t : Nat} (h : t < 8) :
    (packByte bits j).getLsbD (7 - t) = bits.getD (8 * j + t) false := by
  simpa [packByte] using bitsBE_getLsbD 8 (fun t => bits.getD (8 * j + t) false) h

end Sys2Proof.Machine
end

