-- ==== Sys2Proof/Laws/Memory.lean ====
section
/-! SUPPORT. The laws of the buffers: reading after a write, and every write keeps the canonical form. -/

namespace Sys2Proof.Machine

/-! ### Reading after a write -/

@[simp] theorem Memory.get?_nil (j : Nat) : Memory.get? [] j = none := rfl

@[simp] theorem Memory.get?_set_self (m : Memory) (j : Nat) (v : Byte) : (Memory.set m j v).get? j = some v := by
  induction m with
  | nil => simp [Memory.set, Memory.get?]
  | cons c m ih =>
    obtain ⟨a, u⟩ := c
    simp only [Memory.set]
    split
    · simp [Memory.get?]
    · split
      · simp [Memory.get?]
      · rename_i h1 h2
        simp [Memory.get?, ih, Ne.symm h2]

theorem Memory.get?_set_ne (m : Memory) {j k : Nat} (v : Byte) (h : k ≠ j) :
    (Memory.set m j v).get? k = m.get? k := by
  induction m with
  | nil => simp [Memory.set, Memory.get?, Ne.symm h]
  | cons c m ih =>
    obtain ⟨a, u⟩ := c
    simp only [Memory.set]
    split
    · simp [Memory.get?, Ne.symm h]
    · split
      · rename_i h2
        subst h2
        simp [Memory.get?, Ne.symm h]
      · simp [Memory.get?, ih]

theorem Memory.get?_store_before (vs : List Byte) (m : Memory) {j k : Nat} (h : k < j) :
    (Memory.store m j vs).get? k = m.get? k := by
  induction vs generalizing m j with
  | nil => rfl
  | cons v vs ih => rw [Memory.store, ih _ (by omega), Memory.get?_set_ne _ _ (by omega)]

theorem Memory.get?_store_after (vs : List Byte) (m : Memory) {j k : Nat} (h : j + vs.length ≤ k) :
    (Memory.store m j vs).get? k = m.get? k := by
  induction vs generalizing m j with
  | nil => rfl
  | cons v vs ih =>
    simp only [List.length_cons] at h
    rw [Memory.store, ih _ (by omega), Memory.get?_set_ne _ _ (by omega)]

theorem Memory.get?_store_mid (vs : List Byte) (m : Memory) (j : Nat) {i : Nat} (h : i < vs.length) :
    (Memory.store m j vs).get? (j + i) = some vs[i] := by
  induction vs generalizing m j i with
  | nil => simp at h
  | cons v vs ih =>
    rw [Memory.store]
    cases i with
    | zero => simp [Memory.get?_store_before vs _ (Nat.lt_succ_self j)]
    | succ i =>
      have := ih (Memory.set m j v) (j + 1) (i := i) (by simpa using h)
      simpa [Nat.add_assoc, Nat.add_comm 1 i] using this

/-! ### The canonical form -/

theorem Memory.wf_cons (c : Host.Cell) (m : Memory) :
    Memory.wf (c :: m) = true ↔ (∀ d, m.head? = some d → c.1 < d.1) ∧ Memory.wf m = true := by
  obtain ⟨a, u⟩ := c
  cases m with
  | nil => simp [Memory.wf]
  | cons d m => obtain ⟨b, w⟩ := d; simp [Memory.wf]

theorem Memory.head?_set (m : Memory) (j : Nat) (v : Byte) (d : Host.Cell)
    (h : (Memory.set m j v).head? = some d) : d.1 = j ∨ m.head? = some d := by
  cases m with
  | nil => simp [Memory.set] at h; simp [← h]
  | cons c m =>
    obtain ⟨a, u⟩ := c
    simp only [Memory.set] at h
    split at h
    · simp at h; simp [← h]
    · split at h <;> simp at h <;> simp [← h]

theorem Memory.wf_set (m : Memory) (j : Nat) (v : Byte) (h : m.wf = true) : (Memory.set m j v).wf = true := by
  induction m with
  | nil => rfl
  | cons c m ih =>
    obtain ⟨a, u⟩ := c
    obtain ⟨h1, h2⟩ := (Memory.wf_cons _ _).1 h
    simp only [Memory.set]
    split
    · rename_i hlt
      exact (Memory.wf_cons _ _).2 ⟨by intro d hd; simp at hd; simp [← hd, hlt], h⟩
    · split
      · rename_i heq
        subst heq
        exact (Memory.wf_cons _ _).2 ⟨h1, h2⟩
      · refine (Memory.wf_cons _ _).2 ⟨fun d hd => ?_, ih h2⟩
        rcases Memory.head?_set m j v d hd with e | e
        · simp only [e]; omega
        · exact h1 d e

theorem Memory.wf_store (vs : List Byte) (m : Memory) (j : Nat) (h : m.wf = true) : (Memory.store m j vs).wf = true := by
  induction vs generalizing m j with
  | nil => exact h
  | cons v vs ih => exact ih _ _ (Memory.wf_set m j v h)

theorem Memory.within_set (m : Memory) (j : Nat) (v : Byte) {cap : Nat} (h : m.within cap = true) (hj : j < cap) :
    (Memory.set m j v).within cap = true := by
  induction m with
  | nil => simpa [Memory.set, Memory.within] using hj
  | cons c m ih =>
    obtain ⟨a, u⟩ := c
    simp only [Memory.within, List.all_cons, Bool.and_eq_true, decide_eq_true_eq] at h ih
    simp only [Memory.set]
    split
    · simp [Memory.within, hj, h]
    · split
      · simp [Memory.within, hj, h.2]
      · simp [Memory.within, h.1, ih h.2]

theorem Memory.within_store (vs : List Byte) (m : Memory) (j : Nat) {cap : Nat} (h : m.within cap = true)
    (hj : j + vs.length ≤ cap) : (Memory.store m j vs).within cap = true := by
  induction vs generalizing m j with
  | nil => exact h
  | cons v vs ih =>
    simp only [List.length_cons] at hj
    exact ih _ _ (Memory.within_set m j v h (by omega)) (by omega)

/-- In canonical form an index before the first listed one reads as no value. -/
theorem Memory.get?_eq_none_of_lt (m : Memory) (k : Nat) (h : m.wf = true) (hk : ∀ d, m.head? = some d → k < d.1) :
    m.get? k = none := by
  induction m with
  | nil => rfl
  | cons c m ih =>
    obtain ⟨a, u⟩ := c
    obtain ⟨h1, h2⟩ := (Memory.wf_cons _ _).1 h
    have ha : k < a := hk (a, u) rfl
    rw [Memory.get?, if_neg (by omega)]
    exact ih h2 fun d hd => lt_trans ha (h1 d hd)

/-- Canonical buffers that read alike are equal data. -/
theorem Memory.ext_of_wf (m n : Memory) (hm : m.wf = true) (hn : n.wf = true) (h : ∀ j, m.get? j = n.get? j) :
    m = n := by
  induction m generalizing n with
  | nil =>
    cases n with
    | nil => rfl
    | cons d n => have := h d.1; simp [Memory.get?] at this
  | cons c m ih =>
    obtain ⟨a, u⟩ := c
    obtain ⟨hm1, hm2⟩ := (Memory.wf_cons _ _).1 hm
    cases n with
    | nil => have := h a; simp [Memory.get?] at this
    | cons d n =>
      obtain ⟨b, w⟩ := d
      obtain ⟨hn1, hn2⟩ := (Memory.wf_cons _ _).1 hn
      have hab : a = b := by
        rcases Nat.lt_trichotomy a b with hlt | heq | hlt
        · have h1 := h a
          have h2 := Memory.get?_eq_none_of_lt ((b, w) :: n) a hn (by intro d hd; simp at hd; simpa [← hd] using hlt)
          rw [h2] at h1; simp [Memory.get?] at h1
        · exact heq
        · have h1 := h b
          have h2 := Memory.get?_eq_none_of_lt ((a, u) :: m) b hm (by intro d hd; simp at hd; simpa [← hd] using hlt)
          rw [h2] at h1; simp [Memory.get?] at h1
      subst hab
      have huw : u = w := by have := h a; simpa [Memory.get?] using this
      subst huw
      have : m = n := ih n hm2 hn2 fun j => by
        by_cases e : a = j
        · subst e
          rw [Memory.get?_eq_none_of_lt m a hm2 hm1, Memory.get?_eq_none_of_lt n a hn2 hn1]
        · have := h j; simpa [Memory.get?, e] using this
      rw [this]

/-! ### Reading bytes of the state -/

theorem State.readByte_of_get? (s : State) (b : Buffer) {j : Nat} {v : Byte} (h : (s.mem b).get? j = some v) :
    s.readByte b j = v := by simp [State.readByte, h]

/-- A byte reads the same in two states that agree on the buffer's entry for it and on the reset number. -/
theorem State.readByte_congr {s t : State} {b : Buffer} {j : Nat} (h : (t.mem b).get? j = (s.mem b).get? j)
    (he : t.epoch = s.epoch) : t.readByte b j = s.readByte b j := by simp [State.readByte, h, he]

/-- Completing a command changes no buffer byte. -/
@[simp] theorem State.complete_readByte (s : State) (c : ErrCode) (i : Word) (b : Buffer) (j : Nat) :
    (s.complete c i).readByte b j = s.readByte b j := by cases b <;> rfl

end Sys2Proof.Machine
end

