-- ==== Sys2Proof/Laws/Commands.lean ====
section
/-! SUPPORT. What the end of a command can do, and what each command can commit, said once (60_exceptions.md R244). -/

namespace Sys2Proof.Machine

@[simp] theorem finish_ok (s t : State) : finish s (.ok t) = .next (t.complete .ok 0#32) := rfl

@[simp] theorem finish_raise (s : State) (c : ErrCode) (i : Word) :
    finish s (.error (.raise c i)) = .next (s.complete c i) := rfl

@[simp] theorem finish_fault (s : State) (f : Fault) : finish s (.error (.fault f)) = .fault f := rfl

/-- A command that answers a next state has committed its writes with OK, or has raised and changed only the completion
record. -/
theorem finish_next {s t : State} {r : Except Abort State} (h : finish s r = .next t) :
    (∃ u, r = .ok u ∧ t = u.complete .ok 0#32) ∨ ∃ c i, r = .error (.raise c i) ∧ t = s.complete c i := by
  match r with
  | .ok u => exact .inl ⟨u, rfl, by simpa using h.symm⟩
  | .error (.raise c i) => exact .inr ⟨c, i, rfl, by simpa using h.symm⟩
  | .error (.fault f) => simp at h

/-- Completions cannot be told apart by what they overwrite: the second one wins, but for the sticky bit. -/
theorem complete_complete (s : State) (c d : ErrCode) (i j : Word) :
    (s.complete c i).complete d j = { s.complete d j with errSticky := s.errSticky || c != .ok || d != .ok } := rfl

theorem execNop_eq (s : State) : execNop s = .next (s.complete .ok 0#32) := rfl

theorem execSoftReset_eq (s : State) : execSoftReset s = .next (s.emptied.complete .ok 0#32) := rfl

theorem execIllegal_eq (w : Word) (s : State) : execIllegal w s = .next (s.complete .badCommand w) := rfl

theorem execFreqBuild_next {s t : State} (h : execFreqBuild s = .next t) :
    (s.symLen.toNat ≤ s.params.symCap ∧
      t = ({ s with freq := countSymbols s.inputSymbols } : State).complete .ok 0#32) ∨
    (s.params.symCap < s.symLen.toNat ∧ t = s.complete .badLength s.symLen) := by
  unfold execFreqBuild at h
  split at h
  · exact .inr ⟨‹_›, by simpa using h.symm⟩
  · exact .inl ⟨by omega, by simpa using h.symm⟩

theorem execTreeBuild_next {s t : State} (h : execTreeBuild s = .next t) :
    (presentSymbols s.freq ≠ [] ∧
      t = (s.withTree (buildTree s.freq) (presentSymbols s.freq).length).complete .ok 0#32) ∨
    (presentSymbols s.freq = [] ∧ t = s.complete .emptyInput 0#32) := by
  unfold execTreeBuild at h
  split at h
  · exact .inr ⟨List.length_eq_zero_iff.1 ‹_›, by simpa using h.symm⟩
  · exact .inl ⟨fun e => ‹¬ _› (by simp [e]), by simpa using h.symm⟩

theorem execCodeDerive_next {s t : State} (h : execCodeDerive s = .next t) :
    (s.treeValid = true ∧ ∃ C, s.deriveCode = .ok C ∧ t = (s.withCode C).complete .ok 0#32) ∨
    (s.treeValid = false ∧ t = s.complete .noTree 0#32) ∨
    (s.treeValid = true ∧ ∃ c i, s.deriveCode = .error (.raise c i) ∧ t = s.complete c i) := by
  unfold execCodeDerive at h
  split at h
  · exact .inr (.inl ⟨‹_›, by simpa using h.symm⟩)
  · have ht : s.treeValid = true := by simpa using ‹¬ s.treeValid = false›
    rcases hd : s.deriveCode with e | C
    · rcases e with ⟨c, i⟩ | f
      · exact .inr (.inr ⟨ht, c, i, rfl, by simpa [hd] using h.symm⟩)
      · simp [hd] at h
    · exact .inl ⟨ht, C, rfl, by simpa [hd] using h.symm⟩

theorem execEncode_next {s t : State} (h : execEncode s = .next t) :
    (s.codeValid = true ∧ s.symLen.toNat ≤ s.params.symCap ∧
      ∃ n, encodeCheck s.code (8 * s.params.bitCap) s.inputSymbols 0 0 = .ok n ∧
        t = (s.withStream (encodeSymbols s.code s.inputSymbols) n).complete .ok 0#32) ∨
    (s.codeValid = false ∧ t = s.complete .noCode 0#32) ∨
    (s.codeValid = true ∧ s.params.symCap < s.symLen.toNat ∧ t = s.complete .badLength s.symLen) ∨
    (s.codeValid = true ∧ s.symLen.toNat ≤ s.params.symCap ∧
      ∃ c i, encodeCheck s.code (8 * s.params.bitCap) s.inputSymbols 0 0 = .error (.raise c i) ∧
        t = s.complete c i) := by
  unfold execEncode at h
  split at h
  · exact .inr (.inl ⟨‹_›, by simpa using h.symm⟩)
  · have hc : s.codeValid = true := by simpa using ‹¬ s.codeValid = false›
    split at h
    · exact .inr (.inr (.inl ⟨hc, ‹_›, by simpa using h.symm⟩))
    · have hl : s.symLen.toNat ≤ s.params.symCap := by omega
      rcases hd : encodeCheck s.code (8 * s.params.bitCap) s.inputSymbols 0 0 with e | n
      · rcases e with ⟨c, i⟩ | f
        · exact .inr (.inr (.inr ⟨hc, hl, c, i, rfl, by simpa [hd] using h.symm⟩))
        · simp [hd] at h
      · exact .inl ⟨hc, hl, n, rfl, by simpa [hd] using h.symm⟩

theorem execDecode_next {s t : State} (h : execDecode s = .next t) :
    (s.treeValid = true ∧ s.bitLen.toNat ≤ 8 * s.params.bitCap ∧
      ∃ out, decodeLoop s.nodeAt s.root s.params.outCap s.bitstream 0 s.root 0 [] = .ok out ∧
        t = (s.withOutput out).complete .ok 0#32) ∨
    (s.treeValid = false ∧ t = s.complete .noTree 0#32) ∨
    (s.treeValid = true ∧ 8 * s.params.bitCap < s.bitLen.toNat ∧ t = s.complete .badLength s.bitLen) ∨
    (s.treeValid = true ∧ s.bitLen.toNat ≤ 8 * s.params.bitCap ∧
      ∃ c i, decodeLoop s.nodeAt s.root s.params.outCap s.bitstream 0 s.root 0 [] = .error (.raise c i) ∧
        t = s.complete c i) := by
  unfold execDecode at h
  split at h
  · exact .inr (.inl ⟨‹_›, by simpa using h.symm⟩)
  · have hc : s.treeValid = true := by simpa using ‹¬ s.treeValid = false›
    split at h
    · exact .inr (.inr (.inl ⟨hc, ‹_›, by simpa using h.symm⟩))
    · have hl : s.bitLen.toNat ≤ 8 * s.params.bitCap := by omega
      rcases hd : decodeLoop s.nodeAt s.root s.params.outCap s.bitstream 0 s.root 0 [] with e | out
      · rcases e with ⟨c, i⟩ | f
        · exact .inr (.inr (.inr ⟨hc, hl, c, i, rfl, by simpa [hd] using h.symm⟩))
        · simp [hd] at h
      · exact .inl ⟨hc, hl, out, rfl, by simpa [hd] using h.symm⟩

end Sys2Proof.Machine
end

