-- ==== Sys2Proof/Laws/Tables.lean ====
section
/-! SUPPORT. The laws of the frequency table and the code table, and what the frequency counter computes (41_frequency.md
R120). -/

namespace Sys2Proof.Machine

theorem toNat_ne_of_ne {x y : Byte} (h : x ≠ y) : x.toNat ≠ y.toNat := fun e => h (BitVec.eq_of_toNat_eq e)

@[simp] theorem FreqTable.empty_at (x : Byte) : FreqTable.empty.at x = 0#32 := by
  simp [FreqTable.at, FreqTable.empty]

@[simp] theorem FreqTable.put_at_self (F : FreqTable) (x : Byte) (v : Word) : (F.put x v).at x = v := by
  simp [FreqTable.at, FreqTable.put]

theorem FreqTable.put_at_ne (F : FreqTable) {x y : Byte} (v : Word) (h : x ≠ y) : (F.put x v).at y = F.at y := by
  simp [FreqTable.at, FreqTable.put, Vector.getElem_set_ne, toNat_ne_of_ne h]

@[simp] theorem CodeTable.empty_at (x : Byte) : CodeTable.empty.at x = none := by
  simp [CodeTable.at, CodeTable.empty]

@[simp] theorem CodeTable.put_at_self (C : CodeTable) (x : Byte) (w : BitSeq) : (C.put x w).at x = some w := by
  simp [CodeTable.at, CodeTable.put]

theorem CodeTable.put_at_ne (C : CodeTable) {x y : Byte} (w : BitSeq) (h : x ≠ y) : (C.put x w).at y = C.at y := by
  simp [CodeTable.at, CodeTable.put, Vector.getElem_set_ne, toNat_ne_of_ne h]

theorem foldl_count_at (syms : List Byte) (F : FreqTable) (x : Byte) :
    (syms.foldl (fun F y => F.put y (F.at y + 1#32)) F).at x = F.at x + BitVec.ofNat 32 (syms.count x) := by
  induction syms generalizing F with
  | nil => simp
  | cons y ys ih =>
    rw [List.foldl_cons, ih]
    by_cases h : y = x
    · subst h
      rw [FreqTable.put_at_self, List.count_cons_self, BitVec.add_assoc]
      congr 1
      apply BitVec.eq_of_toNat_eq
      simp [Nat.add_comm]
    · rw [FreqTable.put_at_ne _ _ h, List.count_cons_of_ne h]

/-- The frequency counter gives each symbol its number of occurrences. -/
theorem countSymbols_at (syms : List Byte) (x : Byte) :
    (countSymbols syms).at x = BitVec.ofNat 32 (syms.count x) := by
  rw [countSymbols, foldl_count_at]
  simp

theorem length_allSymbols : allSymbols.length = 256 := by simp [allSymbols]

theorem mem_allSymbols (x : Byte) : x ∈ allSymbols := by
  have hx : x.toNat < 256 := x.isLt
  exact List.mem_map.2 ⟨x.toNat, List.mem_range.2 hx, by simp⟩

theorem allSymbols_ascending : allSymbols.Pairwise (fun x y => x.toNat < y.toNat) := by
  rw [allSymbols, List.pairwise_map]
  refine List.pairwise_lt_range.imp_of_mem fun {a b} ha hb hab => ?_
  have ha' := List.mem_range.1 ha
  have hb' := List.mem_range.1 hb
  simp only [BitVec.toNat_ofNat]
  omega

theorem length_freq_toList (F : FreqTable) : F.toList.length = 256 := by simp

/-- Pairing every symbol with its entry, by position. -/
theorem symbolCounts_eq (F : FreqTable) : allSymbols.zip F.toList = allSymbols.map (fun x => (x, F.at x)) := by
  apply List.ext_getElem
  · simp [length_allSymbols]
  · intro i h1 h2
    have hi : i < 256 := by simpa [length_allSymbols] using h2
    simp [allSymbols, FreqTable.at, Nat.mod_eq_of_lt hi]

theorem mem_presentCounts (F : FreqTable) (x : Byte) (f : Word) :
    (x, f) ∈ presentCounts F ↔ f = F.at x ∧ F.at x ≠ 0#32 := by
  simp only [presentCounts, symbolCounts_eq, List.mem_filter, List.mem_map, Prod.mk.injEq, bne_iff_ne, ne_eq]
  constructor
  · rintro ⟨⟨y, -, rfl, rfl⟩, h⟩
    exact ⟨rfl, h⟩
  · rintro ⟨rfl, h⟩
    exact ⟨⟨x, mem_allSymbols x, rfl, rfl⟩, h⟩

/-- The symbols present are those of the list `L` of 42_tree_build.md R147. -/
theorem presentSymbols_eq_filter (F : FreqTable) :
    presentSymbols F = allSymbols.filter (fun x => F.at x != 0#32) := by
  simp only [presentSymbols, presentCounts, symbolCounts_eq, List.filter_map, List.map_map]
  exact List.map_id' _

theorem mem_presentSymbols (F : FreqTable) (x : Byte) : x ∈ presentSymbols F ↔ F.at x ≠ 0#32 := by
  simp [presentSymbols_eq_filter, mem_allSymbols]

theorem presentSymbols_ascending (F : FreqTable) :
    (presentSymbols F).Pairwise (fun x y => x.toNat < y.toNat) :=
  presentSymbols_eq_filter F ▸ allSymbols_ascending.filter _

theorem length_presentSymbols_le (F : FreqTable) : (presentSymbols F).length ≤ 256 :=
  presentSymbols_eq_filter F ▸ length_allSymbols ▸ List.length_filter_le _ _

/-- The sum of all counts, symbol by symbol. -/
theorem freqTotal_eq (F : FreqTable) : freqTotal F = (allSymbols.map (fun x => (F.at x).toNat)).sum := by
  have h : F.toList = (allSymbols.zip F.toList).map Prod.snd := by
    rw [List.map_snd_zip]
    simp [length_allSymbols]
  rw [freqTotal, h, symbolCounts_eq]
  simp [Function.comp_def]

/-- The number of input symbols is SYM_LEN. -/
@[simp] theorem State.length_inputSymbols (s : State) : s.inputSymbols.length = s.symLen.toNat := by
  simp [State.inputSymbols]

/-- The number of stream bits is BIT_LEN. -/
@[simp] theorem State.length_bitstream (s : State) : s.bitstream.length = s.bitLen.toNat := by simp [State.bitstream]

/-- The capacities are within the bounds of 00_scope.md R13. -/
theorem Capacity.bytes_bounds (c : Capacity) : 4 ≤ c.bytes ∧ c.bytes ≤ 2 ^ 24 ∧ c.bytes % 4 = 0 := by
  have := c.isLt
  unfold Capacity.bytes
  omega

end Sys2Proof.Machine
end

