-- ==== Sys2Proof/Laws/Tree.lean ====
section
/-! SUPPORT. The laws of the priority queue and of the merge loop (42_tree_build.md R142 to R145). -/

namespace Sys2Proof.Machine

theorem Key.less_iff (a b : Key) :
    a.less b = true ↔ a.freq.toNat < b.freq.toNat ∨ (a.freq.toNat = b.freq.toNat ∧ a.seq < b.seq) := by
  simp [Key.less]

theorem Key.less_trans {a b c : Key} (h : a.less b = true) (g : b.less c = true) : a.less c = true := by
  rw [Key.less_iff] at *
  omega

theorem Key.not_less_of_less {a b : Key} (h : a.less b = true) : b.less a = false := by
  rw [Key.less_iff] at h
  rw [Bool.eq_false_iff, ne_eq, Key.less_iff]
  omega

/-- Of two keys with different sequence numbers one is less (R143: the order is total). -/
theorem Key.less_total {a b : Key} (h : a.seq ≠ b.seq) : a.less b = true ∨ b.less a = true := by
  rw [Key.less_iff, Key.less_iff]
  omega

/-- Removing the least key keeps the queue's keys. -/
theorem extractMin_perm (k : Key) (q : List Key) : ((extractMin k q).1 :: (extractMin k q).2).Perm (k :: q) := by
  induction q generalizing k with
  | nil => exact .refl _
  | cons x q ih =>
    unfold extractMin
    split
    · exact (List.Perm.swap _ _ _).trans ((ih x).cons k)
    · exact (List.Perm.swap _ _ _).trans (((ih k).cons x).trans (List.Perm.swap _ _ _))

theorem length_extractMin (k : Key) (q : List Key) : (extractMin k q).2.length = q.length := by
  have := (extractMin_perm k q).length_eq
  simpa using this

/-- No key of the queue is less than the one removed. -/
theorem extractMin_le (k : Key) (q : List Key) : ∀ x ∈ k :: q, x.less (extractMin k q).1 = false := by
  induction q generalizing k with
  | nil =>
    intro x hx
    rw [List.mem_singleton.1 hx]
    simp [extractMin, Key.less]
  | cons y q ih =>
    intro x hx
    unfold extractMin
    split
    · rename_i hy
      rcases List.mem_cons.1 hx with rfl | hx
      · have h1 := ih y y (List.mem_cons_self ..)
        by_contra hc
        have hc' : x.less (extractMin y q).1 = true := by simpa using hc
        exact absurd (Key.less_trans hy hc') (by simp [h1])
      · exact ih y x hx
    · rename_i hy
      rcases List.mem_cons.1 hx with rfl | hx
      · exact ih x x (List.mem_cons_self ..)
      · rcases List.mem_cons.1 hx with rfl | hx
        · have h1 := ih k k (List.mem_cons_self ..)
          dsimp only
          rw [Bool.eq_false_iff, ne_eq, Key.less_iff] at h1 ⊢
          rw [Key.less_iff] at hy
          omega
        · exact ih k x (List.mem_cons_of_mem _ hx)

theorem length_leavesOf (F : FreqTable) : (leavesOf F).length = (presentSymbols F).length := by simp [leavesOf, presentSymbols]

theorem length_startQueue (leaves : List Node) : (startQueue leaves).length = leaves.length := by simp [startQueue]

/-- The queue's sequence numbers at the start are the leaves' indices (R142). -/
theorem startQueue_seq (leaves : List Node) : (startQueue leaves).map Key.seq = List.range leaves.length := by
  simp only [startQueue, List.map_map]
  have : (Key.seq ∘ fun p : Node × Nat => ({ freq := p.1.freq, seq := p.2 } : Key)) = Prod.snd := rfl
  rw [this, List.zipIdx_map_snd, List.range_eq_range']

theorem mergeLoop_nil (fuel : Nat) (N : List Node) : mergeLoop fuel [] N = N := by cases fuel <;> rfl

theorem mergeLoop_single (fuel : Nat) (k : Key) (N : List Node) : mergeLoop fuel [k] N = N := by cases fuel <;> rfl

/-- One round of the merge loop (R144): the least key, the least of the rest, one internal node, one key inserted. -/
theorem mergeLoop_round (fuel : Nat) (k x : Key) (q : List Key) (N : List Node) :
    ∃ y r, (extractMin k (x :: q)).2 = y :: r ∧
      mergeLoop (fuel + 1) (k :: x :: q) N =
        mergeLoop fuel
          ({ freq := (extractMin k (x :: q)).1.freq + (extractMin y r).1.freq, seq := N.length } :: (extractMin y r).2)
          (N ++ [.internal ((extractMin k (x :: q)).1.freq + (extractMin y r).1.freq)
            (BitVec.ofNat 9 (extractMin k (x :: q)).1.seq) (BitVec.ofNat 9 (extractMin y r).1.seq)]) := by
  have hl := length_extractMin k (x :: q)
  cases hr : (extractMin k (x :: q)).2 with
  | nil => simp [hr] at hl
  | cons y r => exact ⟨y, r, rfl, by simp [mergeLoop, hr]⟩

/-- With enough fuel the loop runs one round for each key but the last (R145). -/
theorem length_mergeLoop (fuel : Nat) (q : List Key) (N : List Node) (h : q.length ≤ fuel + 1) :
    (mergeLoop fuel q N).length = N.length + (q.length - 1) := by
  induction fuel generalizing q N with
  | zero =>
    match q with
    | [] => simp [mergeLoop]
    | [_] => simp [mergeLoop]
    | _ :: _ :: _ => simp at h
  | succ fuel ih =>
    match q with
    | [] => simp [mergeLoop_nil]
    | [_] => simp [mergeLoop_single]
    | k :: x :: q =>
      obtain ⟨y, r, hr, he⟩ := mergeLoop_round fuel k x q N
      have h1 := length_extractMin k (x :: q)
      rw [hr] at h1
      have h2 := length_extractMin y r
      simp only [List.length_cons] at h h1
      rw [he, ih _ _ (by simp only [List.length_cons]; omega)]
      simp only [List.length_append, List.length_cons, List.length_nil]
      omega

end Sys2Proof.Machine
end

