-- ==== Sys2Proof/Laws/Codec.lean ====
section
/-! SUPPORT. The laws of the encoder's check and of the decoder's walk (44_encode.md R181, 45_decode.md R201, R202). -/

namespace Sys2Proof.Machine

/-! ### Encoder -/

theorem encodeSymbols_nil (C : CodeTable) : encodeSymbols C [] = [] := rfl

theorem encodeSymbols_cons {C : CodeTable} {x : Byte} {w : BitSeq} (h : C.at x = some w) (xs : List Byte) :
    encodeSymbols C (x :: xs) = w ++ encodeSymbols C xs := by simp [encodeSymbols, h]

theorem encodeSymbols_append (C : CodeTable) (xs ys : List Byte) :
    encodeSymbols C (xs ++ ys) = encodeSymbols C xs ++ encodeSymbols C ys := by simp [encodeSymbols]

/-- Pass 1 gets past symbols that all have codewords and fit. -/
theorem encodeCheck_append {C : CodeTable} {limit : Nat} {xs : List Byte} (ys : List Byte) (i total : Nat)
    (hx : ∀ x ∈ xs, C.at x ≠ none) (hl : total + (encodeSymbols C xs).length ≤ limit) :
    encodeCheck C limit (xs ++ ys) i total =
      encodeCheck C limit ys (i + xs.length) (total + (encodeSymbols C xs).length) := by
  induction xs generalizing i total with
  | nil => simp [encodeSymbols_nil]
  | cons x xs ih =>
    obtain ⟨w, hw⟩ := Option.ne_none_iff_exists'.1 (hx x (List.mem_cons_self ..))
    rw [encodeSymbols_cons hw, List.length_append] at hl ⊢
    simp only [List.cons_append, encodeCheck, hw]
    rw [if_neg (by omega), ih _ _ (fun y hy => hx y (List.mem_cons_of_mem _ hy)) (by omega)]
    congr 1
    · simp only [List.length_cons]; omega
    · omega

/-- Pass 1 succeeds exactly when every symbol has a codeword and the whole stream fits; it gives the stream's length. -/
theorem encodeCheck_ok {C : CodeTable} {limit : Nat} {xs : List Byte} {i total n : Nat}
    (h : encodeCheck C limit xs i total = .ok n) :
    (∀ x ∈ xs, C.at x ≠ none) ∧ n = total + (encodeSymbols C xs).length ∧ (total ≤ limit → n ≤ limit) := by
  induction xs generalizing i total with
  | nil =>
    simp only [encodeCheck, Except.ok.injEq] at h
    subst h
    simp [encodeSymbols_nil]
  | cons x xs ih =>
    unfold encodeCheck at h
    split at h
    · simp at h
    · rename_i w hw
      split at h
      · simp at h
      · obtain ⟨h1, h2, h3⟩ := ih h
        refine ⟨?_, ?_, fun _ => h3 (by omega)⟩
        · intro y hy
          rcases List.mem_cons.1 hy with rfl | hy
          · simp [hw]
          · exact h1 y hy
        · rw [encodeSymbols_cons hw, List.length_append]; omega

/-- Pass 1 never faults; it raises UNKNOWN_SYMBOL or BIT_OVERFLOW only. -/
theorem encodeCheck_error {C : CodeTable} {limit : Nat} {xs : List Byte} {i total : Nat} {e : Abort}
    (h : encodeCheck C limit xs i total = .error e) :
    ∃ j, e = .raise .unknownSymbol (BitVec.ofNat 32 j) ∨ e = .raise .bitOverflow (BitVec.ofNat 32 j) := by
  induction xs generalizing i total with
  | nil => simp [encodeCheck] at h
  | cons x xs ih =>
    unfold encodeCheck at h
    split at h
    · exact ⟨i, .inl (by simpa using h.symm)⟩
    · split at h
      · exact ⟨i, .inr (by simpa using h.symm)⟩
      · exact ih h

/-! ### Decoder -/

theorem follow_append (nodeAt : NodeIndex → Option Node) (i : NodeIndex) (u w : BitSeq) :
    follow nodeAt i (u ++ w) = (follow nodeAt i u).bind (fun k => follow nodeAt k w) := by
  induction u generalizing i with
  | nil => rfl
  | cons b u ih =>
    simp only [List.cons_append, follow]
    split
    · exact ih _
    · rfl

/-- On a tree whose root is internal, following bits that stay on internal nodes moves the cursor and emits nothing. -/
theorem decodeLoop_walk {nodeAt : NodeIndex → Option Node} {root cur k : NodeIndex} {outCap : Nat} {u : BitSeq}
    (hr : ∃ f l r, nodeAt root = some (.internal f l r)) (hf : follow nodeAt cur u = some k)
    (hk : ∃ f l r, nodeAt k = some (.internal f l r)) (bs : BitSeq) (p start : Nat) (out : List Byte) :
    decodeLoop nodeAt root outCap (u ++ bs) p cur start out =
      decodeLoop nodeAt root outCap bs (p + u.length) k start out := by
  obtain ⟨fr, lr, rr, hr'⟩ := hr
  obtain ⟨fk, lk, rk, hk'⟩ := hk
  induction u generalizing cur p with
  | nil =>
    simp only [follow, Option.some.injEq] at hf
    simp [hf]
  | cons b u ih =>
    unfold follow at hf
    split at hf
    · rename_i f l r hc
      have hn : ∃ g m n, nodeAt (if b then r else l) = some (.internal g m n) := by
        cases u with
        | nil => simp only [follow, Option.some.injEq] at hf; exact ⟨fk, lk, rk, hf ▸ hk'⟩
        | cons c u =>
          unfold follow at hf
          split at hf
          · rename_i g m n hg; exact ⟨g, m, n, hg⟩
          · simp at hf
      obtain ⟨g, m, n, hn'⟩ := hn
      simp only [List.cons_append, decodeLoop, cursorMove, hr', hc, hn']
      rw [ih hf (p + 1)]
      congr 1
      simp only [List.length_cons]
      omega
    · simp at hf

/-- The decoder never raises anything but INVALID_BIT, OUT_OVERFLOW and TRUNCATED_STREAM. -/
theorem decodeLoop_raise {nodeAt : NodeIndex → Option Node} {root : NodeIndex} {outCap : Nat} {bs : BitSeq} {p : Nat}
    {cur : NodeIndex} {start : Nat} {out : List Byte} {c : ErrCode} {i : Word}
    (h : decodeLoop nodeAt root outCap bs p cur start out = .error (.raise c i)) :
    c = .invalidBit ∨ c = .outOverflow ∨ c = .truncatedStream := by
  induction bs generalizing p cur start out with
  | nil =>
    unfold decodeLoop at h
    split at h
    · simp at h
    · simp only [Except.error.injEq, Abort.raise.injEq] at h
      exact .inr (.inr h.1.symm)
  | cons b bs ih =>
    unfold decodeLoop at h
    split at h
    · rename_i e he
      have he' : cursorMove nodeAt root cur b p = .error (.raise c i) := by simpa [he] using h
      unfold cursorMove at he'
      split at he'
      · simp at he'
      · split at he'
        · simp only [Except.error.injEq, Abort.raise.injEq] at he'
          exact .inl he'.1.symm
        · simp at he'
      · split at he'
        · dsimp only at he'
          split at he' <;> simp at he'
        · simp at he'
    · exact ih h
    · split at h
      · rename_i e he
        rw [h] at he
        unfold emit at he
        split at he
        · simp only [Except.error.injEq, Abort.raise.injEq] at he
          exact .inr (.inl he.1.symm)
        · simp at he
      · exact ih h

end Sys2Proof.Machine
end

