-- ==== Sys2Proof/Laws/PerInstr.lean ====
section
/-! SUPPORT. What holds of each command as syntax: its word is legal and its opcode names it (30_encoding.md R103). -/

namespace Sys2Proof.Laws.LegalWord

/-- The command is well formed, its word passes the form check of R104, and its OPCODE field is the opcode of R103 with
RSVD 0. -/
def Statement (i : Instr) : Prop :=
  i.wf = true ∧ commandWordWf (encode i) = true ∧ opcodeField (encode i) = opcodeOf i ∧ rsvdField (encode i) = 0#24

theorem nop : Statement .nop := by unfold Statement; decide
theorem softReset : Statement .softReset := by unfold Statement; decide
theorem freqBuild : Statement .freqBuild := by unfold Statement; decide
theorem treeBuild : Statement .treeBuild := by unfold Statement; decide
theorem codeDerive : Statement .codeDerive := by unfold Statement; decide
theorem encode : Statement .encode := by unfold Statement; decide
theorem decode : Statement .decode := by unfold Statement; decide

end Sys2Proof.Laws.LegalWord
end

