-- ==== Sys2Proof/Laws/Step.lean ====
section
/-! SUPPORT. What one step can do, said once: which turn is taken, and what each turn can answer. -/

namespace Sys2Proof.Machine

theorem step_eq (s : State) : step s = takeTurn s.nextTurn s.popTurn := rfl

theorem State.nextTurn_of_nil {s : State} (h : s.schedule = []) :
    s.nextTurn = if s.busy then .engine else .host := by simp [State.nextTurn, h]

theorem State.nextTurn_of_cons {s : State} {t : Turn} {ts : List Turn} (h : s.schedule = t :: ts) :
    s.nextTurn = t := by simp [State.nextTurn, h]

theorem State.issueNext_nextTurn (s : State) (w : Word) : (s.issueNext w).nextTurn = .engine := by
  cases h : s.schedule <;> simp [State.issueNext, State.nextTurn, h, State.busy, State.issue]

/-- What a performed access can do: a read answers a word and changes nothing; a write changes what its location takes. -/
theorem State.access_ok {s t : State} {a : HostAccess} {r : BusResponse} (h : s.access a = .ok (r, t)) :
    ∃ l, accessLoc s.params a = .ok l ∧
      ((∃ off w, a = .read off w ∧ r = .data (s.readLoc l) ∧ t = s) ∨
        ∃ off w e v, a = .write off w e v ∧ r = .written ∧ t = s.writeLoc v l) := by
  unfold State.access at h
  cases hl : accessLoc s.params a with
  | error e => simp [hl] at h
  | ok l =>
    refine ⟨l, rfl, ?_⟩
    cases a with
    | read off w =>
      simp only [hl, Except.ok.injEq, Prod.mk.injEq] at h
      exact .inl ⟨off, w, rfl, h.1.symm, h.2.symm⟩
    | write off w e v =>
      simp only [hl, Except.ok.injEq, Prod.mk.injEq] at h
      exact .inr ⟨off, w, e, v, rfl, h.1.symm, h.2.symm⟩

/-- What a host turn can answer with a next state. -/
theorem hostTurn_next {s t : State} (h : hostTurn s = .next t) :
    (s.host.code[s.host.pos]? = none ∧ t = s) ∨
    (∃ stmt a, s.host.code[s.host.pos]? = some stmt ∧ stmtAccess stmt = some a ∧ hostAccess s stmt a = .next t) ∨
    (∃ stmt, s.host.code[s.host.pos]? = some stmt ∧ stmtAccess stmt = none ∧ hostJump s stmt = .next t) := by
  unfold hostTurn at h
  cases hc : s.host.code[s.host.pos]? with
  | none => exact .inl ⟨rfl, by simpa [hc] using h.symm⟩
  | some stmt =>
    cases ha : stmtAccess stmt with
    | some a => exact .inr (.inl ⟨stmt, a, rfl, ha, by simpa [hc, ha] using h⟩)
    | none => exact .inr (.inr ⟨stmt, rfl, ha, by simpa [hc, ha] using h⟩)

/-- What a statement's access can answer with a next state: held, or performed with the host gone on. -/
theorem hostAccess_next {s t : State} {stmt : HostStmt} {a : HostAccess} (h : hostAccess s stmt a = .next t) :
    (s.held a = true ∧ t = s.hostWait) ∨
    (s.held a = false ∧ ∃ u, s.access a = .ok (.written, u) ∧ t = u.hostAt (s.host.pos + 1)) ∨
    (s.held a = false ∧ ∃ v u, s.access a = .ok (.data v, u) ∧
      (t = u.hostAt (s.host.pos + 1) ∨ ∃ x, t = (u.hostAt (s.host.pos + 1)).hostAssign x v)) := by
  unfold hostAccess at h
  cases hh : s.held a with
  | true => exact .inl ⟨rfl, by simpa [hh] using h.symm⟩
  | false =>
    rw [hh, if_neg (by simp)] at h
    split at h
    · simp at h
    · rename_i u hu
      exact .inr (.inl ⟨rfl, u, hu, by simpa using h.symm⟩)
    · rename_i v u hu
      refine .inr (.inr ⟨rfl, v, u, hu, ?_⟩)
      cases stmt with
      | r off x => exact .inr ⟨x, by simpa [hostReceive] using h.symm⟩
      | expect off want =>
        simp only [hostReceive] at h
        split at h
        · exact .inl (by simpa using h.symm)
        · simp at h
      | _ => exact .inl (by simpa [hostReceive] using h.symm)

/-- What a jump of the host can answer: only the host moves. -/
theorem hostJump_next {s t : State} {stmt : HostStmt} (h : hostJump s stmt = .next t) :
    t = s ∨ ∃ pos, t = s.hostAt pos := by
  cases stmt with
  | branch c target =>
    simp only [hostJump] at h
    split at h
    · simp at h
    · exact .inr ⟨target, by simpa using h.symm⟩
    · exact .inr ⟨s.host.pos + 1, by simpa using h.symm⟩
  | goto target => exact .inr ⟨target, by simpa [hostJump] using h.symm⟩
  | _ => exact .inl (by simpa [hostJump] using h.symm)

/-- What a reset turn can answer with a next state. -/
theorem resetTurn_next {s t : State} (h : resetTurn s = .next t) :
    t = s.hardReset ∨ t = s.hardReset.hostAt (s.host.pos + 1) := by
  unfold resetTurn at h
  split at h
  · exact .inl (by simpa using h.symm)
  · split at h
    · simp at h
    · exact .inr (by simpa using h.symm)

/-- What an engine turn can answer with a next state: nothing pending, a legal command run, or an illegal word
completed. -/
theorem engineTurn_next {s t : State} (h : engineTurn s = .next t) :
    (s.pending = none ∧ t = s) ∨
    (∃ w i, s.pending = some w ∧ decodeCmd w = .ok i ∧ exec i s = .next t) ∨
    (∃ w e, s.pending = some w ∧ decodeCmd w = .error e ∧ t = s.complete .badCommand w) := by
  unfold engineTurn at h
  cases hp : s.pending with
  | none => exact .inl ⟨rfl, by simpa [hp] using h.symm⟩
  | some w =>
    rw [hp] at h
    simp only [perform] at h
    cases hd : decodeCmd w with
    | ok i => exact .inr (.inl ⟨w, i, rfl, hd, by simpa [hd] using h⟩)
    | error e => exact .inr (.inr ⟨w, e, rfl, hd, by simpa [hd, execIllegal] using h.symm⟩)

/-- A step answers what the turn it takes answers, from the state with that turn taken off the schedule. -/
theorem step_next {s t : State} (h : step s = .next t) :
    (s.nextTurn = .host ∧ hostTurn s.popTurn = .next t) ∨
    (s.nextTurn = .engine ∧ engineTurn s.popTurn = .next t) ∨
    (s.nextTurn = .reset ∧ resetTurn s.popTurn = .next t) := by
  rw [step_eq] at h
  cases hn : s.nextTurn with
  | host => exact .inl ⟨rfl, by rw [hn] at h; exact h⟩
  | engine => exact .inr (.inl ⟨rfl, by rw [hn] at h; exact h⟩)
  | reset => exact .inr (.inr ⟨rfl, by rw [hn] at h; exact h⟩)

end Sys2Proof.Machine
end

