-- ==== Sys2Proof/Tests/Slice0.lean ====
section
/-! SUPPORT. Tests against the vectors of spec/95_test_vectors.md and the rules' own examples, the smoke tests of the form
checks, and for every statement with hypotheses a witness that meets them. -/

namespace Sys2Proof.Tests

open Sys2Proof Sys2Proof.Machine

/-! ### Helpers -/

/-- The outcome is a next state that satisfies `p`. -/
def after (o : Outcome) (p : State → Bool) : Bool :=
  match o with
  | .next t => p t
  | _ => false

theorem exists_of_after {o : Outcome} {p : State → Bool} (h : after o p = true) : ∃ t, o = .next t ∧ p t = true := by
  cases o with
  | next t => exact ⟨t, rfl, h⟩
  | fault f => simp [after] at h
  | refused r => simp [after] at h

/-- The reset state with the capacities of 95: 64 bytes each. -/
def idle : State := { State.reset with params := { symWords := 15, bitWords := 15, outWords := 15 } }

/-- A state with the given input symbols. -/
def input (s : State) (bytes : List Byte) : State :=
  { s with symIn := Memory.store [] 0 bytes, symLen := BitVec.ofNat 32 bytes.length }

/-- A state with the given packed stream of `n` bits. -/
def stream (s : State) (bytes : List Byte) (n : Nat) : State :=
  { s with bitBuf := Memory.store [] 0 bytes, bitLen := BitVec.ofNat 32 n }

/-- A state whose host program is `code`. -/
def hosted (s : State) (code : List HostStmt) : State := { s with host := { HostThread.idle with code := code } }

/-- "AAABBC" -/
def aaabbc : List Byte := [0x41#8, 0x41#8, 0x41#8, 0x42#8, 0x42#8, 0x43#8]

/-- The session of "AAABBC" after ENCODE: V-FB-1, V-TB-1, V-CD-1, V-EN-1 of 95. -/
def session : State :=
  { stream (input idle aaabbc) [0x1F#8, 0x00#8] 9 with
    done := true
    treeValid := true
    codeValid := true
    root := 4#9
    nleaf := 3#9
    freq := ((FreqTable.empty.put 0x41#8 3#32).put 0x42#8 2#32).put 0x43#8 1#32
    nodes := [.leaf 0x41#8 3#32, .leaf 0x42#8 2#32, .leaf 0x43#8 1#32, .internal 3#32 2#9 1#9, .internal 6#32 0#9 3#9]
    code := ((CodeTable.empty.put 0x41#8 [false]).put 0x42#8 [true, true]).put 0x43#8 [true, false] }

/-- The session of "AAAA" after CODE_DERIVE (V-TB-2, V-CD-2) with the stream "0010" of V-DE-12. -/
def leafSession : State :=
  { stream (input idle [0x41#8, 0x41#8, 0x41#8, 0x41#8]) [0x20#8] 4 with
    treeValid := true
    codeValid := true
    nleaf := 1#9
    freq := FreqTable.empty.put 0x41#8 4#32
    nodes := [.leaf 0x41#8 4#32]
    code := CodeTable.empty.put 0x41#8 [false] }

/-! ### Form checks: each refuses an ill-formed term -/

theorem smoke_wf_commands : Instr.wf .nop = true ∧ Instr.wf .decode = true := by decide

theorem smoke_command_word : commandWordWf 0x06000000#32 = true ∧ commandWordWf 0x06000001#32 = false ∧
    commandWordWf 0x07000000#32 = false := by decide

theorem smoke_access_width : (memRead 0x00C#26).wf = true ∧ (HostAccess.read 0x00C#26 .byte).wf = false := by decide

theorem smoke_access_enables : (HostAccess.write 0x018#26 .word 0x7#4 0#32).wf = false := by decide

theorem smoke_access_alignment : (memWrite 0x01A#26 1#32).wf = false := by decide

theorem smoke_program : hostProgramWf (expandCompress 0 0 15) = true ∧ hostProgramWf [.goto 2] = false ∧
    hostProgramWf [.branch (.bitSet 0 32) 0] = false := by decide

/-! ### Decoding: words written out from the fields of R100 and R103 -/

theorem test_decode_nop : decodeCmd (0b00000000#8 ++ 0#24) = .ok .nop := rfl
theorem test_decode_softReset : decodeCmd (0b00000001#8 ++ 0#24) = .ok .softReset := rfl
theorem test_decode_freqBuild : decodeCmd (0b00000010#8 ++ 0#24) = .ok .freqBuild := rfl
theorem test_decode_treeBuild : decodeCmd (0b00000011#8 ++ 0#24) = .ok .treeBuild := rfl
theorem test_decode_codeDerive : decodeCmd (0b00000100#8 ++ 0#24) = .ok .codeDerive := rfl
theorem test_decode_encode : decodeCmd (0b00000101#8 ++ 0#24) = .ok .encode := rfl
theorem test_decode_decode : decodeCmd (0b00000110#8 ++ 0#24) = .ok .decode := rfl
theorem test_decode_reserved : decodeCmd 0xFF000000#32 = .error .reservedOpcode := rfl
theorem test_decode_rsvd_first : decodeCmd 0x02000001#32 = .error .reservedBits := rfl

/-! ### Commands -/

/-- V-RG-18: NOP after a failed TREE_BUILD keeps ERR_STICKY. -/
theorem test_nop : after (exec .nop { idle with errCode := .emptyInput, errSticky := true, done := true })
    (fun t => t.errCodeWord == 0#32 && t.statusWord == 0x06#32) = true := by decide +kernel

/-- V-RG-19: SOFT_RESET after V-EN-1. -/
theorem test_softReset : after (exec .softReset session)
    (fun t => t.statusWord == 0x02#32 && t.freq.at 0x41#8 == 0#32 && t.readBufferWord .symIn 0 == 0x41414142#32)
      = true := by decide +kernel

/-- V-FB-1 -/
theorem test_freqBuild : after (exec .freqBuild (input idle aaabbc))
    (fun t => t.freq.at 0x41#8 == 3#32 && t.freq.at 0x42#8 == 2#32 && t.freq.at 0x43#8 == 1#32 && t.freq.at 0#8 == 0#32)
      = true := by decide +kernel

/-- V-FB-5 -/
theorem test_freqBuild_badLength : after (exec .freqBuild { idle with symLen := 0xFFFFFFFF#32 })
    (fun t => t.errCodeWord == 0x07#32 && t.errInfo == 0xFFFFFFFF#32) = true := by decide +kernel

/-- V-TB-9: "AABBCCDDE", where leaves and internal nodes tie. -/
theorem test_treeBuild_ties : after (exec .treeBuild { idle with
      freq := ((((FreqTable.empty.put 0x41#8 2#32).put 0x42#8 2#32).put 0x43#8 2#32).put 0x44#8 2#32).put 0x45#8 1#32 })
    (fun t => t.nodes.drop 5 ==
        [.internal 3#32 4#9 0#9, .internal 4#32 1#9 2#9, .internal 5#32 3#9 5#9, .internal 9#32 6#9 7#9]
      && t.root == 8#9 && t.nleaf == 5#9) = true := by decide +kernel

/-- V-TB-3: after V-TB-1, an empty FREQ fails and keeps the old tree. -/
theorem test_treeBuild_empty : after (exec .treeBuild { session with freq := FreqTable.empty })
    (fun t => t.statusWord == 0x1E#32 && t.root == 4#9 && t.nleaf == 3#9) = true := by decide +kernel

/-- V-CD-1 -/
theorem test_codeDerive : after (exec .codeDerive { session with codeValid := false, code := CodeTable.empty })
    (fun t => t.code.at 0x41#8 == some [false] && t.code.at 0x42#8 == some [true, true]
      && t.code.at 0x43#8 == some [true, false] && t.code.at 0x44#8 == none) = true := by decide +kernel

/-- V-CD-2: the single leaf gets "0". -/
theorem test_codeDerive_single : after (exec .codeDerive { leafSession with codeValid := false, code := CodeTable.empty })
    (fun t => t.code.at 0x41#8 == some [false] && t.codeValid) = true := by decide +kernel

/-- V-EN-1 with the bytes past the stream of R184 ("0x1F00_FFFF"). -/
theorem test_encode : after (exec .encode (stream session [0xFF#8, 0xFF#8, 0xFF#8, 0xFF#8] 0))
    (fun t => t.bitLen == 9#32 && t.bitBytes == 2#32 && t.readBufferWord .bitBuf 0 == 0x1F00FFFF#32) = true := by
  decide +kernel

/-- V-EN-10 -/
theorem test_encode_unknown : after (exec .encode (input session [0x41#8, 0x41#8, 0x5A#8]))
    (fun t => t.errCodeWord == 0x02#32 && t.errInfo == 2#32 && t.bitLen == 9#32) = true := by decide +kernel

/-- V-DE-1 -/
theorem test_decode : after (exec .decode session)
    (fun t => t.outLen == 6#32 && t.outputSymbols == aaabbc) = true := by decide +kernel

/-- V-DE-2c -/
theorem test_decode_truncated : after (exec .decode { session with bitLen := 8#32, outLen := 99#32 })
    (fun t => t.errCodeWord == 0x03#32 && t.errInfo == 7#32 && t.outLen == 99#32) = true := by decide +kernel

/-- Section 2 of 95: 0x0200_0001 from the reset state. -/
theorem test_illegal : after (step { idle with pending := some 0x02000001#32 })
    (fun t => t.errCodeWord == 0x0B#32 && t.errInfo == 0x02000001#32 && t.statusWord == 0x06#32) = true := by
  decide +kernel

/-! ### Registers, windows and the bus -/

/-- V-RG-12 -/
theorem test_status_write : ({ session with errSticky := true } : State).statusWord = 0x1E#32 ∧
    (({ session with errSticky := true } : State).writeLoc 0x06#32 .status).statusWord = 0x18#32 := by decide +kernel

/-- V-RG-5 -/
theorem test_bitBytes : ({ idle with bitLen := 0xFFFFFFFF#32 } : State).readLoc .bitBytes = 0x20000000#32 := by decide

/-- Window reads after V-TB-1 (section 4 of 95). -/
theorem test_node_window : session.readLoc (.node 0#9 0#2) = 0xC0000041#32 ∧
    session.readLoc (.node 3#9 1#2) = 0x00010002#32 ∧ session.readLoc (.node 5#9 0#2) = 0#32 := by decide +kernel

/-- The offsets of V-CD-1 (section 5 of 95). -/
theorem test_code_window : locate session.params 0x904#26 = some (.codeLen 0x41#8) ∧
    locate session.params 0x4840#26 = some (.codeBits 0x42#8 0#3) ∧
    session.readLoc (.codeBits 0x42#8 0#3) = 0xC0000000#32 ∧ session.readLoc (.codeLen 0x43#8) = 2#32 := by
  decide +kernel

/-- V-RG-7, V-RG-9 -/
theorem test_unmapped : locate idle.params 0x03C#26 = none ∧ locate idle.params 0xC00#26 = none ∧
    locate idle.params 0x3000#26 = none ∧ locate idle.params 0x1000040#26 = none := by decide

/-- V-RG-14: a STATUS read while BUSY = 1 reads BUSY = 1, DONE = 0, here with the tree and code of the session. -/
theorem test_status_while_busy : after (step
      { hosted session [.r 0x00C#26 7] with pending := some 0#32, done := false, schedule := [.host] })
    (fun t => t.host.vars == [(7, 0x19#32)] && t.busy) = true := by decide +kernel

/-- `LOADSYM "AAABBC"` and `LOADBITS "00011111"` as P1 and P3 of 95 write them out. -/
theorem test_loadsym : expandLoadSym aaabbc =
    [.w 0x1000000#26 0x41414142#32, .w 0x1000004#26 0x42430000#32, .w 0x018#26 6#32] := by decide +kernel

theorem test_loadbits : expandLoadBits [false, false, false, true, true, true, true, true] =
    [.w 0x2000000#26 0x1F000000#32, .w 0x01C#26 8#32] := by decide +kernel

/-! ### Witnesses: the hypotheses of the statements are met together -/

/-- The invariant holds of a session with a tree, a code table and a stream. -/
theorem session_inv : session.Inv where
  buffers := by decide +kernel
  tree _ := ⟨⟨by decide, by decide, by decide, by decide, by decide, by decide, by decide⟩, by decide⟩
  noTree h := absurd h (by decide)
  code _ := ⟨rfl, by decide +kernel⟩
  counts := by decide +kernel
  output := by decide
  okInfo _ := rfl
  busyDone h := absurd h (by decide)
  noDefect := by decide

theorem leafSession_inv : leafSession.Inv where
  buffers := by decide +kernel
  tree _ := ⟨⟨by decide, by decide, by decide, by decide, by decide, by decide, by decide⟩, by decide⟩
  noTree h := absurd h (by decide)
  code _ := ⟨rfl, by decide +kernel⟩
  counts := by decide +kernel
  output := by decide
  okInfo _ := rfl
  busyDone h := absurd h (by decide)
  noDefect := by decide

/-- The session with a command pending. -/
def busySession : State := { session with pending := some 0x04000000#32, done := false }

theorem busySession_inv : busySession.Inv :=
  { session_inv with
    okInfo := fun _ => rfl
    busyDone := fun _ => rfl
    noDefect := by decide }

theorem witness_DecodeAndEncodeAgree :
    Instr.wf .decode = true ∧ decodeCmd 0x06000000#32 = .ok .decode := by decide

theorem witness_IllegalWordsCompleteBadCommand :
    decodeCmd 0x07000000#32 = .error .reservedOpcode ∧ rsvdField 0x06000001#32 ≠ 0#24 ∧
    decodeCmd 0x06000001#32 = .error .reservedBits ∧ (opcodeField 0x07000000#32).toNat = 7 := by decide

theorem witness_StepRunsDecodedCommand :
    (busySession.schedule = [] ∧ busySession.busy = true ∧ busySession.nextTurn = .engine ∧
      busySession.pending = some 0x04000000#32 ∧ decodeCmd 0x04000000#32 = .ok .codeDerive) ∧
    (({ busySession with pending := some 0x07000000#32 } : State).nextTurn = .engine ∧
      decodeCmd 0x07000000#32 = .error .reservedOpcode) ∧
    (({ session with schedule := [.engine] } : State).nextTurn = .engine ∧ session.pending = none) := by
  decide

theorem witness_FetchedWordRunsNext : Instr.wf .treeBuild = true := by decide

theorem witness_EveryCommandCompletes : ∃ s w, State.Inv s ∧ s.pending = some w := ⟨_, _, busySession_inv, rfl⟩

theorem witness_StepKeepsInvariant : ∃ s t, State.Inv s ∧ step s = .next t ∧ t.codeValid = true := by
  obtain ⟨t, h, ht⟩ := exists_of_after (o := step busySession) (p := fun t => t.codeValid) (by decide +kernel)
  exact ⟨_, t, busySession_inv, h, ht⟩

theorem witness_FailedCommandChangesOnlyRecord : ∃ t, perform 0x02000001#32 session = .next t ∧ t.errCode ≠ .ok :=
  ⟨_, rfl, by decide⟩

theorem witness_CompletionRecordOfEveryCommand :
    (∃ t, perform 0x00000000#32 session = .next t ∧ t.errCode = .ok) ∧
    (∃ t, perform 0x01000000#32 session = .next t) ∧
    (∃ t, perform 0x04000000#32 idle = .next t ∧ t.errCode ≠ .ok) :=
  ⟨⟨_, rfl, rfl⟩, ⟨_, rfl⟩, ⟨_, rfl, by decide⟩⟩

theorem every_command_completes_in_session :
    ∀ i ∈ [Instr.nop, .softReset, .freqBuild, .treeBuild, .codeDerive, .encode, .decode],
      after (exec i session) (fun t => t.errCode == .ok) = true := by decide +kernel

theorem witness_CommandsReportOnlyTheirCodes : (∃ t, exec .encode session = .next t) ∧
    (∃ t, exec .decode session = .next t) ∧ (∃ t, perform 0xFF000000#32 session = .next t) :=
  ⟨(exists_of_after (every_command_completes_in_session .encode (by decide))).imp fun _ h => h.1,
    (exists_of_after (every_command_completes_in_session .decode (by decide))).imp fun _ h => h.1, ⟨_, rfl⟩⟩

theorem witness_CommandsWriteOnlyTheirOperands : ∃ t, exec .treeBuild session = .next t :=
  (exists_of_after (every_command_completes_in_session .treeBuild (by decide))).imp fun _ h => h.1

theorem witness_FreqBuildCountsSymbols :
    session.symLen.toNat ≤ session.params.symCap ∧
    ({ session with symLen := 64#32 } : State).symLen.toNat ≤ session.params.symCap ∧
    session.params.symCap < ({ session with symLen := 65#32 } : State).symLen.toNat := by decide

theorem witness_FreqCountsSumToLength : ∃ t, exec .freqBuild session = .next t ∧ t.errCode = .ok := by
  obtain ⟨t, h, ht⟩ := exists_of_after (every_command_completes_in_session .freqBuild (by decide))
  exact ⟨t, h, by simpa using ht⟩

theorem witness_TreeBuildWritesTree : ∃ x, session.freq.at x ≠ 0#32 := ⟨0x41#8, by decide +kernel⟩

theorem witness_TreeBuildRejectsEmptyTable : ∀ x, idle.freq.at x = 0#32 := by decide +kernel

theorem witness_TreeIsFullBinaryTree :
    freqTotal session.freq ≤ session.params.symCap ∧ ∃ t, exec .treeBuild session = .next t ∧ t.errCode = .ok := by
  obtain ⟨t, h, ht⟩ := exists_of_after (every_command_completes_in_session .treeBuild (by decide))
  exact ⟨session_inv.counts, t, h, by simpa using ht⟩

theorem witness_MergesTakeLeastKeys : ∃ t, exec .treeBuild session = .next t ∧ t.errCode = .ok ∧
    t.nodes[3]? = some (.internal 3#32 2#9 1#9) := by
  obtain ⟨t, h, ht⟩ := exists_of_after (o := exec .treeBuild session)
    (p := fun t => t.errCode == .ok && t.nodes[3]? == some (.internal 3#32 2#9 1#9)) (by decide +kernel)
  exact ⟨t, h, by simpa using ht⟩

theorem witness_TreeDependsOnFrequenciesOnly : session.freq = busySession.freq ∧
    (∃ t, exec .treeBuild session = .next t) ∧ ∃ t, exec .treeBuild busySession = .next t :=
  ⟨rfl, (exists_of_after (p := fun _ => true) (by decide +kernel)).imp fun _ h => h.1,
    (exists_of_after (p := fun _ => true) (by decide +kernel)).imp fun _ h => h.1⟩

theorem witness_MoreFrequentSymbolsGetNoLongerCodes : freqTotal session.freq ≤ session.params.symCap ∧
    ∃ t u, exec .treeBuild session = .next t ∧ t.errCode = .ok ∧ exec .codeDerive t = .next u ∧ u.errCode = .ok ∧
      (session.freq.at 0x43#8).toNat < (session.freq.at 0x41#8).toNat ∧ u.code.at 0x41#8 = some [false] ∧
      u.code.at 0x43#8 = some [true, false] := by
  obtain ⟨t, h, ht⟩ := exists_of_after (o := exec .treeBuild session)
    (p := fun t => t.errCode == .ok && after (exec .codeDerive t) (fun u => u.errCode == .ok &&
      u.code.at 0x41#8 == some [false] && u.code.at 0x43#8 == some [true, false])) (by decide +kernel)
  simp only [Bool.and_eq_true, beq_iff_eq] at ht
  obtain ⟨u, hu, hc⟩ := exists_of_after ht.2
  simp only [Bool.and_eq_true, beq_iff_eq] at hc
  exact ⟨session_inv.counts, t, u, h, ht.1, hu, hc.1.1, by decide +kernel, hc.1.2, hc.2⟩

theorem witness_CodeDeriveGivesPathCodewords : (session.Inv ∧ session.treeValid = true) ∧
    (leafSession.Inv ∧ leafSession.treeValid = true) := ⟨⟨session_inv, rfl⟩, ⟨leafSession_inv, rfl⟩⟩

theorem witness_CodeDeriveNeedsTree : idle.treeValid = false := rfl

theorem witness_CodeTableIsPrefixFree : session.Inv ∧ session.codeValid = true := ⟨session_inv, rfl⟩

theorem witness_CodewordLengthIsDepth :
    (session.Inv ∧ session.codeValid = true ∧ session.code.at 0x42#8 = some [true, true] ∧ 2 ≤ session.nleaf.toNat) ∧
    (leafSession.Inv ∧ leafSession.codeValid = true ∧ leafSession.code.at 0x41#8 = some [false] ∧
      leafSession.nleaf.toNat = 1) :=
  ⟨⟨session_inv, rfl, by decide +kernel, by decide⟩, ⟨leafSession_inv, rfl, by decide +kernel, by decide⟩⟩

/-- A FREQ_BUILD on other input between TREE_BUILD and CODE_DERIVE, and another after it. -/
theorem witness_CodeTableCoversPresentSymbols : session.Inv ∧
    ∃ t u v b, exec .treeBuild session = .next t ∧ t.errCode = .ok ∧ exec .freqBuild (input t [0x5A#8]) = .next u ∧
      (u.nodes = t.nodes ∧ u.root = t.root ∧ u.nleaf = t.nleaf ∧ u.treeValid = true) ∧
      exec .codeDerive u = .next v ∧ v.errCode = .ok ∧ exec .freqBuild v = .next b := by
  obtain ⟨t, h, ht⟩ := exists_of_after (o := exec .treeBuild session)
    (p := fun t => t.errCode == .ok && after (exec .freqBuild (input t [0x5A#8])) (fun u =>
      u.nodes == t.nodes && u.root == t.root && u.nleaf == t.nleaf && u.treeValid &&
      after (exec .codeDerive u) (fun v => v.errCode == .ok && after (exec .freqBuild v) (fun _ => true))))
    (by decide +kernel)
  simp only [Bool.and_eq_true, beq_iff_eq] at ht
  obtain ⟨u, hu, hk⟩ := exists_of_after ht.2
  simp only [Bool.and_eq_true, beq_iff_eq] at hk
  obtain ⟨v, hv, hb⟩ := exists_of_after hk.2
  simp only [Bool.and_eq_true, beq_iff_eq] at hb
  obtain ⟨b, hb', -⟩ := exists_of_after hb.2
  exact ⟨session_inv, t, u, v, b, h, ht.1, hu, ⟨hk.1.1.1.1, hk.1.1.1.2, hk.1.1.2, hk.1.2⟩, hv, hb.1, hb'⟩

theorem witness_EncodePacksCodewords : session.codeValid = true ∧ session.symLen.toNat ≤ session.params.symCap ∧
    (∀ x ∈ session.inputSymbols, session.code.at x ≠ none) ∧
    (session.inputSymbols.flatMap (fun x => (session.code.at x).getD [])).length ≤ 8 * session.params.bitCap := by
  decide +kernel

/-- V-EN-12: exactly 8·BIT_CAP bits fit. -/
theorem witness_EncodePacksCodewords_full :
    let s := input { session with params := { session.params with bitWords := 0 } } (List.replicate 16 0x43#8)
    (∀ x ∈ s.inputSymbols, s.code.at x ≠ none) ∧
    (s.inputSymbols.flatMap (fun x => (s.code.at x).getD [])).length = 8 * s.params.bitCap := by
  decide +kernel

theorem witness_EncodeChecksTableThenLength : idle.codeValid = false ∧ session.codeValid = true ∧
    session.params.symCap < ({ session with symLen := 65#32 } : State).symLen.toNat := by decide

/-- V-EN-16 and V-EN-13 -/
theorem witness_EncodeReportsFirstBadSymbol :
    let s := input { session with params := { session.params with bitWords := 0 } } (List.replicate 16 0x43#8 ++ [0x5A#8])
    let u := input { session with params := { session.params with bitWords := 0 } } (List.replicate 16 0x43#8 ++ [0x41#8])
    (s.codeValid = true ∧ s.symLen.toNat ≤ s.params.symCap ∧
      s.inputSymbols = List.replicate 16 0x43#8 ++ 0x5A#8 :: [] ∧
      (∀ y ∈ List.replicate 16 0x43#8, s.code.at y ≠ none) ∧
      ((List.replicate 16 0x43#8).flatMap (fun y => (s.code.at y).getD [])).length ≤ 8 * s.params.bitCap ∧
      s.code.at 0x5A#8 = none) ∧
    (u.inputSymbols = List.replicate 16 0x43#8 ++ 0x41#8 :: [] ∧ u.code.at 0x41#8 = some [false] ∧
      8 * u.params.bitCap <
        ((List.replicate 16 0x43#8).flatMap (fun y => (u.code.at y).getD [])).length + [false].length) := by
  decide +kernel

/-! The codewords of the sessions' trees. -/

theorem codeword_A (s : State) (hn : s.nodes = session.nodes) (ht : s.treeValid = true) (hr : s.root = 4#9)
    (hl : s.nleaf = 3#9) : s.isCodeword 0x41#8 [false] := by
  have e : s.nodeAt = session.nodeAt := by
    funext i; simp [State.nodeAt, State.nodeCount, hn, ht, hl, session, stream, input, idle]
  unfold State.isCodeword
  rw [hr, e]
  exact ⟨0#9, 3#32, by decide, by decide⟩

theorem session_codewords : session.areCodewords
    [([false], 0x41#8), ([false], 0x41#8), ([false], 0x41#8), ([true, true], 0x42#8), ([true, true], 0x42#8),
      ([true, false], 0x43#8)] := by
  have hB : session.isCodeword 0x42#8 [true, true] := ⟨1#9, 2#32, by decide, by decide⟩
  have hC : session.isCodeword 0x43#8 [true, false] := ⟨2#9, 1#32, by decide, by decide⟩
  have hA := codeword_A session rfl rfl rfl rfl
  simp [State.areCodewords, hA, hB, hC]

theorem witness_DecodeEmitsSymbolsOfCodewords : ∃ ws, session.treeValid = true ∧
    session.bitLen.toNat ≤ 8 * session.params.bitCap ∧ session.areCodewords ws ∧
    session.bitstream = ws.flatMap Prod.fst ∧ ws.length ≤ session.params.outCap :=
  ⟨_, rfl, by decide, session_codewords, by decide +kernel, by decide⟩

theorem witness_DecodeChecksTreeThenLength : idle.treeValid = false ∧ session.treeValid = true ∧
    8 * session.params.bitCap < ({ session with bitLen := 513#32 } : State).bitLen.toNat := by decide

/-- V-DE-3: one bit into a codeword. -/
theorem witness_DecodeRejectsTruncatedStream :
    let s := stream session [0x80#8] 1
    s.treeValid = true ∧ s.bitLen.toNat ≤ 8 * s.params.bitCap ∧ s.areCodewords [] ∧
    ([] : List (BitSeq × Byte)).length ≤ s.params.outCap ∧
    s.bitstream = ([] : List (BitSeq × Byte)).flatMap Prod.fst ++ [true] ∧ [true] ≠ [] ∧
    follow s.nodeAt s.root [true] = some 3#9 ∧ 3#9 ≠ s.root ∧ s.nodeAt 3#9 = some (.internal 3#32 2#9 1#9) := by
  refine ⟨rfl, by decide, ?_, by decide, by decide, by decide, by decide, by decide, by decide⟩
  simp [State.areCodewords]

/-- V-DE-12 and V-DE-11 -/
theorem witness_SingleLeafTreeDecodesZeros :
    (leafSession.treeValid = true ∧ leafSession.bitLen.toNat ≤ 8 * leafSession.params.bitCap ∧
      leafSession.nodeAt leafSession.root = some (.leaf 0x41#8 4#32) ∧
      leafSession.bitstream = List.replicate 2 false ++ true :: [false] ∧ 2 ≤ leafSession.params.outCap) ∧
    ((stream leafSession [0#8] 4).bitstream = List.replicate 4 false) ∧
    (∃ t, exec .decode leafSession = .next t) := by
  refine ⟨by decide, by decide, ?_⟩
  exact (exists_of_after (p := fun _ => true) (by decide +kernel)).imp fun _ h => h.1

/-- V-DE-8: five symbols and a truncated one with OUT_CAP = 4. -/
theorem witness_DecodeRejectsOutputOverflow :
    let s := stream { session with params := { session.params with outWords := 0 } } [0x04#8] 6
    let ws : List (BitSeq × Byte) := List.replicate 5 ([false], 0x41#8)
    s.treeValid = true ∧ s.bitLen.toNat ≤ 8 * s.params.bitCap ∧ s.areCodewords ws ∧
    ws.length = s.params.outCap + 1 ∧ s.bitstream = ws.flatMap Prod.fst ++ [true] := by
  refine ⟨rfl, by decide, ?_, by decide, by decide⟩
  intro p hp
  rw [List.eq_of_mem_replicate hp]
  exact codeword_A _ rfl rfl rfl rfl

/-- The round trip of "AAABBC": its input and the stream under the code table of the run fit, and SYM_LEN = 0 is met. -/
theorem witness_CodecRoundTrip : session.symLen.toNat ≤ session.params.symCap ∧ 1 ≤ session.symLen.toNat ∧
    session.symLen.toNat ≤ session.params.outCap ∧ idle.symLen.toNat = 0 ∧
    ∃ a b c, exec .freqBuild session = .next a ∧ exec .treeBuild a = .next b ∧ exec .codeDerive b = .next c ∧
      ceil8 (session.inputSymbols.flatMap (fun x => (c.code.at x).getD [])).length ≤ session.params.bitCap := by
  obtain ⟨a, ha, pa⟩ := exists_of_after (o := exec .freqBuild session)
    (p := fun a => after (exec .treeBuild a) (fun b => after (exec .codeDerive b) (fun c =>
      decide (ceil8 (session.inputSymbols.flatMap (fun x => (c.code.at x).getD [])).length ≤ session.params.bitCap))))
    (by decide +kernel)
  obtain ⟨b, hb, pb⟩ := exists_of_after pa
  obtain ⟨c, hc, pc⟩ := exists_of_after pb
  exact ⟨by decide, by decide, by decide, rfl, a, b, c, ha, hb, hc, of_decide_eq_true pc⟩

theorem witness_HardwareResetValues : ∃ t, (t = busySession.hardReset ∨ t = State.reset) ∧ t = busySession.hardReset :=
  ⟨_, .inl rfl, rfl⟩

/-- A host that waits with a held access, and one that does not. -/
theorem witness_ResetAbandonsCommand :
    (hosted busySession []).heldAccess = none ∧
    ({ busySession with host := { code := [.r 0x010#26 0], pos := 0, vars := [], waiting := true } } : State).heldAccess =
      some (memRead 0x010#26) ∧
    ∃ t, resetTurn busySession = .next t := ⟨rfl, rfl, _, rfl⟩

theorem witness_CtrlHoldsInterruptEnable : ∃ t, exec .softReset session = .next t := ⟨_, rfl⟩

theorem witness_LengthRegistersReadBack : ({ session with bitLen := 0xFFFFFFFF#32 } : State).bitLen = 0xFFFFFFFF#32 := rfl

theorem witness_CapacitiesAreConstant : ∃ t, step session = .next t := ⟨_, rfl⟩

/-- V-RG-9: the first word past SYM_IN. -/
theorem witness_BusErrorsExactly :
    let s := hosted session [.r 0x1000040#26 0]
    s.access (memRead 0x1000040#26) = .error .unmapped ∧ s.held (memRead 0x1000040#26) = false ∧
    s.host.code[s.host.pos]? = some (.r 0x1000040#26 0) ∧
    stmtAccess (.r 0x1000040#26 0) = some (memRead 0x1000040#26) ∧
    (memRead 0x100003C#26).wf = true := ⟨rfl, rfl, rfl, rfl, rfl⟩

theorem witness_ReadsAndReadOnlyWritesChangeNothing :
    session.access (.read 0x024#26 .word) = .ok (.data 0#32, session) ∧
    accessLoc session.params (memWrite 0x504#26 7#32) = .ok (.freq 0x41#8) ∧ Loc.readOnly (.freq 0x41#8) = true :=
  ⟨rfl, rfl, rfl⟩

theorem witness_HostCannotWriteTables : ∃ t, session.access (memWrite 0x00C#26 6#32) = .ok (.written, t) := ⟨_, rfl⟩

/-- The last words of the windows: `4·m` is 60 of 64. -/
theorem witness_BufferWordsAreBigEndian : 4 * 15 < session.params.symCap ∧ 4 * 15 < session.params.bitCap ∧
    4 * 15 < session.params.outCap := by decide

theorem witness_CodeWindowsShowCodewords : session.codeValid = true ∧ session.code.at 0x42#8 = some [true, true] ∧
    [true, true].length ≤ 255 ∧ idle.codeValid = false ∧ session.code.at 0x44#8 = none := by decide +kernel

/-- The last node, and the first entry past it. -/
theorem witness_NodeWindowShowsNodes : session.nodeAt 2#9 = some (.leaf 0x43#8 1#32) ∧
    session.nodeAt 4#9 = some (.internal 6#32 0#9 3#9) ∧ 2 * session.nleaf.toNat - 1 ≤ (5#9).toNat ∧
    idle.treeValid = false := by decide

/-- A host that reads STATUS in each form, makes an ill-formed access, and a held write and read. -/
def busyHost (pos : Nat) : State :=
  { busySession with host := { HostThread.idle with pos := pos, code :=
      [.r 0x00C#26 0, .expect 0x00C#26 0x19#32, .raw (memRead 0x00C#26), .w 0x002#26 0#32, .w 0x018#26 5#32,
        .r 0x010#26 0] } }

theorem witness_AccessesHeldWhileBusy :
    (∀ pos < 6, (busyHost pos).busy = true) ∧
    (∀ pos < 3, ((busyHost pos).host.code[pos]?).bind stmtAccess = some (memRead 0x00C#26)) ∧
    (∀ pos < 6, 3 ≤ pos → ((busyHost pos).host.code[pos]?).bind stmtAccess ≠ none ∧
      ((busyHost pos).host.code[pos]?).bind stmtAccess ≠ some (memRead 0x00C#26)) := by decide

/-- A write, a read and an ill-formed access that were held while CODE_DERIVE ran. -/
theorem witness_HeldAccessPerformedAfterCompletion :
    (∃ t u, engineTurn (busyHost 4) = .next t ∧ t.access (memWrite 0x018#26 5#32) = .ok (.written, u)) ∧
    (∃ t, engineTurn (busyHost 5) = .next t ∧ t.access (memRead 0x010#26) = .ok (.data 0#32, t)) ∧
    (∃ t, engineTurn (busyHost 3) = .next t ∧ t.access (memWrite 0x002#26 0#32) = .error .misaligned) := by
  obtain ⟨t, ht, -⟩ := exists_of_after (o := engineTurn (busyHost 4)) (p := fun _ => true) (by decide +kernel)
  obtain ⟨u, hu, pu⟩ := exists_of_after (o := engineTurn (busyHost 5)) (p := fun u => u.errCode == .ok) (by decide +kernel)
  obtain ⟨w, hw, -⟩ := exists_of_after (o := engineTurn (busyHost 3)) (p := fun _ => true) (by decide +kernel)
  refine ⟨⟨t, _, ht, rfl⟩, ⟨u, hu, ?_⟩, ⟨w, hw, rfl⟩⟩
  have e : u.readLoc .errCode = 0#32 := by
    simp only [beq_iff_eq] at pu
    simp [State.readLoc, State.errCodeWord, pu, ErrCode.toByte]
  rw [← e]
  rfl

theorem witness_InterruptFollowsDoneAndEnable :
    (∃ t, perform 0#32 session = .next t) ∧ (0x02#32 : Word).getLsbD 1 = true ∧
    (∃ t, session.access (memWrite 0x00C#26 0x02#32) = .ok (.written, t)) ∧
    (∃ t, session.access (memWrite 0x008#26 0#32) = .ok (.written, t)) ∧
    (∃ t, session.access (memWrite 0x004#26 1#32) = .ok (.written, t)) :=
  ⟨⟨_, rfl⟩, rfl, ⟨_, rfl⟩, ⟨_, rfl⟩, ⟨_, rfl⟩⟩

/-- A host CMD write, its completion, and a held access. -/
theorem witness_OnlyCmdWritesStartCommands :
    (∃ t, step (hosted session (expandC .nop)) = .next t ∧ t.busy = true ∧
      (hosted session (expandC .nop)).busy = false) ∧
    (∃ t, step busySession = .next t ∧ busySession.busy = true ∧ t.busy = false) ∧
    (∃ t, step { hosted busySession (expandC .nop) with schedule := [.host] } = .next t ∧ t.busy = true) := by
  refine ⟨⟨_, rfl, rfl, rfl⟩, ?_, ⟨_, rfl, rfl⟩⟩
  obtain ⟨t, h, ht⟩ := exists_of_after (o := step busySession) (p := fun t => !t.busy) (by decide +kernel)
  exact ⟨t, h, rfl, by simpa using ht⟩

/-- TREE_BUILD from a frequency table, CODE_DERIVE from a tree, and SOFT_RESET. -/
theorem witness_ValidityBitsChangeOnlyByTheirCommands :
    (∃ t, step { session with treeValid := false, codeValid := false, pending := some 0x03000000#32 } = .next t ∧
      t.treeValid = true) ∧
    (∃ t, step { session with codeValid := false, pending := some 0x04000000#32 } = .next t ∧ t.codeValid = true) ∧
    (∃ t, step { session with pending := some 0x01000000#32 } = .next t ∧ t.treeValid = false ∧ t.codeValid = false) :=
  ⟨exists_of_after (p := State.treeValid) (by decide +kernel), exists_of_after (p := State.codeValid) (by decide +kernel),
    ⟨_, rfl, rfl, rfl⟩⟩

theorem witness_StickyErrorIsNotLost :
    (∃ t, step (hosted { session with errSticky := true } [.w 0x00C#26 4#32]) = .next t ∧ t.errSticky = false) ∧
    (∃ t, perform 0x07000000#32 session = .next t ∧ t.errCode ≠ .ok) ∧
    (∃ t, session.access (memWrite 0x00C#26 4#32) = .ok (.written, t)) ∧ (4#32 : Word).getLsbD 2 = true ∧
    (∃ t, exec .softReset session = .next t) :=
  ⟨⟨_, rfl, rfl⟩, ⟨_, rfl, by decide⟩, ⟨_, rfl⟩, rfl, ⟨_, rfl⟩⟩

theorem witness_CommandStatementIssuesCommand : (hosted session (expandC .encode)).busy = false ∧
    (hosted session (expandC .encode)).host.code[(hosted session (expandC .encode)).host.pos]? = (expandC .encode)[0]? :=
  ⟨rfl, rfl⟩

end Sys2Proof.Tests
end

section
/-! PROOFS. The merge loop of TREE_BUILD keeps a full binary tree (42_tree_build.md R144, R149). -/

namespace Sys2Proof.Machine

/-! ### The merge loop keeps a full binary tree (42_tree_build.md R143 to R149) -/

/-- The key that merging `a` and `b` inserts into the queue (42_tree_build.md R144). -/
def mergedKey (a b : Key) (N : List Node) : Key := { freq := a.freq + b.freq, seq := N.length }

/-- The node that merging `a` and `b` appends to the table (42_tree_build.md R144). -/
def mergedNode (a b : Key) : Node := .internal (a.freq + b.freq) (BitVec.ofNat 9 a.seq) (BitVec.ofNat 9 b.seq)

@[simp] theorem mergedKey_seq (a b : Key) (N : List Node) : (mergedKey a b N).seq = N.length := rfl

@[simp] theorem mergedKey_freq (a b : Key) (N : List Node) : (mergedKey a b N).freq = a.freq + b.freq := rfl

@[simp] theorem mergedNode_freq (a b : Key) : (mergedNode a b).freq = a.freq + b.freq := rfl

/-- Induction along the merge loop: what every merge of the two least keys keeps holds of the finished table, with at
most one key left. -/
theorem mergeLoop_induction {P : List Key → List Node → Prop}
    (round : ∀ q a b rest N, q.Perm (a :: b :: rest) → (∀ x ∈ q, x.less a = false) →
      (∀ x ∈ b :: rest, x.less b = false) → P q N → P (mergedKey a b N :: rest) (N ++ [mergedNode a b]))
    (fuel : Nat) (q : List Key) (N : List Node) (hfuel : q.length ≤ fuel + 1) (h : P q N) :
    ∃ q', q'.length ≤ 1 ∧ P q' (mergeLoop fuel q N) := by
  induction fuel generalizing q N with
  | zero =>
    match q with
    | [] => exact ⟨[], by simp, by rwa [mergeLoop_nil]⟩
    | [k] => exact ⟨[k], by simp, by rwa [mergeLoop_single]⟩
    | _ :: _ :: _ => simp at hfuel
  | succ fuel ih =>
    match q with
    | [] => exact ⟨[], by simp, by rwa [mergeLoop_nil]⟩
    | [k] => exact ⟨[k], by simp, by rwa [mergeLoop_single]⟩
    | k :: x :: q =>
      obtain ⟨y, r, hr, he⟩ := mergeLoop_round fuel k x q N
      have hperm := extractMin_perm k (x :: q)
      rw [hr] at hperm
      have hperm2 := extractMin_perm y r
      have hlen := (hperm.symm.trans (hperm2.symm.cons _)).length_eq
      simp only [List.length_cons] at hlen hfuel
      rw [he]
      refine ih _ _ (by simp only [List.length_cons]; omega)
        (round _ _ _ _ N (hperm.symm.trans (hperm2.symm.cons _)) (extractMin_le k (x :: q)) ?_ h)
      intro z hz
      exact extractMin_le y r z (hperm2.mem_iff.1 hz)

theorem internalWf_iff (nodes : List Node) (k : Nat) :
    internalWf nodes k = true ↔ ∃ f l r a b, nodes[k]? = some (.internal f l r) ∧ nodes[l.toNat]? = some a ∧
      nodes[r.toNat]? = some b ∧ l.toNat < k ∧ r.toNat < k ∧ f.toNat = a.freq.toNat + b.freq.toNat := by
  constructor
  · intro h
    unfold internalWf at h
    split at h
    · rename_i f l r hk
      split at h
      · rename_i a b ha hb
        simp only [Bool.and_eq_true, decide_eq_true_eq] at h
        obtain ⟨⟨hl, hr⟩, hf⟩ := h
        exact ⟨f, l, r, a, b, hk, ha, hb, hl, hr, hf⟩
      · simp at h
    · simp at h
  · rintro ⟨f, l, r, a, b, hk, ha, hb, hl, hr, hf⟩
    simp [internalWf, hk, ha, hb, hl, hr, hf]

/-- Appending to a table keeps the entries that a `getElem?` finds. -/
theorem getElem?_append_of_some {N : List Node} {k : Nat} {a : Node} (M : List Node) (h : N[k]? = some a) :
    (N ++ M)[k]? = some a := by
  rw [List.getElem?_append_left (List.getElem?_eq_some_iff.1 h).1, h]

theorem internalWf_append {N : List Node} {k : Nat} (M : List Node) (h : internalWf N k = true) :
    internalWf (N ++ M) k = true := by
  obtain ⟨f, l, r, a, b, hk, ha, hb, hrest⟩ := (internalWf_iff N k).1 h
  exact (internalWf_iff _ k).2 ⟨f, l, r, a, b, getElem?_append_of_some M hk, getElem?_append_of_some M ha,
    getElem?_append_of_some M hb, hrest⟩

theorem childIndices_append (N M : List Node) : childIndices (N ++ M) = childIndices N ++ childIndices M :=
  List.flatMap_append

/-- What every round of the merge loop keeps: the table extends the leaves, every later entry is a well-formed internal
node, the entries that are no child yet are exactly those queued (R142, R144), and the queued frequencies add up to
`total`. -/
structure MergeInv (leaves : List Node) (total : Nat) (q : List Key) (N : List Node) : Prop where
  leaves_prefix : leaves <+: N
  size      : N.length + q.length = 2 * leaves.length
  keys      : ∀ k ∈ q, ∃ a, N[k.seq]? = some a ∧ a.freq = k.freq
  internals : ∀ k < N.length, leaves.length ≤ k → internalWf N k = true
  parents   : (childIndices N ++ q.map Key.seq).Perm (List.range N.length)
  total_eq  : (q.map (fun k => k.freq.toNat)).sum = total
  last      : N.length - 1 ∈ q.map Key.seq

/-- The node a merge appends is well formed: its children are table entries, and the sum of their frequencies does not
overflow (R15). -/
theorem internalWf_mergedNode {N : List Node} {a b : Key} {x y : Node} (hN : N.length ≤ 512)
    (hsum : a.freq.toNat + b.freq.toNat < 2 ^ 32) (hx : N[a.seq]? = some x) (hy : N[b.seq]? = some y)
    (hxf : x.freq = a.freq) (hyf : y.freq = b.freq) : internalWf (N ++ [mergedNode a b]) N.length = true := by
  have ha : a.seq < N.length := (List.getElem?_eq_some_iff.1 hx).1
  have hb : b.seq < N.length := (List.getElem?_eq_some_iff.1 hy).1
  have ha' : (BitVec.ofNat 9 a.seq).toNat = a.seq := by simp; omega
  have hb' : (BitVec.ofNat 9 b.seq).toNat = b.seq := by simp; omega
  refine (internalWf_iff _ _).2 ⟨a.freq + b.freq, .ofNat 9 a.seq, .ofNat 9 b.seq, x, y, by simp [mergedNode], ?_, ?_,
    ?_, ?_, ?_⟩
  · rw [ha']; exact getElem?_append_of_some _ hx
  · rw [hb']; exact getElem?_append_of_some _ hy
  · omega
  · omega
  · rw [hxf, hyf, BitVec.toNat_add, Nat.mod_eq_of_lt hsum]

theorem MergeInv.round {leaves : List Node} {total : Nat} (hl : leaves.length ≤ 256) (ht : total < 2 ^ 32)
    {q : List Key} {a b : Key} {rest : List Key} {N : List Node} (hq : q.Perm (a :: b :: rest))
    (h : MergeInv leaves total q N) :
    MergeInv leaves total (mergedKey a b N :: rest) (N ++ [mergedNode a b]) := by
  have hlen := hq.length_eq
  have hsize := h.size
  have htotal : a.freq.toNat + (b.freq.toNat + (rest.map (fun k => k.freq.toNat)).sum) = total := by
    rw [← h.total_eq, (hq.map _).sum_eq]; simp
  have hsum : a.freq.toNat + b.freq.toNat < 2 ^ 32 := by omega
  simp only [List.length_cons] at hlen
  obtain ⟨x, hx, hxf⟩ := h.keys a (hq.mem_iff.2 (by simp))
  obtain ⟨y, hy, hyf⟩ := h.keys b (hq.mem_iff.2 (by simp))
  have ha := (List.getElem?_eq_some_iff.1 hx).1
  have hb := (List.getElem?_eq_some_iff.1 hy).1
  constructor
  case leaves_prefix => exact h.leaves_prefix.trans (List.prefix_append _ _)
  case size => simp only [List.length_append, List.length_cons, List.length_nil]; omega
  case keys =>
    intro k hk
    rcases List.mem_cons.1 hk with rfl | hk
    · exact ⟨mergedNode a b, by simp, rfl⟩
    · obtain ⟨z, hz, hzf⟩ := h.keys k (hq.mem_iff.2 (by simp [hk]))
      exact ⟨z, getElem?_append_of_some _ hz, hzf⟩
  case internals =>
    intro k hk hlk
    rcases Nat.lt_or_ge k N.length with hkN | hkN
    · exact internalWf_append _ (h.internals k hkN hlk)
    · have hkN' : k = N.length := by simp at hk; omega
      rw [hkN']
      exact internalWf_mergedNode (by omega) hsum hx hy hxf hyf
  case parents =>
    have hchild : childIndices [mergedNode a b] = [a.seq, b.seq] := by
      simp [childIndices, mergedNode, Node.children]; omega
    have hold : (childIndices N ++ a.seq :: b.seq :: rest.map Key.seq).Perm (List.range N.length) := by
      refine List.Perm.trans (List.Perm.append_left _ ?_) h.parents
      simpa using (hq.map Key.seq).symm
    rw [childIndices_append, hchild, List.length_append, List.length_singleton, List.range_succ]
    calc (childIndices N ++ [a.seq, b.seq] ++ (mergedKey a b N :: rest).map Key.seq)
        = childIndices N ++ [a.seq, b.seq] ++ N.length :: rest.map Key.seq := rfl
      _ |>.Perm (N.length :: (childIndices N ++ [a.seq, b.seq] ++ rest.map Key.seq)) := List.perm_middle
      _ |>.Perm (N.length :: List.range N.length) := by simpa using hold
      _ |>.Perm (List.range N.length ++ [N.length]) := (List.perm_append_singleton _ _).symm
  case total_eq =>
    have hadd : (a.freq + b.freq).toNat = a.freq.toNat + b.freq.toNat := by
      rw [BitVec.toNat_add, Nat.mod_eq_of_lt hsum]
    simp only [List.map_cons, List.sum_cons, mergedKey_freq, hadd]
    omega
  case last => simp

end Sys2Proof.Machine
end

section
/-! PROOFS. The tree that TREE_BUILD builds has the shape of 42_tree_build.md R149. -/

namespace Sys2Proof.Machine

/-! ### The leaves and the queue at the start (42_tree_build.md R141, R142) -/

theorem childIndices_leavesOf (F : FreqTable) : childIndices (leavesOf F) = [] := by
  simp [childIndices, leavesOf, List.flatMap_map, Node.children]

theorem filterMap_sym?_leavesOf (F : FreqTable) : (leavesOf F).filterMap Node.sym? = presentSymbols F := by
  simp [leavesOf, presentSymbols, List.filterMap_map, Function.comp_def, Node.sym?]

/-- The counts of the symbols present add up to the total: the other counts are 0. -/
theorem sum_presentCounts (F : FreqTable) : ((presentCounts F).map (fun p => p.2.toNat)).sum = freqTotal F := by
  have key : ∀ l : List (Byte × Word),
      ((l.filter (fun p => p.2 != 0#32)).map (fun p => p.2.toNat)).sum = (l.map (fun p => p.2.toNat)).sum := by
    intro l
    induction l with
    | nil => rfl
    | cons p l ih =>
      by_cases hp : p.2 = 0#32
      · simp [hp, ih]
      · simp [hp, ih]
  rw [presentCounts, key, symbolCounts_eq, freqTotal_eq, List.map_map]
  rfl

theorem sum_startQueue (F : FreqTable) :
    ((startQueue (leavesOf F)).map (fun k => k.freq.toNat)).sum = freqTotal F := by
  have hfst : (startQueue (leavesOf F)).map (fun k => k.freq.toNat) = (leavesOf F).map (fun a => a.freq.toNat) := by
    rw [startQueue, List.map_map, ← List.zipIdx_map_fst 0 (leavesOf F), List.map_map]
    simp [Function.comp_def]
  rw [hfst, leavesOf, List.map_map, ← sum_presentCounts]
  rfl

/-- The leaves with their queue meet what the merge loop keeps. -/
theorem mergeInv_start (F : FreqTable) (hne : presentSymbols F ≠ []) :
    MergeInv (leavesOf F) (freqTotal F) (startQueue (leavesOf F)) (leavesOf F) where
  leaves_prefix := List.prefix_refl _
  size := by rw [length_startQueue]; omega
  keys := by
    intro k hk
    obtain ⟨⟨a, i⟩, hp, rfl⟩ := List.mem_map.1 hk
    exact ⟨a, List.mem_zipIdx_iff_getElem?.1 hp, rfl⟩
  internals := fun k hk hlk => absurd hk (by omega)
  parents := by rw [childIndices_leavesOf, startQueue_seq]; exact .refl _
  total_eq := sum_startQueue F
  last := by
    have hpos : 0 < (leavesOf F).length := by rw [length_leavesOf]; exact List.length_pos_iff.2 hne
    rw [startQueue_seq, List.mem_range]
    omega

/-! ### The tree that TREE_BUILD builds (42_tree_build.md R149) -/

/-- The finished table keeps the loop's invariant, with the last entry's key alone in the queue. -/
theorem mergeInv_buildTree (F : FreqTable) (hne : presentSymbols F ≠ []) (htotal : freqTotal F < 2 ^ 32) :
    ∃ k, k.seq = (buildTree F).length - 1 ∧ MergeInv (leavesOf F) (freqTotal F) [k] (buildTree F) := by
  have hn : (leavesOf F).length ≤ 256 := length_leavesOf F ▸ length_presentSymbols_le F
  obtain ⟨q, hq, h⟩ := mergeLoop_induction (P := MergeInv (leavesOf F) (freqTotal F))
    (fun _ _ _ _ _ hperm _ _ h => h.round hn htotal hperm) (leavesOf F).length (startQueue (leavesOf F)) (leavesOf F)
    (by rw [length_startQueue]; omega) (mergeInv_start F hne)
  match q, hq, h.last with
  | [k], _, hlast => exact ⟨k, (List.mem_singleton.1 hlast).symm, h⟩

/-- The leaves come first in a table that the merge loop built. -/
theorem MergeInv.getElem?_leaf {leaves : List Node} {total : Nat} {q : List Key} {N : List Node}
    (h : MergeInv leaves total q N) {k : Nat} (hk : k < leaves.length) : N[k]? = leaves[k]? := by
  obtain ⟨M, rfl⟩ := h.leaves_prefix
  exact List.getElem?_append_left hk

/-- TREE_BUILD's table is a full binary tree over the symbols present, if the counts add up to no more than a word
holds. -/
theorem treeShape_buildTree (F : FreqTable) (hne : presentSymbols F ≠ []) (htotal : freqTotal F < 2 ^ 32) :
    TreeShape (buildTree F) (presentSymbols F).length := by
  obtain ⟨root, hroot, h⟩ := mergeInv_buildTree F hne htotal
  have hsize := h.size
  have hpos := List.length_pos_iff.2 hne
  rw [length_leavesOf, List.length_singleton] at hsize
  constructor
  case one_le => exact hpos
  case le_256 => exact length_presentSymbols_le F
  case length => omega
  case leaves =>
    intro k hk
    rw [← length_leavesOf] at hk
    rw [h.getElem?_leaf hk, List.getElem?_eq_getElem hk]
    simp [leavesOf, Node.sym?]
  case ascending =>
    rw [← length_leavesOf, ← List.prefix_iff_eq_take.1 h.leaves_prefix, filterMap_sym?_leavesOf]
    exact presentSymbols_ascending F
  case internals =>
    intro k hk hnk
    exact h.internals k (by omega) (by rwa [length_leavesOf])
  case parents =>
    have hlast : (buildTree F).length = 2 * (presentSymbols F).length - 2 + 1 := by omega
    have hperm : (childIndices (buildTree F) ++ [2 * (presentSymbols F).length - 2]).Perm
        (List.range (2 * (presentSymbols F).length - 2) ++ [2 * (presentSymbols F).length - 2]) := by
      have := h.parents
      rwa [List.map_singleton, hroot, hlast, Nat.add_sub_cancel, List.range_succ] at this
    exact (List.perm_append_right_iff _).1 hperm

end Sys2Proof.Machine
end

section
/-! PROOFS. The decoder of command words, and what a command can commit or raise, said once. -/

namespace Sys2Proof.Machine

/-! ### Decoding a command word (30_encoding.md R103, R106) -/

theorem decodeCmd_encode (i : Instr) : decodeCmd (Sys2Proof.encode i) = .ok i := by cases i <;> decide

/-- A word is its OPCODE field above its RSVD field (30_encoding.md R100). -/
theorem opcodeField_append_rsvdField (w : Word) : opcodeField w ++ rsvdField w = w := by
  rw [opcodeField, rsvdField, BitVec.extractLsb'_append_extractLsb'_eq_extractLsb' (by rfl)]
  simp

/-- A command is selected by its own word and by no other. -/
theorem eq_encode_of_decodeCmd {w : Word} {i : Instr} (h : decodeCmd w = .ok i) : w = Sys2Proof.encode i := by
  unfold decodeCmd at h
  split at h
  · simp at h
  · rename_i hr
    have hr0 : rsvdField w = 0#24 := by simpa using hr
    rw [← opcodeField_append_rsvdField w, hr0, Sys2Proof.encode]
    congr 1
    apply BitVec.eq_of_toNat_eq
    split at h <;> simp only [Except.ok.injEq, reduceCtorEq] at h <;> subst h <;> assumption

/-! ### What a command can do, said once (60_exceptions.md R244, R246) -/

/-- A loop of the decoder never stages more than OUT_CAP symbols (45_decode.md R202). -/
theorem length_decodeLoop_le {nodeAt : NodeIndex → Option Node} {root : NodeIndex} {outCap : Nat} {bs : BitSeq}
    {p : Nat} {cur : NodeIndex} {start : Nat} {out res : List Byte}
    (h : decodeLoop nodeAt root outCap bs p cur start out = .ok res) (hout : out.length ≤ outCap) :
    res.length ≤ outCap := by
  induction bs generalizing p cur start out with
  | nil =>
    unfold decodeLoop at h
    split at h
    · simp only [Except.ok.injEq] at h; rwa [← h]
    · simp at h
  | cons b bs ih =>
    unfold decodeLoop at h
    split at h
    · simp at h
    · exact ih h hout
    · split at h
      · simp at h
      · rename_i out' ho
        refine ih h ?_
        unfold emit at ho
        split at ho
        · simp at ho
        · simp only [Except.ok.injEq] at ho
          rw [← ho, List.length_append, List.length_singleton]
          omega

/-- The walk of CODE_DERIVE raises no error: where it fails it is a fault of the model (60_exceptions.md R249). -/
theorem walk_ne_raise (nodeAt : NodeIndex → Option Node) (count budget : Nat) (i : NodeIndex) (path : BitSeq)
    (C : CodeTable) (c : ErrCode) (info : Word) : walk nodeAt count budget i path C ≠ .error (.raise c info) := by
  induction budget generalizing i path C with
  | zero =>
    unfold walk
    split
    · simp
    · simp
    · split <;> simp
  | succ budget ih =>
    unfold walk
    split
    · simp
    · simp
    · split
      · simp
      · dsimp only
        split
        · rename_i e he
          rw [← he]
          exact ih _ _ _
        · exact ih _ _ _

theorem State.deriveCode_ne_raise (s : State) (c : ErrCode) (info : Word) :
    s.deriveCode ≠ .error (.raise c info) := by
  unfold State.deriveCode
  split
  · simp
  · exact walk_ne_raise _ _ _ _ _ _ c info

/-- `Commits s i u`: the command `i` succeeds in the state `s`, and its writes alone lead to `u` (the commands' own
rules: R224, R226, R120, R147, R161, R181, R202). -/
inductive Commits (s : State) : Instr → State → Prop
  | nop : Commits s .nop s
  | softReset : Commits s .softReset s.emptied
  | freqBuild (hlen : s.symLen.toNat ≤ s.params.symCap) :
      Commits s .freqBuild { s with freq := countSymbols s.inputSymbols }
  | treeBuild (hne : presentSymbols s.freq ≠ []) :
      Commits s .treeBuild (s.withTree (buildTree s.freq) (presentSymbols s.freq).length)
  | codeDerive (C : CodeTable) (htree : s.treeValid = true) (hcode : s.deriveCode = .ok C) :
      Commits s .codeDerive (s.withCode C)
  | encode (n : Nat) (hcode : s.codeValid = true) (hlen : s.symLen.toNat ≤ s.params.symCap)
      (hcheck : encodeCheck s.code (8 * s.params.bitCap) s.inputSymbols 0 0 = .ok n) :
      Commits s .encode (s.withStream (encodeSymbols s.code s.inputSymbols) n)
  | decode (out : List Byte) (htree : s.treeValid = true) (hlen : s.bitLen.toNat ≤ 8 * s.params.bitCap)
      (hloop : decodeLoop s.nodeAt s.root s.params.outCap s.bitstream 0 s.root 0 [] = .ok out) :
      Commits s .decode (s.withOutput out)

/-- `Fails s t`: from `s` a command ends in `t` with an error, which changes only the completion record and is never
DEGENERATE_TREE (60_exceptions.md R246, R249). -/
inductive Fails (s : State) : State → Prop
  | mk (code : ErrCode) (info : Word) (hok : code ≠ .ok) (hdefect : code ≠ .degenerateTree) :
      Fails s (s.complete code info)

/-- A command that completes commits its writes with OK, or fails. -/
theorem exec_next {i : Instr} {s t : State} (h : exec i s = .next t) :
    (∃ u, Commits s i u ∧ t = u.complete .ok 0#32) ∨ Fails s t := by
  cases i with
  | nop =>
    rw [exec, execNop_eq] at h
    exact .inl ⟨s, .nop, by simpa using h.symm⟩
  | softReset =>
    rw [exec, execSoftReset_eq] at h
    exact .inl ⟨s.emptied, .softReset, by simpa using h.symm⟩
  | freqBuild =>
    rcases execFreqBuild_next h with ⟨hlen, rfl⟩ | ⟨-, rfl⟩
    · exact .inl ⟨_, .freqBuild hlen, rfl⟩
    · exact .inr (.mk _ _ (by decide) (by decide))
  | treeBuild =>
    rcases execTreeBuild_next h with ⟨hne, rfl⟩ | ⟨-, rfl⟩
    · exact .inl ⟨_, .treeBuild hne, rfl⟩
    · exact .inr (.mk _ _ (by decide) (by decide))
  | codeDerive =>
    rcases execCodeDerive_next h with ⟨htree, C, hcode, rfl⟩ | ⟨-, rfl⟩ | ⟨-, c, info, hraise, -⟩
    · exact .inl ⟨_, .codeDerive C htree hcode, rfl⟩
    · exact .inr (.mk _ _ (by decide) (by decide))
    · exact absurd hraise (s.deriveCode_ne_raise c info)
  | encode =>
    rcases execEncode_next h with ⟨hcode, hlen, n, hcheck, rfl⟩ | ⟨-, rfl⟩ | ⟨-, -, rfl⟩ | ⟨-, -, c, info, hraise, rfl⟩
    · exact .inl ⟨_, .encode n hcode hlen hcheck, rfl⟩
    · exact .inr (.mk _ _ (by decide) (by decide))
    · exact .inr (.mk _ _ (by decide) (by decide))
    · obtain ⟨j, hj | hj⟩ := encodeCheck_error hraise
      · cases hj
        exact .inr (.mk _ _ (by decide) (by decide))
      · cases hj
        exact .inr (.mk _ _ (by decide) (by decide))
  | decode =>
    rcases execDecode_next h with ⟨htree, hlen, out, hloop, rfl⟩ | ⟨-, rfl⟩ | ⟨-, -, rfl⟩ | ⟨-, -, c, info, hraise, rfl⟩
    · exact .inl ⟨_, .decode out htree hlen hloop, rfl⟩
    · exact .inr (.mk _ _ (by decide) (by decide))
    · exact .inr (.mk _ _ (by decide) (by decide))
    · rcases decodeLoop_raise hraise with rfl | rfl | rfl <;> exact .inr (.mk _ _ (by decide) (by decide))

/-- A word, legal or not, that completes commits the writes of its command with OK, or fails (46_control.md R222,
R225). -/
theorem perform_next {w : Word} {s t : State} (h : perform w s = .next t) :
    (∃ i u, w = Sys2Proof.encode i ∧ Commits s i u ∧ t = u.complete .ok 0#32) ∨ Fails s t := by
  unfold perform at h
  split at h
  · rename_i i hi
    rcases exec_next h with ⟨u, hu, ht⟩ | hf
    · exact .inl ⟨i, u, eq_encode_of_decodeCmd hi, hu, ht⟩
    · exact .inr hf
  · rw [execIllegal_eq] at h
    obtain rfl : s.complete .badCommand w = t := by simpa using h
    exact .inr (.mk _ _ (by decide) (by decide))

/-! ### What a successful command keeps (30_encoding.md R102) -/

theorem Commits.params_eq {s u : State} {i : Instr} (h : Commits s i u) : u.params = s.params := by cases h <;> rfl

theorem Commits.irqEn_eq {s u : State} {i : Instr} (h : Commits s i u) : u.irqEn = s.irqEn := by cases h <;> rfl

theorem Commits.errSticky_eq {s u : State} {i : Instr} (h : Commits s i u) (hi : i ≠ .softReset) :
    u.errSticky = s.errSticky := by
  cases h with
  | softReset => exact absurd rfl hi
  | _ => rfl

/-- Only TREE_BUILD sets TREE_VALID (10_state.md R38). -/
theorem Commits.eq_of_treeValid_set {s u : State} {i : Instr} (h : Commits s i u) (hs : s.treeValid = false)
    (hu : u.treeValid = true) : i = .treeBuild := by
  cases h with
  | treeBuild => rfl
  | softReset => exact absurd hu (by simp)
  | _ => exact absurd (hs.symm.trans hu) (by decide)

/-- Only SOFT_RESET clears TREE_VALID (10_state.md R38). -/
theorem Commits.eq_of_treeValid_cleared {s u : State} {i : Instr} (h : Commits s i u) (hs : s.treeValid = true)
    (hu : u.treeValid = false) : i = .softReset := by
  cases h with
  | softReset => rfl
  | treeBuild => exact absurd hu (by simp)
  | _ => exact absurd (hs.symm.trans hu) (by decide)

/-- Only CODE_DERIVE sets CODE_VALID (10_state.md R38). -/
theorem Commits.eq_of_codeValid_set {s u : State} {i : Instr} (h : Commits s i u) (hs : s.codeValid = false)
    (hu : u.codeValid = true) : i = .codeDerive := by
  cases h with
  | codeDerive => rfl
  | softReset => exact absurd hu (by simp)
  | treeBuild => exact absurd hu (by simp)
  | _ => exact absurd (hs.symm.trans hu) (by decide)

/-- Only SOFT_RESET and TREE_BUILD clear CODE_VALID (10_state.md R38). -/
theorem Commits.eq_of_codeValid_cleared {s u : State} {i : Instr} (h : Commits s i u) (hs : s.codeValid = true)
    (hu : u.codeValid = false) : i = .softReset ∨ i = .treeBuild := by
  cases h with
  | softReset => exact .inl rfl
  | treeBuild => exact .inr rfl
  | codeDerive => exact absurd hu (by simp)
  | _ => exact absurd (hs.symm.trans hu) (by decide)

end Sys2Proof.Machine
end

section
/-! PROOFS. The address map and the accesses at its offsets, what a write leaves unchanged, and what a step can do. -/

namespace Sys2Proof.Machine

/-! ### The address map (20_memory.md R71 to R80) -/

/-- The locations an offset can name: a register, an entry of a window, or a word within a buffer's capacity. -/
theorem locate_some {p : Params} {off : Offset} {l : Loc} (h : locate p off = some l) :
    locateRegister off.toNat = some l ∨ (∃ x, l = .freq x) ∨ (∃ x, l = .codeLen x) ∨ (∃ i k, l = .node i k) ∨
      (∃ x k, l = .codeBits x k) ∨ ∃ b m, l = .buffer b m ∧ 4 * m < p.cap b := by
  have buffer : ∀ b m, locateBuffer p b m = some l → ∃ b m, l = .buffer b m ∧ 4 * m < p.cap b := by
    intro b m hb
    unfold locateBuffer at hb
    split at hb
    · exact ⟨b, m, by simpa using hb.symm, ‹_›⟩
    · simp at hb
  simp only [locate] at h
  split_ifs at h
  · exact .inl h
  · exact .inr (.inl ⟨_, (Option.some.inj h).symm⟩)
  · exact .inr (.inr (.inl ⟨_, (Option.some.inj h).symm⟩))
  · exact .inr (.inr (.inr (.inl ⟨_, _, (Option.some.inj h).symm⟩)))
  · exact .inr (.inr (.inr (.inr (.inl ⟨_, _, (Option.some.inj h).symm⟩))))
  · exact .inr (.inr (.inr (.inr (.inr (buffer _ _ h)))))
  · exact .inr (.inr (.inr (.inr (.inr (buffer _ _ h)))))
  · exact .inr (.inr (.inr (.inr (.inr (buffer _ _ h)))))

/-- Among the registers, CMD stands at 0x008 alone and STATUS at 0x00C alone, and none is a buffer word. -/
theorem locateRegister_some {a : Nat} {l : Loc} (h : locateRegister a = some l) :
    (l = .cmd → a = 0x008) ∧ (l = .status → a = 0x00C) ∧ ∀ b m, l ≠ .buffer b m := by
  unfold locateRegister at h
  split at h <;> simp only [Option.some.injEq, reduceCtorEq] at h <;> subst h <;> simp

/-- CMD stands at 0x008 alone. -/
theorem off_of_locate_cmd {p : Params} {off : Offset} (h : locate p off = some .cmd) : off = 0x008#26 := by
  rcases locate_some h with hr | ⟨_, hr⟩ | ⟨_, hr⟩ | ⟨_, _, hr⟩ | ⟨_, _, hr⟩ | ⟨_, _, hr, -⟩
  · exact BitVec.eq_of_toNat_eq ((locateRegister_some hr).1 rfl)
  all_goals exact nomatch hr

/-- STATUS stands at 0x00C alone. -/
theorem off_of_locate_status {p : Params} {off : Offset} (h : locate p off = some .status) : off = 0x00C#26 := by
  rcases locate_some h with hr | ⟨_, hr⟩ | ⟨_, hr⟩ | ⟨_, _, hr⟩ | ⟨_, _, hr⟩ | ⟨_, _, hr, -⟩
  · exact BitVec.eq_of_toNat_eq ((locateRegister_some hr).2.1 rfl)
  all_goals exact nomatch hr

/-- A buffer word is mapped within the buffer's capacity alone (20_memory.md R80). -/
theorem lt_cap_of_locate_buffer {p : Params} {off : Offset} {b : Buffer} {m : Nat}
    (h : locate p off = some (.buffer b m)) : 4 * m < p.cap b := by
  rcases locate_some h with hr | ⟨_, hr⟩ | ⟨_, hr⟩ | ⟨_, _, hr⟩ | ⟨_, _, hr⟩ | ⟨_, _, hr, hm⟩
  · exact absurd rfl ((locateRegister_some hr).2.2 b m)
  · exact nomatch hr
  · exact nomatch hr
  · exact nomatch hr
  · exact nomatch hr
  · obtain ⟨rfl, rfl⟩ := Loc.buffer.inj hr
    exact hm

/-- FREQ[x] stands at 0x400 + 4x. -/
theorem locate_freq (p : Params) (x : Byte) :
    locate p (BitVec.ofNat 26 (0x400 + 4 * x.toNat)) = some (.freq x) := by
  have ha : (BitVec.ofNat 26 (0x400 + 4 * x.toNat)).toNat = 0x400 + 4 * x.toNat := by simp; omega
  have hx : (0x400 + 4 * x.toNat - 0x400) / 4 = x.toNat := by omega
  simp only [locate, ha, hx, BitVec.ofNat_toNat, BitVec.setWidth_eq]
  rw [if_neg (by omega), if_pos (by omega)]

/-- CODE_LEN[x] stands at 0x800 + 4x. -/
theorem locate_codeLen (p : Params) (x : Byte) :
    locate p (BitVec.ofNat 26 (0x800 + 4 * x.toNat)) = some (.codeLen x) := by
  have ha : (BitVec.ofNat 26 (0x800 + 4 * x.toNat)).toNat = 0x800 + 4 * x.toNat := by simp; omega
  have hx : (0x800 + 4 * x.toNat - 0x800) / 4 = x.toNat := by omega
  simp only [locate, ha, hx, BitVec.ofNat_toNat, BitVec.setWidth_eq]
  rw [if_neg (by omega), if_neg (by omega), if_pos (by omega)]

/-- Word `k` of NODE[i] stands at 0x1000 + 16i + 4k. -/
theorem locate_node (p : Params) (i : NodeIndex) (k : BitVec 2) :
    locate p (BitVec.ofNat 26 (0x1000 + 16 * i.toNat + 4 * k.toNat)) = some (.node i k) := by
  have ha : (BitVec.ofNat 26 (0x1000 + 16 * i.toNat + 4 * k.toNat)).toNat = 0x1000 + 16 * i.toNat + 4 * k.toNat := by
    simp; omega
  have hi : (0x1000 + 16 * i.toNat + 4 * k.toNat - 0x1000) / 16 = i.toNat := by omega
  have hk : (0x1000 + 16 * i.toNat + 4 * k.toNat - 0x1000) / 4 % 4 = k.toNat := by omega
  simp only [locate, ha, hi, hk, BitVec.ofNat_toNat, BitVec.setWidth_eq]
  rw [if_neg (by omega), if_neg (by omega), if_neg (by omega), if_neg (by omega), if_pos (by omega)]

/-- Word `k` of CODE_BITS[x] stands at 0x4000 + 32x + 4k. -/
theorem locate_codeBits (p : Params) (x : Byte) (k : BitVec 3) :
    locate p (BitVec.ofNat 26 (0x4000 + 32 * x.toNat + 4 * k.toNat)) = some (.codeBits x k) := by
  have ha : (BitVec.ofNat 26 (0x4000 + 32 * x.toNat + 4 * k.toNat)).toNat = 0x4000 + 32 * x.toNat + 4 * k.toNat := by
    simp; omega
  have hx : (0x4000 + 32 * x.toNat + 4 * k.toNat - 0x4000) / 32 = x.toNat := by omega
  have hk : (0x4000 + 32 * x.toNat + 4 * k.toNat - 0x4000) / 4 % 8 = k.toNat := by omega
  simp only [locate, ha, hx, hk, BitVec.ofNat_toNat, BitVec.setWidth_eq]
  rw [if_neg (by omega), if_neg (by omega), if_neg (by omega), if_neg (by omega), if_neg (by omega), if_neg (by omega),
    if_pos (by omega)]

/-! ### Accesses (20_memory.md R70 to R75) -/

/-- An access reaches a location exactly when it is well formed and its offset is mapped there. -/
theorem accessLoc_ok_iff (p : Params) (a : HostAccess) (l : Loc) :
    accessLoc p a = .ok l ↔ a.wf = true ∧ locate p (HostAccess.off a) = some l := by
  cases a with
  | read off width =>
    simp only [accessLoc, HostAccess.wf, HostAccess.off]
    cases locate p off <;> split_ifs <;> simp_all
  | write off width enables v =>
    simp only [accessLoc, HostAccess.wf, HostAccess.off]
    cases locate p off <;> split_ifs <;> simp_all

theorem wf_memRead {off : Offset} (ha : off.toNat % 4 = 0) : (memRead off).wf = true := by
  simp [HostAccess.wf, memRead, ha]

theorem wf_memWrite {off : Offset} (v : Word) (ha : off.toNat % 4 = 0) : (memWrite off v).wf = true := by
  simp [HostAccess.wf, memWrite, ha]

/-- A well-formed write is one whole word. -/
theorem eq_memWrite_of_wf {off : Offset} {width : AccessWidth} {enables : BitVec 4} {v : Word}
    (h : (HostAccess.write off width enables v).wf = true) : HostAccess.write off width enables v = memWrite off v := by
  simp only [HostAccess.wf, Bool.and_eq_true, beq_iff_eq] at h
  obtain ⟨⟨rfl, rfl⟩, -⟩ := h
  rfl

theorem State.access_memRead {s : State} {off : Offset} {l : Loc} (ha : off.toNat % 4 = 0)
    (hl : locate s.params off = some l) : s.access (memRead off) = .ok (.data (s.readLoc l), s) := by
  have h : accessLoc s.params (memRead off) = .ok l := (accessLoc_ok_iff _ _ _).2 ⟨wf_memRead ha, hl⟩
  simp only [State.access, h]
  rfl

theorem State.access_memWrite {s : State} {off : Offset} {l : Loc} (v : Word) (ha : off.toNat % 4 = 0)
    (hl : locate s.params off = some l) : s.access (memWrite off v) = .ok (.written, s.writeLoc v l) := by
  have h : accessLoc s.params (memWrite off v) = .ok l := (accessLoc_ok_iff _ _ _).2 ⟨wf_memWrite v ha, hl⟩
  simp only [State.access, h]
  rfl

/-! ### What a write leaves unchanged (20_memory.md R81) -/

/-- A write, wherever it goes, changes no more than IRQ_EN, DONE, ERR_STICKY, the two length registers, SYM_IN, BIT_BUF
and the pending command. -/
theorem State.writeLoc_frame (s : State) (v : Word) (l : Loc) :
    s.writeLoc v l =
      { s with
        irqEn := (s.writeLoc v l).irqEn
        done := (s.writeLoc v l).done
        errSticky := (s.writeLoc v l).errSticky
        symLen := (s.writeLoc v l).symLen
        bitLen := (s.writeLoc v l).bitLen
        symIn := (s.writeLoc v l).symIn
        bitBuf := (s.writeLoc v l).bitBuf
        pending := (s.writeLoc v l).pending } := by
  cases l with
  | buffer b m => cases b <;> rfl
  | _ => rfl

section
variable (s : State) (v : Word) (l : Loc)

@[simp] theorem State.writeLoc_params : (s.writeLoc v l).params = s.params := by
  rw [State.writeLoc_frame]
@[simp] theorem State.writeLoc_treeValid : (s.writeLoc v l).treeValid = s.treeValid := by
  rw [State.writeLoc_frame]
@[simp] theorem State.writeLoc_codeValid : (s.writeLoc v l).codeValid = s.codeValid := by
  rw [State.writeLoc_frame]

/-- Only a write to CMD changes the pending command. -/
theorem State.writeLoc_pending {l : Loc} (h : l ≠ .cmd) : (s.writeLoc v l).pending = s.pending := by
  cases l with
  | cmd => exact absurd rfl h
  | buffer b m => cases b <;> rfl
  | _ => rfl

/-- Only a write to STATUS changes ERR_STICKY. -/
theorem State.writeLoc_errSticky {l : Loc} (h : l ≠ .status) : (s.writeLoc v l).errSticky = s.errSticky := by
  cases l with
  | status => exact absurd rfl h
  | buffer b m => cases b <;> rfl
  | _ => rfl

end

/-! ### What a step can do, said once -/

/-- `StepEffect s t`: the ways a step leads from `s` to `t`. The turn is the host's, and it changes its own thread only
or performs a write, which it does only while no command is pending (R83); or the engine's, with nothing pending, or with
a command that commits or fails; or the reset input's. -/
inductive StepEffect (s : State) : State → Prop
  | hostOnly (H : HostThread) (hturn : s.nextTurn = .host) : StepEffect s { s.popTurn with host := H }
  | hostWrite (stmt : HostStmt) (off : Offset) (v : Word) (l : Loc) (H : HostThread) (hturn : s.nextTurn = .host)
      (hidle : s.busy = false) (hstmt : s.host.code[s.host.pos]? = some stmt)
      (haccess : stmtAccess stmt = some (memWrite off v)) (hloc : locate s.params off = some l) :
      StepEffect s { s.popTurn.writeLoc v l with host := H }
  | idle (hturn : s.nextTurn = .engine) (hpending : s.pending = none) : StepEffect s s.popTurn
  | commits (i : Instr) (u : State) (hturn : s.nextTurn = .engine) (hpending : s.pending = some (Sys2Proof.encode i))
      (hcommits : Commits s.popTurn i u) : StepEffect s (u.complete .ok 0#32)
  | fails (t : State) (hturn : s.nextTurn = .engine) (hfails : Fails s.popTurn t) : StepEffect s t
  | resets (H : HostThread) (hturn : s.nextTurn = .reset) : StepEffect s { s.popTurn.hardReset with host := H }

/-- While BUSY = 1 no write is performed (20_memory.md R83). -/
theorem busy_of_not_held_memWrite {s : State} {off : Offset} {v : Word} (h : s.held (memWrite off v) = false) :
    s.busy = false := by
  simpa [State.held, memWrite, memRead] using h

/-- A host turn changes the host's thread only, or performs a write. -/
theorem hostTurn_effect {s t : State} (h : hostTurn s = .next t) :
    (∃ H, t = { s with host := H }) ∨
    ∃ stmt off v l H, s.busy = false ∧ s.host.code[s.host.pos]? = some stmt ∧
      stmtAccess stmt = some (memWrite off v) ∧ locate s.params off = some l ∧
      t = { s.writeLoc v l with host := H } := by
  rcases hostTurn_next h with ⟨-, rfl⟩ | ⟨stmt, a, hstmt, ha, hacc⟩ | ⟨stmt, -, -, hjump⟩
  · exact .inl ⟨t.host, rfl⟩
  · rcases hostAccess_next hacc with ⟨-, rfl⟩ | ⟨hheld, u, hu, rfl⟩ | ⟨-, v, u, hu, ht⟩
    · exact .inl ⟨_, rfl⟩
    · obtain ⟨l, hl, ⟨_, _, -, hr, -⟩ | ⟨off, width, enables, v, rfl, -, rfl⟩⟩ := State.access_ok hu
      · exact nomatch hr
      · obtain ⟨hwf, hloc⟩ := (accessLoc_ok_iff _ _ _).1 hl
        rw [eq_memWrite_of_wf hwf] at ha hheld
        exact .inr ⟨stmt, off, v, l, _, busy_of_not_held_memWrite hheld, hstmt, ha, hloc, rfl⟩
    · obtain ⟨l, -, ⟨_, _, -, -, rfl⟩ | ⟨_, _, _, _, -, hr, -⟩⟩ := State.access_ok hu
      · rcases ht with rfl | ⟨x, rfl⟩
        · exact .inl ⟨_, rfl⟩
        · exact .inl ⟨_, rfl⟩
      · exact nomatch hr
  · rcases hostJump_next hjump with rfl | ⟨pos, rfl⟩
    · exact .inl ⟨t.host, rfl⟩
    · exact .inl ⟨_, rfl⟩

theorem step_effect {s t : State} (h : step s = .next t) : StepEffect s t := by
  rcases step_next h with ⟨hturn, hh⟩ | ⟨hturn, he⟩ | ⟨hturn, hr⟩
  · rcases hostTurn_effect hh with ⟨H, rfl⟩ | ⟨stmt, off, v, l, H, hidle, hstmt, ha, hl, rfl⟩
    · exact .hostOnly H hturn
    · exact .hostWrite stmt off v l H hturn hidle hstmt ha hl
  · unfold engineTurn at he
    split at he
    · rename_i hp
      obtain rfl : s.popTurn = t := by simpa using he
      exact .idle hturn hp
    · rename_i w hp
      rcases perform_next he with ⟨i, u, rfl, hu, rfl⟩ | hf
      · exact .commits i u hturn hp hu
      · exact .fails t hturn hf
  · rcases resetTurn_next hr with rfl | rfl
    · exact .resets _ hturn
    · exact .resets _ hturn

end Sys2Proof.Machine
end

section
/-! PROOFS. The invariant of 10_state.md R59 holds at reset and is kept by every step. -/

namespace Sys2Proof.Machine

/-! ### The capacities and the counts (00_scope.md R13, 41_frequency.md R121) -/

/-- Each capacity is within its bounds (00_scope.md R13). -/
theorem cap_bounds (p : Params) (b : Buffer) : 4 ≤ p.cap b ∧ p.cap b ≤ 2 ^ 24 ∧ p.cap b % 4 = 0 := by
  cases b <;> exact Capacity.bytes_bounds _

/-- The numbers of occurrences, over distinct symbols that cover a list, add up to its length. -/
theorem sum_count_eq_length {l syms : List Byte} (hl : l.Nodup) (h : ∀ x ∈ syms, x ∈ l) :
    (l.map (fun x => syms.count x)).sum = syms.length := by
  rw [← List.sum_toFinset _ hl]
  simpa using Multiset.sum_count_eq_card (s := l.toFinset) (m := (syms : Multiset Byte)) (by simpa using h)

/-- The counts of a frequency table add up to the number of symbols counted (41_frequency.md R121). -/
theorem freqTotal_countSymbols {syms : List Byte} (h : syms.length < 2 ^ 32) :
    freqTotal (countSymbols syms) = syms.length := by
  have hnodup : allSymbols.Nodup := allSymbols_ascending.imp fun hlt e => by rw [e] at hlt; omega
  have hcount : ∀ x, ((countSymbols syms).at x).toNat = syms.count x := fun x => by
    rw [countSymbols_at, BitVec.toNat_ofNat, Nat.mod_eq_of_lt (List.count_le_length.trans_lt h)]
  simp only [freqTotal_eq, hcount]
  exact sum_count_eq_length hnodup fun x _ => mem_allSymbols x

/-! ### The invariant's buffers -/

theorem State.buffersWf_iff (s : State) :
    s.buffersWf = true ↔ ∀ b, (s.mem b).wf = true ∧ (s.mem b).within (s.params.cap b) = true := by
  simp only [State.buffersWf, Bool.and_eq_true]
  constructor
  · rintro ⟨⟨⟨⟨⟨h1, h2⟩, h3⟩, h4⟩, h5⟩, h6⟩ b
    cases b
    · exact ⟨h1, h4⟩
    · exact ⟨h2, h5⟩
    · exact ⟨h3, h6⟩
  · intro h
    exact ⟨⟨⟨⟨⟨(h .symIn).1, (h .bitBuf).1⟩, (h .symOut).1⟩, (h .symIn).2⟩, (h .bitBuf).2⟩, (h .symOut).2⟩

/-- Storing bytes within the capacity of the one buffer that changes keeps the buffers well formed. -/
theorem State.buffersWf_of_store {s t : State} (b : Buffer) (j : Nat) (vs : List Byte) (h : s.buffersWf = true)
    (hcap : j + vs.length ≤ s.params.cap b) (hp : t.params = s.params)
    (hmem : t.mem = Function.update s.mem b ((s.mem b).store j vs)) : t.buffersWf = true := by
  rw [State.buffersWf_iff] at h ⊢
  intro c
  obtain ⟨hwf, hwithin⟩ := h c
  by_cases hc : c = b
  · subst hc
    rw [hmem, hp, Function.update_self]
    exact ⟨Memory.wf_store vs _ j hwf, Memory.within_store vs _ j hwithin hcap⟩
  · rw [hmem, hp, Function.update_of_ne hc]
    exact ⟨hwf, hwithin⟩

/-! ### Each update keeps the invariant (10_state.md R59) -/

theorem State.Inv.popTurn {s : State} (h : s.Inv) : s.popTurn.Inv := { h with }

theorem State.Inv.withHost {s : State} (h : s.Inv) (H : HostThread) : State.Inv { s with host := H } := { h with }

/-- A completion keeps the invariant, if it reports no DEGENERATE_TREE and leaves ERR_INFO 0 on success. -/
theorem State.Inv.complete {s : State} (h : s.Inv) {c : ErrCode} {info : Word} (hok : c = .ok → info = 0#32)
    (hdefect : c ≠ .degenerateTree) : (s.complete c info).Inv :=
  { h with
    okInfo := hok
    busyDone := fun hbusy => by simp at hbusy
    noDefect := hdefect }

/-- The invariant of a codec without a tree and without a code table. -/
theorem State.inv_of_empty {s : State} (hbuf : s.buffersWf = true) (htree : s.treeValid = false)
    (hcode : s.codeValid = false) (hleaf : s.nleaf = 0#9) (hroot : s.root = 0#9) (hnodes : s.nodes = [])
    (hfreq : s.freq = FreqTable.empty) (hout : s.outLen = 0#32) (hok : s.errCode = .ok → s.errInfo = 0#32)
    (hbusy : s.busy = true → s.done = false) (hdefect : s.errCode ≠ .degenerateTree) : s.Inv where
  buffers := hbuf
  tree := fun e => by simp [htree] at e
  noTree := fun _ => ⟨hleaf, hroot, hnodes⟩
  code := fun e => by simp [hcode] at e
  counts := by rw [hfreq, freqTotal_eq]; simp
  output := by rw [hout]; simp
  okInfo := hok
  busyDone := hbusy
  noDefect := hdefect

theorem State.hardReset_inv (s : State) : s.hardReset.Inv :=
  State.inv_of_empty rfl rfl rfl rfl rfl rfl rfl rfl (fun _ => rfl) (fun _ => rfl) (by simp)

theorem State.reset_inv : State.reset.Inv :=
  State.inv_of_empty rfl rfl rfl rfl rfl rfl rfl rfl (fun _ => rfl) (fun _ => rfl) (by decide)

theorem State.Inv.emptied {s : State} (h : s.Inv) : s.emptied.Inv :=
  State.inv_of_empty h.buffers rfl rfl rfl rfl rfl rfl rfl h.okInfo h.busyDone h.noDefect

theorem State.Inv.freqTotal_lt {s : State} (h : s.Inv) : freqTotal s.freq < 2 ^ 32 := by
  have hcap := (cap_bounds s.params .symIn).2.1
  have := h.counts
  simp only [Params.cap] at hcap
  omega

/-- TREE_BUILD keeps the invariant: its table is a full binary tree with the root at its end (42_tree_build.md R149). -/
theorem State.Inv.withTree {s : State} (h : s.Inv) (hne : presentSymbols s.freq ≠ []) :
    (s.withTree (buildTree s.freq) (presentSymbols s.freq).length).Inv := by
  have hle := length_presentSymbols_le s.freq
  have hleaf : (BitVec.ofNat 9 (presentSymbols s.freq).length).toNat = (presentSymbols s.freq).length := by
    simp; omega
  have hroot : (BitVec.ofNat 9 (2 * (presentSymbols s.freq).length - 2)).toNat =
      2 * (presentSymbols s.freq).length - 2 := by simp; omega
  refine { h with tree := fun _ => ⟨?_, ?_⟩, noTree := (nomatch ·), code := (nomatch ·) }
  · rw [State.withTree_nleaf, hleaf]
    exact treeShape_buildTree s.freq hne h.freqTotal_lt
  · rw [State.withTree_root, State.withTree_nleaf, hroot, hleaf]

/-- Every successful command keeps the invariant. -/
theorem Commits.inv {s u : State} {i : Instr} (hc : Commits s i u) (h : s.Inv) : u.Inv := by
  cases hc with
  | nop => exact h
  | softReset => exact h.emptied
  | freqBuild hlen =>
    refine { h with counts := ?_ }
    rwa [freqTotal_countSymbols (by simpa using s.symLen.isLt), State.length_inputSymbols]
  | treeBuild hne => exact h.withTree hne
  | codeDerive C htree hcode => exact { h with code := fun _ => ⟨htree, hcode⟩ }
  | encode n hcode hlen hcheck =>
    obtain ⟨-, hn, hfit⟩ := encodeCheck_ok hcheck
    have hbits := hfit (Nat.zero_le _)
    have hcap : 0 + (packBits (encodeSymbols s.code s.inputSymbols)).length ≤ s.params.cap .bitBuf := by
      rw [length_packBits, Nat.zero_add, ceil8_le_iff, Params.cap]
      omega
    exact { h with
      buffers := State.buffersWf_of_store .bitBuf 0 _ h.buffers hcap rfl (by funext c; cases c <;> rfl) }
  | decode out htree hlen hloop =>
    have hout : out.length ≤ s.params.outCap := length_decodeLoop_le hloop (Nat.zero_le _)
    refine { h with
      buffers := State.buffersWf_of_store .symOut 0 out h.buffers (by simpa [Params.cap] using hout) rfl ?_
      output := ?_ }
    · funext c; cases c <;> rfl
    · rw [State.withOutput_outLen, BitVec.toNat_ofNat]
      exact (Nat.mod_le _ _).trans hout

/-- A host write keeps the invariant: a CMD write clears DONE (R36), and a buffer word lies within its capacity (R80). -/
theorem State.Inv.writeLoc {s : State} (h : s.Inv) {off : Offset} {l : Loc} (hl : locate s.params off = some l)
    (v : Word) : (s.writeLoc v l).Inv := by
  cases l with
  | cmd => exact { h with busyDone := fun _ => rfl }
  | status =>
    refine { h with busyDone := fun hbusy => ?_ }
    have := h.busyDone hbusy
    simp [State.writeLoc, this]
  | buffer b m =>
    have hm := lt_cap_of_locate_buffer hl
    have hcap : 4 * m + (wordBytes v).length ≤ s.params.cap b := by
      have := (cap_bounds s.params b).2.2
      simp only [wordBytes, List.length_cons, List.length_nil]
      omega
    cases b with
    | symIn =>
      exact { h with
        buffers := State.buffersWf_of_store .symIn _ _ h.buffers hcap rfl (by funext c; cases c <;> rfl) }
    | bitBuf =>
      exact { h with
        buffers := State.buffersWf_of_store .bitBuf _ _ h.buffers hcap rfl (by funext c; cases c <;> rfl) }
    | symOut => exact h
  | _ => exact { h with }

/-- Whatever a step does, it keeps the invariant. -/
theorem StepEffect.inv {s t : State} (he : StepEffect s t) (h : s.Inv) : t.Inv := by
  cases he with
  | hostOnly H _ => exact h.popTurn.withHost H
  | hostWrite stmt off v l H _ _ _ _ hloc => exact (h.popTurn.writeLoc (off := off) hloc v).withHost H
  | idle _ _ => exact h.popTurn
  | commits i u _ _ hcommits => exact (hcommits.inv h.popTurn).complete (fun _ => rfl) (by decide)
  | fails _ _ hfails =>
    obtain ⟨c, info, hok, hdefect⟩ := hfails
    exact h.popTurn.complete (fun e => absurd e hok) hdefect
  | resets H _ => exact s.popTurn.hardReset_inv.withHost H

/-- Settles O9: after reset there is no tree, no code table and no error. -/
theorem resetMeetsInvariant : Obligations.ResetMeetsInvariant := State.reset_inv

/-- Settles O8: whichever way a step goes, the state after it meets the invariant. -/
theorem stepKeepsInvariant : Obligations.StepKeepsInvariant := fun _ _ h hstep => (step_effect hstep).inv h

end Sys2Proof.Machine
end

section
/-! PROOFS. The registers, windows and flags of 10_state.md. -/

namespace Sys2Proof.Machine

/-! ### Completions (10_state.md R36, R37, 60_exceptions.md R244) -/

theorem encode_softReset : Sys2Proof.encode .softReset = 0x01000000#32 := by decide

/-- A failing completion sets ERR_STICKY (10_state.md R37). -/
theorem Fails.errSticky {s t : State} (h : Fails s t) : t.errSticky = true := by
  obtain ⟨c, info, hok, -⟩ := h
  simp [hok]

theorem Fails.errCode_ne_ok {s t : State} (h : Fails s t) : t.errCode ≠ .ok := by
  obtain ⟨c, info, hok, -⟩ := h
  exact hok

/-- A completion with an error sets ERR_STICKY, whatever the word. -/
theorem errSticky_of_perform {w : Word} {s t : State} (h : perform w s = .next t) (he : t.errCode ≠ .ok) :
    t.errSticky = true := by
  rcases perform_next h with ⟨i, u, -, -, rfl⟩ | hf
  · exact absurd rfl he
  · exact hf.errSticky

theorem perform_softReset (s : State) :
    perform (Sys2Proof.encode .softReset) s = .next (s.emptied.complete .ok 0#32) := by
  rw [perform, decodeCmd_encode]
  rfl

theorem eq_of_exec_softReset {s t : State} (h : exec .softReset s = .next t) :
    t = s.emptied.complete .ok 0#32 := by
  rw [exec, execSoftReset_eq] at h
  simpa using h.symm

/-- A successful completion commits the command that the word names. -/
theorem exec_commits {i : Instr} {s t : State} (h : exec i s = .next t) (hok : t.errCode = .ok) :
    ∃ u, Commits s i u ∧ t = u.complete .ok 0#32 := by
  rcases exec_next h with hu | hf
  · exact hu
  · exact absurd hok hf.errCode_ne_ok

/-- Settles O11: the record is read off a commit with OK or a failure; only SOFT_RESET commits another ERR_STICKY. -/
theorem completionRecordOfEveryCommand : Obligations.CompletionRecordOfEveryCommand := by
  intro s t w h
  have hreset : w = 0x01000000#32 → t.errSticky = false := by
    rintro rfl
    rw [← encode_softReset, perform_softReset] at h
    obtain rfl : s.emptied.complete .ok 0#32 = t := by simpa using h
    rfl
  rcases perform_next h with ⟨i, u, rfl, hu, rfl⟩ | hf
  · refine ⟨rfl, rfl, fun _ => rfl, fun he => absurd rfl he, fun hw _ => ?_, hreset⟩
    have hi : i ≠ .softReset := by rintro rfl; exact hw encode_softReset
    simp [hu.errSticky_eq hi]
  · have hsticky := hf.errSticky
    have hne := hf.errCode_ne_ok
    obtain ⟨c, info, -, -⟩ := hf
    exact ⟨rfl, rfl, fun hok => absurd hok hne, fun _ => hsticky, fun _ hok => absurd hok hne, hreset⟩

/-! ### The registers at their offsets (10_state.md R31 to R45) -/

theorem State.access_memWrite_eq {s t : State} {off : Offset} {l : Loc} {v : Word} (ha : off.toNat % 4 = 0)
    (hl : locate s.params off = some l) (h : s.access (memWrite off v) = .ok (.written, t)) : t = s.writeLoc v l := by
  rw [State.access_memWrite v ha hl] at h
  simpa using h.symm

/-- Settles O40: by the rule of accesses at the offset of ID. -/
theorem idIsConstant : Obligations.IdIsConstant := fun _ v =>
  ⟨State.access_memRead (l := .id) rfl rfl, State.access_memWrite (l := .id) v rfl rfl⟩

theorem State.ctrlWord_getLsbD (s : State) (k : Nat) : s.ctrlWord.getLsbD k = (decide (k = 0) && s.irqEn) := by
  rw [State.ctrlWord, BitVec.getLsbD_append]
  cases k with
  | zero => simp
  | succ k => simp

/-- Settles O41: CTRL is one bit below zeros, and its write stores that bit. -/
theorem ctrlHoldsInterruptEnable : Obligations.CtrlHoldsInterruptEnable := by
  intro s v
  refine ⟨⟨s.ctrlWord, State.access_memRead (l := .ctrl) rfl rfl, ?_, ?_⟩,
    State.access_memWrite (l := .ctrl) v rfl rfl, rfl, by decide, ?_⟩
  · exact s.ctrlWord_getLsbD 0
  · intro k hk
    rw [State.ctrlWord_getLsbD, decide_eq_false (by omega), Bool.false_and]
  · intro t ht
    obtain rfl := eq_of_exec_softReset ht
    rfl

/-- Settles O42: the write of CMD is `State.issue`. -/
theorem cmdWriteIssuesCommand : Obligations.CmdWriteIssuesCommand := fun _ w =>
  ⟨State.access_memRead (l := .cmd) rfl rfl, State.access_memWrite (l := .cmd) w rfl rfl, rfl⟩

/-- Bit `k` of STATUS, from the lowest field up (10_state.md R34). -/
theorem State.statusWord_getLsbD (s : State) (k : Nat) :
    s.statusWord.getLsbD k = match k with
      | 0 => s.busy
      | 1 => s.done
      | 2 => s.errSticky
      | 3 => s.treeValid
      | 4 => s.codeValid
      | _ => false := by
  unfold State.statusWord
  simp only [BitVec.getLsbD_append, BitVec.getLsbD_ofBool]
  match k with
  | 0 | 1 | 2 | 3 | 4 => simp
  | k + 5 => simp

/-- Settles O43: the fields bit by bit, and the write as the model's `writeStatus`. -/
theorem statusFieldsAndClear : Obligations.StatusFieldsAndClear := by
  intro s v
  refine ⟨⟨s.statusWord, State.access_memRead (l := .status) rfl rfl, s.statusWord_getLsbD 0, s.statusWord_getLsbD 1,
    s.statusWord_getLsbD 2, s.statusWord_getLsbD 3, s.statusWord_getLsbD 4, ?_⟩, ?_, by decide⟩
  · intro k hk
    obtain ⟨k, rfl⟩ := Nat.exists_eq_add_of_le' hk
    exact s.statusWord_getLsbD (k + 5)
  · have clear : ∀ a b : Bool, (a && !b) = if b then false else a := by decide
    rw [State.access_memWrite (l := .status) v rfl rfl]
    simp only [State.writeLoc, State.writeStatus, clear]

/-- BIT_BYTES does not overflow (10_state.md R40). -/
theorem State.bitBytes_toNat (s : State) : s.bitBytes.toNat = (s.bitLen.toNat + 7) / 8 := by
  have := s.bitLen.isLt
  rw [State.bitBytes, ceil8, BitVec.toNat_ofNat]
  omega

/-- Settles O44: `(n + 7) / 8` of a 32-bit `n` fits a word. -/
theorem lengthRegistersReadBack : Obligations.LengthRegistersReadBack := by
  intro s v
  have hbytes : s.access (memRead 0x020#26) = .ok (.data s.bitBytes, s) := State.access_memRead (l := .bitBytes) rfl rfl
  refine ⟨State.access_memWrite (l := .symLen) v rfl rfl, State.access_memWrite (l := .bitLen) v rfl rfl,
    State.access_memRead (l := .symLen) rfl rfl, State.access_memRead (l := .bitLen) rfl rfl,
    ⟨s.bitBytes, hbytes, s.bitBytes_toNat⟩, State.access_memWrite (l := .bitBytes) v rfl rfl, fun hlen => ?_, by decide⟩
  have h20 : s.bitBytes = 0x20000000#32 := by rw [State.bitBytes, hlen]; decide
  rw [hbytes, h20]

/-- Settles O45: the capacities are at most 2^24, so their registers show them whole, and no write, command or reset
assigns them. -/
theorem capacitiesAreConstant : Obligations.CapacitiesAreConstant := by
  intro s v
  have shows : ∀ b, (BitVec.ofNat 32 (s.params.cap b)).toNat = s.params.cap b := fun b => by
    have := (cap_bounds s.params b).2.1
    rw [BitVec.toNat_ofNat]
    omega
  refine ⟨cap_bounds s.params, ⟨_, State.access_memRead (l := .symCapR) rfl rfl, shows .symIn⟩,
    ⟨_, State.access_memRead (l := .bitCapR) rfl rfl, shows .bitBuf⟩,
    ⟨_, State.access_memRead (l := .outCapR) rfl rfl, shows .symOut⟩, ?_, ?_⟩
  · simp only [List.forall_mem_cons, List.not_mem_nil, false_imp_iff, implies_true, and_true]
    exact ⟨State.access_memWrite (l := .symCapR) v rfl rfl, State.access_memWrite (l := .bitCapR) v rfl rfl,
      State.access_memWrite (l := .outCapR) v rfl rfl⟩
  · intro t ht
    cases step_effect ht with
    | hostOnly H _ => rfl
    | hostWrite stmt off v l H _ _ _ _ _ => simp
    | idle _ _ => rfl
    | commits i u _ _ hu => exact hu.params_eq
    | fails _ _ hf => cases hf; rfl
    | resets H _ => rfl

/-- Settles O48: a read changes nothing, and a write no more than its frame says. -/
theorem hostCannotWriteTables : Obligations.HostCannotWriteTables := by
  intro s t a r h
  obtain ⟨l, -, ⟨_, _, -, -, rfl⟩ | ⟨_, _, _, v, -, -, rfl⟩⟩ := State.access_ok h
  · exact ⟨rfl, rfl, rfl, rfl, rfl, rfl, rfl, rfl, rfl, rfl, rfl, rfl⟩
  · rw [State.writeLoc_frame]
    exact ⟨rfl, rfl, rfl, rfl, rfl, rfl, rfl, rfl, rfl, rfl, rfl, rfl⟩

/-! ### The windows over the tables (10_state.md R46 to R51) -/

theorem readLoc_codeLen_toNat {s : State} {x : Byte} {w : BitSeq} (hw : s.codewordAt x = some w)
    (hlen : w.length ≤ 255) : (s.readLoc (.codeLen x)).toNat = w.length := by
  simp only [State.readLoc, State.codeLenWord, hw, BitVec.toNat_append, BitVec.toNat_ofNat]
  simp
  omega

theorem readLoc_codeBits_getLsbD {s : State} {x : Byte} {w : BitSeq} (hw : s.codewordAt x = some w) (k : BitVec 3)
    {t : Nat} (ht : t < 32) :
    (s.readLoc (.codeBits x k)).getLsbD (31 - t) = w.getD (32 * k.toNat + t) false := by
  simp only [State.readLoc, State.codeBitsWord, hw]
  exact bitsBE_getLsbD 32 _ ht

/-- Settles O51: each window word stands at its offset and shows the codeword that `codewordAt` gives, if any. -/
theorem codeWindowsShowCodewords : Obligations.CodeWindowsShowCodewords := by
  intro s x
  refine ⟨fun v => ?_, fun k v => ?_, fun w hvalid hw hlen => ?_, fun hnone => ?_⟩
  · have ha : (BitVec.ofNat 26 (0x800 + 4 * x.toNat)).toNat % 4 = 0 := by simp
    exact ⟨State.access_memRead ha (locate_codeLen _ x), State.access_memWrite v ha (locate_codeLen _ x)⟩
  · have ha : (BitVec.ofNat 26 (0x4000 + 32 * x.toNat + 4 * k.toNat)).toNat % 4 = 0 := by simp; omega
    exact ⟨State.access_memRead ha (locate_codeBits _ x k), State.access_memWrite v ha (locate_codeBits _ x k)⟩
  · have hword : s.codewordAt x = some w := by simp [State.codewordAt, hvalid, hw]
    exact ⟨readLoc_codeLen_toNat hword hlen, fun k t ht => readLoc_codeBits_getLsbD hword k ht⟩
  · have hword : s.codewordAt x = none := by
      rcases hnone with hvalid | hw
      · simp [State.codewordAt, hvalid]
      · simp [State.codewordAt, hw]
    simp [State.readLoc, State.codeLenWord, State.codeBitsWord, hword]

/-- Settles O52: each window word stands at its offset and is `nodeWord` of the entry, if it holds a value. -/
theorem nodeWindowShowsNodes : Obligations.NodeWindowShowsNodes := by
  intro s i
  refine ⟨fun k v => ?_, fun x f hleaf => ?_, fun f l r hnode => ?_, fun hnone k => ?_⟩
  · have ha : (BitVec.ofNat 26 (0x1000 + 16 * i.toNat + 4 * k.toNat)).toNat % 4 = 0 := by simp; omega
    exact ⟨State.access_memRead ha (locate_node _ i k), State.access_memWrite v ha (locate_node _ i k)⟩
  · simp only [State.readLoc, hleaf]
    exact ⟨rfl, rfl, rfl, rfl⟩
  · simp only [State.readLoc, hnode]
    exact ⟨rfl, rfl, rfl, rfl⟩
  · have hcount : s.nodeCount ≤ i.toNat := by
      rcases hnone with htree | hi
      · simp [State.nodeCount, htree]
      · unfold State.nodeCount
        split <;> omega
    have hnode : s.nodeAt i = none := if_neg (by omega)
    simp only [State.readLoc, hnode]
    rfl

/-- The low bits of a word that shows an `n`-bit value below zeros. -/
theorem getLsbD_zero_append {m n : Nat} (x : BitVec n) (k : Nat) :
    (0#m ++ x).getLsbD k = (decide (k < n) && x.getLsbD k) := by
  rw [BitVec.getLsbD_append]
  split <;> simp [*]

/-- Settles O59: each register is its value below zeros, and its location is read-only. -/
theorem resultRegistersShowTheirValues : Obligations.ResultRegistersShowTheirValues := by
  intro s v
  have low : ∀ {m n : Nat} (x : BitVec n), ∀ k < n, (0#m ++ x).getLsbD k = x.getLsbD k := fun x k hk => by
    rw [getLsbD_zero_append, decide_eq_true hk, Bool.true_and]
  have high : ∀ {m n : Nat} (x : BitVec n) k, n ≤ k → (0#m ++ x).getLsbD k = false := fun x k hk => by
    rw [getLsbD_zero_append, decide_eq_false (by omega), Bool.false_and]
  refine ⟨⟨_, State.access_memRead (l := .errCode) rfl rfl, low _, high _⟩,
    State.access_memRead (l := .errInfo) rfl rfl, State.access_memRead (l := .outLen) rfl rfl,
    ⟨_, State.access_memRead (l := .root) rfl rfl, low _, high _⟩,
    ⟨_, State.access_memRead (l := .nleaf) rfl rfl, low _, high _⟩, fun x => ?_, ?_⟩
  · have ha : (BitVec.ofNat 26 (0x400 + 4 * x.toNat)).toNat % 4 = 0 := by simp
    exact ⟨State.access_memRead ha (locate_freq _ x), State.access_memWrite v ha (locate_freq _ x)⟩
  · simp only [List.forall_mem_cons, List.not_mem_nil, false_imp_iff, implies_true, and_true]
    exact ⟨State.access_memWrite (l := .errCode) v rfl rfl, State.access_memWrite (l := .errInfo) v rfl rfl,
      State.access_memWrite (l := .outLen) v rfl rfl, State.access_memWrite (l := .root) v rfl rfl,
      State.access_memWrite (l := .nleaf) v rfl rfl⟩

/-! ### The interrupt line and the flags in every step (10_state.md R35 to R38, R57) -/

/-- Settles O54: a completion sets DONE and keeps IRQ_EN, and each write sets `irq` through the one bit it changes. -/
theorem interruptFollowsDoneAndEnable : Obligations.InterruptFollowsDoneAndEnable := by
  intro s v w
  refine ⟨rfl, fun t ht => ?_, fun t ht hv => ?_, fun t ht => ?_, fun t ht => ?_, rfl⟩
  · rcases perform_next ht with ⟨i, u, -, hu, rfl⟩ | ⟨c, info, -, -⟩
    · simp [State.irq, hu.irqEn_eq]
    · simp [State.irq]
  · rw [State.access_memWrite_eq (l := .status) rfl rfl ht]
    simp [State.writeLoc, State.irq, hv]
  · rw [State.access_memWrite_eq (l := .cmd) rfl rfl ht]
    rfl
  · rw [State.access_memWrite_eq (l := .ctrl) rfl rfl ht]
    exact ⟨rfl, rfl⟩

/-- Settles O55: of the ways a step goes, only a write to CMD makes a word pending; the others keep the pending word or
end it. -/
theorem onlyCmdWritesStartCommands : Obligations.OnlyCmdWritesStartCommands := by
  intro s t h
  cases step_effect h with
  | hostOnly H _ =>
    exact ⟨fun hs ht => absurd (hs.symm.trans ht) (by decide), fun hs ht => absurd (hs.symm.trans ht) (by decide),
      fun _ _ => rfl⟩
  | hostWrite stmt off v l H hturn hidle hstmt haccess hloc =>
    refine ⟨fun _ ht => ?_, fun hs => absurd (hs.symm.trans hidle) (by decide),
      fun hs => absurd (hs.symm.trans hidle) (by decide)⟩
    by_cases hl : l = .cmd
    · subst hl
      rw [off_of_locate_cmd hloc] at haccess
      exact ⟨hturn, stmt, v, hstmt, haccess, rfl, rfl⟩
    · have hpending : (s.popTurn.writeLoc v l).pending = s.pending := State.writeLoc_pending _ v hl
      simp only [State.busy, hpending] at ht hidle
      exact absurd (hidle.symm.trans ht) (by decide)
  | idle _ _ =>
    exact ⟨fun hs ht => absurd (hs.symm.trans ht) (by decide), fun hs ht => absurd (hs.symm.trans ht) (by decide),
      fun _ _ => rfl⟩
  | commits i u hturn _ _ => exact ⟨fun _ => (nomatch ·), fun _ _ => .inl hturn, fun _ => (nomatch ·)⟩
  | fails _ hturn hf =>
    cases hf
    exact ⟨fun _ => (nomatch ·), fun _ _ => .inl hturn, fun _ => (nomatch ·)⟩
  | resets H hturn => exact ⟨fun _ => (nomatch ·), fun _ _ => .inr hturn, fun _ => (nomatch ·)⟩

/-- A step keeps both validity bits, or resets them, or commits a command. -/
theorem StepEffect.validity {s t : State} (he : StepEffect s t) :
    (t.treeValid = s.treeValid ∧ t.codeValid = s.codeValid) ∨
    (s.nextTurn = .reset ∧ t.treeValid = false ∧ t.codeValid = false) ∨
    ∃ i u, s.nextTurn = .engine ∧ s.pending = some (Sys2Proof.encode i) ∧ Commits s.popTurn i u ∧
      t = u.complete .ok 0#32 := by
  cases he with
  | hostOnly H _ => exact .inl ⟨rfl, rfl⟩
  | hostWrite stmt off v l H _ _ _ _ _ => exact .inl ⟨by simp, by simp⟩
  | idle _ _ => exact .inl ⟨rfl, rfl⟩
  | commits i u hturn hpending hu => exact .inr (.inr ⟨i, u, hturn, hpending, hu, rfl⟩)
  | fails _ _ hf => cases hf; exact .inl ⟨rfl, rfl⟩
  | resets H hturn => exact .inr (.inl ⟨hturn, rfl, rfl⟩)

/-- Settles O56: each change of a validity bit is traced to the command or the reset that makes it. -/
theorem validityBitsChangeOnlyByTheirCommands : Obligations.ValidityBitsChangeOnlyByTheirCommands := by
  refine ⟨fun s t h => ?_, fun s t => ⟨fun h hok => ?_, fun h hok => ?_, fun h => ?_⟩, fun s => ⟨rfl, rfl⟩, rfl, rfl⟩
  · rcases (step_effect h).validity with ⟨htree, hcode⟩ | ⟨hturn, htree, hcode⟩ | ⟨i, u, hturn, hpending, hu, rfl⟩
    · simp +contextual [htree, hcode]
    · simp [htree, hcode, hturn]
    · refine ⟨fun hs ht => ?_, fun hs ht => ?_, fun hs ht => ?_, fun hs ht => ?_⟩
      · exact ⟨hturn, hu.eq_of_treeValid_set hs ht ▸ hpending, rfl⟩
      · exact .inr ⟨hturn, hu.eq_of_treeValid_cleared hs ht ▸ hpending⟩
      · exact ⟨hturn, hu.eq_of_codeValid_set hs ht ▸ hpending, rfl⟩
      · rcases hu.eq_of_codeValid_cleared hs ht with rfl | rfl
        · exact .inr ⟨hturn, .inl hpending⟩
        · exact .inr ⟨hturn, .inr ⟨hpending, rfl⟩⟩
  · obtain ⟨u, hu, rfl⟩ := exec_commits h hok
    cases hu
    exact ⟨rfl, rfl⟩
  · obtain ⟨u, hu, rfl⟩ := exec_commits h hok
    cases hu
    rfl
  · obtain rfl := eq_of_exec_softReset h
    exact ⟨rfl, rfl⟩

/-- Settles O57: of the ways a step goes, only a STATUS write, SOFT_RESET and reset clear ERR_STICKY. -/
theorem stickyErrorIsNotLost : Obligations.StickyErrorIsNotLost := by
  refine ⟨fun s t h hs ht => ?_, fun s t w h he => errSticky_of_perform h he, fun s t v h hv => ?_, fun s t h => ?_,
    fun s => rfl, rfl⟩
  · cases step_effect h with
    | hostOnly H _ => exact absurd (hs.symm.trans ht) (by decide)
    | hostWrite stmt off v l H hturn _ hstmt haccess hloc =>
      by_cases hl : l = .status
      · subst hl
        rw [off_of_locate_status hloc] at haccess
        have hclear : (s.errSticky && !v.getLsbD 2) = false := ht
        exact .inr (.inr ⟨hturn, stmt, v, hstmt, haccess, by simpa [hs] using hclear⟩)
      · have hkept : (s.popTurn.writeLoc v l).errSticky = s.errSticky := State.writeLoc_errSticky _ v hl
        exact absurd (hs.symm.trans (hkept.symm.trans ht)) (by decide)
    | idle _ _ => exact absurd (hs.symm.trans ht) (by decide)
    | commits i u hturn hpending hu =>
      by_cases hi : i = .softReset
      · exact .inr (.inl ⟨hturn, by rw [hpending, hi]⟩)
      · have hkept : u.errSticky = s.errSticky := hu.errSticky_eq hi
        simp [hkept, hs] at ht
    | fails _ _ hf => exact absurd (hf.errSticky.symm.trans ht) (by decide)
    | resets H hturn => exact .inl hturn
  · rw [State.access_memWrite_eq (l := .status) rfl rfl h]
    simp [State.writeLoc, hv]
  · obtain rfl := eq_of_exec_softReset h
    rfl

end Sys2Proof.Machine
end

section
/-! PROOFS. The bytes, words and stream bits of the buffer windows (20_memory.md R76, R77). -/

namespace Sys2Proof.Machine

/-! ### The byte lanes of a window word (20_memory.md R76) -/

/-- Lane `k` of the word of four bytes is byte `k`. -/
theorem wordOfBytes_getLsbD (b : Nat → Byte) {k i : Nat} (hk : k < 4) (hi : i < 8) :
    (wordOfBytes (b 0) (b 1) (b 2) (b 3)).getLsbD (24 - 8 * k + i) = (b k).getLsbD i := by
  simp only [wordOfBytes, BitVec.getLsbD_append]
  match k, hk with
  | 0, _ => rw [if_neg (by omega), if_neg (by omega), if_neg (by omega)]; congr 1; omega
  | 1, _ => rw [if_neg (by omega), if_neg (by omega), if_pos (by omega)]; congr 1; omega
  | 2, _ => rw [if_neg (by omega), if_pos (by omega)]; congr 1; omega
  | 3, _ => rw [if_pos (by omega)]; congr 1; omega

theorem State.readLoc_buffer_getLsbD (s : State) (b : Buffer) (m : Nat) {k i : Nat} (hk : k < 4) (hi : i < 8) :
    (s.readLoc (.buffer b m)).getLsbD (24 - 8 * k + i) = (s.readByte b (4 * m + k)).getLsbD i :=
  wordOfBytes_getLsbD (fun k => s.readByte b (4 * m + k)) hk hi

/-- Settles O50: bit `7 - p mod 8` of byte `p div 8` lies in lane `p div 8 mod 4` of word `p div 32`. -/
theorem streamBitsReadInWindowOrder : Obligations.StreamBitsReadInWindowOrder := by
  intro s p
  have hbyte : 4 * (p / 32) + p / 8 % 4 = p / 8 := by omega
  have hbit : 24 - 8 * (p / 8 % 4) + (7 - p % 8) = 31 - p % 32 := by omega
  have hlane := s.readLoc_buffer_getLsbD .bitBuf (p / 32) (k := p / 8 % 4) (i := 7 - p % 8) (by omega) (by omega)
  rw [hbyte, hbit] at hlane
  exact hlane.symm

/-! ### A word written to a buffer (20_memory.md R76, R81) -/

/-- What a write of `v` to word `m` of a buffer makes of that buffer. -/
structure WroteWord (s t : State) (b : Buffer) (m : Nat) (v : Word) : Prop where
  mem   : t.mem b = (s.mem b).store (4 * m) (wordBytes v)
  epoch : t.epoch = s.epoch

theorem wordBytes_getElem (v : Word) {k : Nat} (hk : k < (wordBytes v).length) : (wordBytes v)[k] = byteLane v k := by
  match k, hk with
  | 0, _ | 1, _ | 2, _ | 3, _ => rfl

/-- The four bytes of the word read the lanes of the value written. -/
theorem WroteWord.readByte {s t : State} {b : Buffer} {m : Nat} {v : Word} (h : WroteWord s t b m v) {k : Nat}
    (hk : k < 4) : t.readByte b (4 * m + k) = byteLane v k := by
  have hlen : k < (wordBytes v).length := hk
  rw [← wordBytes_getElem v hlen]
  exact t.readByte_of_get? b (h.mem ▸ Memory.get?_store_mid _ _ _ hlen)

/-- Every other byte of the buffer keeps its value. -/
theorem WroteWord.readByte_of_outside {s t : State} {b : Buffer} {m : Nat} {v : Word} (h : WroteWord s t b m v)
    {j : Nat} (hj : j < 4 * m ∨ 4 * m + 4 ≤ j) : t.readByte b j = s.readByte b j := by
  refine State.readByte_congr ?_ h.epoch
  rw [h.mem]
  rcases hj with hj | hj
  · exact Memory.get?_store_before _ _ hj
  · exact Memory.get?_store_after _ _ hj

/-- The word then reads the value written. -/
theorem WroteWord.readLoc {s t : State} {b : Buffer} {m : Nat} {v : Word} (h : WroteWord s t b m v) :
    t.readLoc (.buffer b m) = v := by
  have h0 : t.readByte b (4 * m) = byteLane v 0 := h.readByte (k := 0) (by decide)
  rw [State.readLoc, State.readBufferWord, h0, h.readByte (k := 1) (by decide), h.readByte (k := 2) (by decide),
    h.readByte (k := 3) (by decide), wordOfBytes_lanes]

/-- The lanes written, bit by bit. -/
theorem WroteWord.readByte_getLsbD {s t : State} {b : Buffer} {m : Nat} {v : Word} (h : WroteWord s t b m v)
    {k i : Nat} (hk : k < 4) (hi : i < 8) :
    (t.readByte b (4 * m + k)).getLsbD i = v.getLsbD (24 - 8 * k + i) := by
  rw [h.readByte hk, byteLane_getLsbD v k i hi]

/-! ### The windows at their offsets (20_memory.md R79, R80) -/

/-- The offset of the window of a buffer (20_memory.md R79). -/
def windowBase : Buffer → Nat
  | .symIn => 0x1000000
  | .bitBuf => 0x2000000
  | .symOut => 0x3000000

/-- The offset of a window word within the capacity does not wrap. -/
theorem windowOffset_toNat {p : Params} {b : Buffer} {m : Nat} (hm : 4 * m < p.cap b) :
    (BitVec.ofNat 26 (windowBase b + 4 * m)).toNat = windowBase b + 4 * m := by
  have hcap := (cap_bounds p b).2.1
  rw [BitVec.toNat_ofNat, Nat.mod_eq_of_lt]
  cases b <;> simp only [windowBase] <;> omega

theorem windowOffset_aligned {p : Params} {b : Buffer} {m : Nat} (hm : 4 * m < p.cap b) :
    (BitVec.ofNat 26 (windowBase b + 4 * m)).toNat % 4 = 0 := by
  rw [windowOffset_toNat hm]
  cases b <;> simp only [windowBase] <;> omega

/-- From 0x100_0000 on the map holds the three windows alone. -/
theorem locate_of_window_le {p : Params} {off : Offset} (h : 0x1000000 ≤ off.toNat) :
    locate p off =
      if off.toNat < 0x2000000 then locateBuffer p .symIn ((off.toNat - 0x1000000) / 4)
      else if off.toNat < 0x3000000 then locateBuffer p .bitBuf ((off.toNat - 0x2000000) / 4)
      else locateBuffer p .symOut ((off.toNat - 0x3000000) / 4) := by
  simp only [locate]
  rw [if_neg (by omega), if_neg (by omega), if_neg (by omega), if_neg (by omega), if_neg (by omega), if_neg (by omega),
    if_neg (by omega), if_neg (by omega)]

/-- Word `m` of a buffer stands at the window's offset + 4m. -/
theorem locate_buffer {p : Params} {b : Buffer} {m : Nat} (hm : 4 * m < p.cap b) :
    locate p (BitVec.ofNat 26 (windowBase b + 4 * m)) = some (.buffer b m) := by
  have hcap := (cap_bounds p b).2.1
  have hword : locateBuffer p b ((windowBase b + 4 * m - windowBase b) / 4) = some (.buffer b m) := by
    rw [Nat.add_sub_cancel_left, Nat.mul_div_cancel_left m (by decide), locateBuffer, if_pos hm]
  have hbase : 0x1000000 ≤ windowBase b + 4 * m := by cases b <;> simp only [windowBase] <;> omega
  rw [locate_of_window_le (by rwa [windowOffset_toNat hm]), windowOffset_toNat hm, ← hword]
  cases b with
  | symIn => exact if_pos (by simp only [windowBase]; omega)
  | bitBuf =>
    rw [if_neg (by simp only [windowBase]; omega)]
    exact if_pos (by simp only [windowBase]; omega)
  | symOut =>
    rw [if_neg (by simp only [windowBase]; omega)]
    exact if_neg (by simp only [windowBase]; omega)

/-- Settles O49: each window word stands at its offset, and a write of it stores its four lanes. -/
theorem bufferWordsAreBigEndian : Obligations.BufferWordsAreBigEndian := by
  intro s m v
  have read : ∀ b, 4 * m < s.params.cap b → s.access (memRead (BitVec.ofNat 26 (windowBase b + 4 * m))) =
      .ok (.data (s.readLoc (.buffer b m)), s) := fun b hm =>
    State.access_memRead (windowOffset_aligned hm) (locate_buffer hm)
  have write : ∀ b, 4 * m < s.params.cap b → s.access (memWrite (BitVec.ofNat 26 (windowBase b + 4 * m)) v) =
      .ok (.written, s.writeLoc v (.buffer b m)) := fun b hm =>
    State.access_memWrite v (windowOffset_aligned hm) (locate_buffer hm)
  refine ⟨fun b _ k hk i hi => s.readLoc_buffer_getLsbD b m hk hi, read .symIn, read .bitBuf, read .symOut,
    fun hm => ?_, fun hm => ?_, write .symOut⟩
  · have wrote : WroteWord s (s.writeLoc v (.buffer .symIn m)) .symIn m v := ⟨rfl, rfl⟩
    exact ⟨_, write .symIn hm, fun k hk i hi => wrote.readByte_getLsbD hk hi, fun j hj => wrote.readByte_of_outside hj,
      wrote.readLoc, rfl⟩
  · have wrote : WroteWord s (s.writeLoc v (.buffer .bitBuf m)) .bitBuf m v := ⟨rfl, rfl⟩
    exact ⟨_, write .bitBuf hm, fun k hk i hi => wrote.readByte_getLsbD hk hi,
      fun j hj => wrote.readByte_of_outside hj, wrote.readLoc, rfl⟩

end Sys2Proof.Machine
end

section
/-! PROOFS. Accesses performed, refused and held, and the host's turns that make them (20_memory.md R72 to R83). -/

namespace Sys2Proof.Machine

/-! ### Bus errors (20_memory.md R72 to R74, R79, R80) -/

theorem locateRegister_isSome {a : Nat} (ha : a % 4 = 0) : (locateRegister a).isSome = true ↔ a ≤ 0x03B := by
  unfold locateRegister
  split
  case h_16 =>
    simp only [imp_false] at *
    simp only [Option.isSome_none, Bool.false_eq_true, false_iff]
    omega
  all_goals simp

theorem locateBuffer_isSome (p : Params) (b : Buffer) (m : Nat) :
    (locateBuffer p b m).isSome = true ↔ 4 * m < p.cap b := by
  unfold locateBuffer
  split <;> simp [*]

/-- The address map names a location at exactly the aligned offsets within the ranges of R79 and R80. -/
theorem locate_isSome_iff (p : Params) {off : Offset} (ha : off.toNat % 4 = 0) :
    (locate p off).isSome = true ↔ mappedOffset p off.toNat := by
  have hoff := off.isLt
  have hsym : p.symCap ≤ 2 ^ 24 := (cap_bounds p .symIn).2.1
  have hbit : p.bitCap ≤ 2 ^ 24 := (cap_bounds p .bitBuf).2.1
  simp only [locate, mappedOffset]
  split_ifs
  · rw [locateRegister_isSome ha]; omega
  all_goals
    simp only [Option.isSome_some, Option.isSome_none, locateBuffer_isSome, Params.cap, true_iff, Bool.false_eq_true,
      false_iff]
    omega

theorem off_aligned_of_wf {a : HostAccess} (h : a.wf = true) : (HostAccess.off a).toNat % 4 = 0 := by
  cases a with
  | read | write =>
    simp only [HostAccess.wf, Bool.and_eq_true, decide_eq_true_eq] at h
    exact h.2

/-- An access gets a bus error exactly when it reaches no location. -/
theorem State.access_error_iff (s : State) (a : HostAccess) :
    (∃ e, s.access a = .error e) ↔ ¬ ∃ l, accessLoc s.params a = .ok l := by
  unfold State.access
  cases accessLoc s.params a with
  | error e => simp
  | ok l => cases a <;> simp

/-! ### The host's turns (30_encoding.md R107, 20_memory.md R83) -/

section
variable {s : State} {stmt : HostStmt} {a : HostAccess}

theorem hostTurn_eq (hstmt : s.host.code[s.host.pos]? = some stmt) (ha : stmtAccess stmt = some a) :
    hostTurn s = hostAccess s stmt a := by
  simp only [hostTurn, hstmt, ha]

theorem hostAccess_of_held (h : s.held a = true) : hostAccess s stmt a = .next s.hostWait := by
  simp [hostAccess, h]

theorem hostAccess_of_error {e : BusError} (h : s.held a = false) (ha : s.access a = .error e) :
    hostAccess s stmt a = .fault (.hostBusError (HostAccess.off a) e) := by
  simp [hostAccess, h, ha]

theorem hostAccess_of_written {u : State} (h : s.held a = false) (ha : s.access a = .ok (.written, u)) :
    hostAccess s stmt a = .next (u.hostAt (s.host.pos + 1)) := by
  simp [hostAccess, h, ha]

theorem hostAccess_of_data {v : Word} {u : State} (h : s.held a = false) (ha : s.access a = .ok (.data v, u)) :
    hostAccess s stmt a = hostReceive (u.hostAt (s.host.pos + 1)) v stmt := by
  simp [hostAccess, h, ha]

theorem held_of_idle (h : s.busy = false) (a : HostAccess) : s.held a = false := by simp [State.held, h]

/-- A read changes nothing. -/
theorem State.eq_of_access_data {v : Word} {u : State} (h : s.access a = .ok (.data v, u)) : u = s := by
  obtain ⟨l, -, ⟨_, _, -, -, hu⟩ | ⟨_, _, _, _, -, hr, -⟩⟩ := State.access_ok h
  · exact hu
  · exact nomatch hr

end

/-- Settles O46: an access reaches a location exactly when it is well formed and its offset lies in the map's ranges. -/
theorem busErrorsExactly : Obligations.BusErrorsExactly := by
  intro s a
  refine ⟨?_, fun e stmt he hheld hstmt ha => ?_⟩
  · simp only [State.access_error_iff, accessLoc_ok_iff, exists_and_left, ← Option.isSome_iff_exists]
    exact not_congr (and_congr_right fun hwf => locate_isSome_iff s.params (off_aligned_of_wf hwf))
  · rw [hostTurn_eq hstmt ha, hostAccess_of_error hheld he]

theorem State.writeLoc_of_readOnly (s : State) (v : Word) {l : Loc} (h : l.readOnly = true) : s.writeLoc v l = s := by
  cases l with
  | ctrl | cmd | status | symLen | bitLen => exact nomatch h
  | buffer b m =>
    cases b with
    | symIn | bitBuf => exact nomatch h
    | symOut => rfl
  | _ => rfl

/-- Settles O47: a read answers from the state it leaves, and a write to a read-only location assigns nothing. -/
theorem readsAndReadOnlyWritesChangeNothing : Obligations.ReadsAndReadOnlyWritesChangeNothing := by
  intro s t r
  refine ⟨fun off width h => ?_, fun off v l hl hro => ?_⟩
  · obtain ⟨l, -, ⟨_, _, -, -, rfl⟩ | ⟨_, _, _, _, ha, -, -⟩⟩ := State.access_ok h
    · rfl
    · exact nomatch ha
  · obtain ⟨hwf, hloc⟩ := (accessLoc_ok_iff _ _ _).1 hl
    have ha : off.toNat % 4 = 0 := off_aligned_of_wf hwf
    rw [State.access_memWrite v ha hloc, s.writeLoc_of_readOnly v hro]

/-! ### What the host does with a word it reads (30_encoding.md R107) -/

theorem HostThread.get?_assign (vars : List (Nat × Word)) (x y : Nat) (v : Word) :
    HostThread.get? (HostThread.assign vars x v) y = if y = x then some v else HostThread.get? vars y := by
  induction vars with
  | nil => simp [HostThread.assign, HostThread.get?, eq_comm]
  | cons p vars ih =>
    obtain ⟨z, u⟩ := p
    by_cases hz : z = x
    · subst hz
      by_cases hy : y = z
      · simp [HostThread.assign, HostThread.get?, hy]
      · simp [HostThread.assign, HostThread.get?, hy, Ne.symm hy]
    · by_cases hy : z = y
      · have hyx : y ≠ x := hy ▸ hz
        simp [HostThread.assign, HostThread.get?, hy, hyx]
      · simp [HostThread.assign, HostThread.get?, hz, hy, ih]

/-- A statement receives the word it read as R107 says: nothing but the host's thread changes. -/
theorem receives_hostReceive (s : State) (stmt : HostStmt) (v : Word) :
    s.receives stmt v (hostReceive (s.hostAt (s.host.pos + 1)) v stmt) := by
  refine ⟨?_, ?_, ?_⟩
  · rintro off x rfl
    refine ⟨_, rfl, rfl, rfl, rfl, rfl, ?_, fun y hy => ?_⟩
    · simp [HostThread.get?_assign]
    · simp [HostThread.get?_assign, hy]
  · rintro off want rfl
    rfl
  · rintro a rfl
    rfl

/-- The turn of a statement whose read is performed. -/
theorem receives_hostTurn {s u : State} {stmt : HostStmt} {a : HostAccess} {v : Word}
    (hstmt : s.host.code[s.host.pos]? = some stmt) (ha : stmtAccess stmt = some a) (hheld : s.held a = false)
    (hread : s.access a = .ok (.data v, u)) : s.receives stmt v (hostTurn s) := by
  rw [hostTurn_eq hstmt ha, hostAccess_of_data hheld hread, State.eq_of_access_data hread]
  exact receives_hostReceive s stmt v

/-- Settles O53: while a command is pending `held` excepts the read of STATUS alone. -/
theorem accessesHeldWhileBusy : Obligations.AccessesHeldWhileBusy := by
  intro s stmt a hbusy hstmt ha
  refine ⟨fun hne => ?_, ?_⟩
  · have hheld : s.held a = true := by simp [State.held, hbusy, hne]
    rw [hostTurn_eq hstmt ha, hostAccess_of_held hheld]
    rfl
  · rintro rfl
    have hfree : s.held (memRead 0x00C#26) = false := by simp [State.held]
    exact ⟨(s.statusWord_getLsbD 0).trans hbusy,
      receives_hostTurn hstmt ha hfree (State.access_memRead (l := .status) rfl rfl)⟩

/-! ### The completion that lifts the hold (46_control.md R222) -/

theorem Commits.host_eq {s u : State} {i : Instr} (h : Commits s i u) : u.host = s.host := by cases h <;> rfl

/-- The engine's step of a pending word leaves nothing pending and does not touch the host. -/
theorem perform_completes {w : Word} {s t : State} (h : perform w s = .next t) :
    t.host = s.host ∧ t.busy = false := by
  rcases perform_next h with ⟨i, u, -, hu, rfl⟩ | ⟨c, info, -, -⟩
  · exact ⟨hu.host_eq, rfl⟩
  · exact ⟨rfl, rfl⟩

theorem engineTurn_completes {s t : State} (hbusy : s.busy = true) (h : engineTurn s = .next t) :
    t.host = s.host ∧ t.busy = false := by
  obtain ⟨w, hw⟩ := Option.isSome_iff_exists.1 hbusy
  rw [engineTurn, hw] at h
  exact perform_completes h

/-- Settles O60: after the completion nothing is held, so the host's turn is the access on the new state. -/
theorem heldAccessPerformedAfterCompletion : Obligations.HeldAccessPerformedAfterCompletion := by
  intro s t stmt a hbusy hstmt ha h
  obtain ⟨hhost, hidle⟩ := engineTurn_completes hbusy h
  have hfree := held_of_idle hidle a
  rw [← hhost] at hstmt
  refine ⟨hhost, hidle, fun u hu => ?_, fun v u hu => ?_, fun e he => ?_⟩
  · rw [hostTurn_eq hstmt ha, hostAccess_of_written hfree hu, hhost]
  · exact ⟨State.eq_of_access_data hu, receives_hostTurn hstmt ha hfree hu⟩
  · rw [hostTurn_eq hstmt ha, hostAccess_of_error hfree he]

end Sys2Proof.Machine
end

section
/-! PROOFS. The command words, what an illegal word does, and the frame of every command (30_encoding.md R100 to R108). -/

namespace Sys2Proof.Machine

/-! ### The opcode map (30_encoding.md R103 to R106) -/

/-- Settles O2: the map is read off the encoder, and the two directions are the decoder's round trips. -/
theorem decodeAndEncodeAgree : Obligations.DecodeAndEncodeAgree :=
  ⟨rfl, encode_softReset, rfl, rfl, rfl, rfl, rfl, fun i _ => decodeCmd_encode i, fun _ _ => eq_encode_of_decodeCmd⟩

/-- Every 32-bit word is its own table word, so the table decoder answers what `decodeCmd` does. -/
theorem decodeTableWord_toNat (w : Word) : decodeTableWord 32 w.toNat = (decodeCmd w).toOption := by
  have hword : tableWord 32 w.toNat = some w := by simp [tableWord, Nat.mod_eq_of_lt w.isLt, w.isLt]
  simp only [decodeTableWord, hword]
  cases decodeCmd w <;> rfl

theorem decodeTableWord_encode (i : Instr) : decodeTableWord 32 (Sys2Proof.encode i).toNat = some i := by
  rw [decodeTableWord_toNat, decodeCmd_encode]
  rfl

/-- Settles O1: each of the seven words is its command's, and the two others decode to an error. -/
theorem opcodeMapWordsDecode : Obligations.OpcodeMapWordsDecode :=
  ⟨decodeTableWord_encode .nop, decodeTableWord_encode .softReset, decodeTableWord_encode .freqBuild,
    decodeTableWord_encode .treeBuild, decodeTableWord_encode .codeDerive, decodeTableWord_encode .encode,
    decodeTableWord_encode .decode, decodeTableWord_toNat 0x07000000#32, decodeTableWord_toNat 0x02000001#32⟩

/-! ### Illegal words (30_encoding.md R104, 46_control.md R225) -/

/-- The check of RSVD comes first. -/
theorem decodeCmd_of_rsvd_ne {w : Word} (h : rsvdField w ≠ 0#24) : decodeCmd w = .error .reservedBits := if_pos h

/-- The illegal words are those with a non-zero RSVD or an OPCODE above that of DECODE. -/
theorem decodeCmd_error_iff (w : Word) :
    (∃ e, decodeCmd w = .error e) ↔ (rsvdField w ≠ 0#24 ∨ 7 ≤ (opcodeField w).toNat) := by
  by_cases hr : rsvdField w = 0#24
  · simp only [decodeCmd, hr, ne_eq, not_true_eq_false, if_false, false_or]
    split
    case h_8 =>
      simp only [imp_false] at *
      exact iff_of_true ⟨_, rfl⟩ (by omega)
    all_goals exact iff_of_false (by simp) (by omega)
  · simp [decodeCmd_of_rsvd_ne hr, hr]

theorem perform_of_illegal {w : Word} {e : IllegalWord} (h : decodeCmd w = .error e) (s : State) :
    perform w s = .next (s.complete .badCommand w) := by
  simp only [perform, h, execIllegal_eq]

/-- A write to CMD issues the word without decoding it (46_control.md R221). -/
theorem State.access_cmd (s : State) (w : Word) : s.access (memWrite 0x008#26 w) = .ok (.written, s.issue w) :=
  State.access_memWrite (l := .cmd) w rfl rfl

/-- Settles O3: the decoder's errors are the words of R104; issuing does not decode, and performing one raises. -/
theorem illegalWordsCompleteBadCommand : Obligations.IllegalWordsCompleteBadCommand := fun s w =>
  ⟨decodeCmd_error_iff w, decodeCmd_of_rsvd_ne, ⟨s.access_cmd w, rfl, rfl⟩, fun _ he => perform_of_illegal he s⟩

/-! ### The statement C NAME (30_encoding.md R108) -/

/-- Settles O58: the statement is one write to CMD, which an idle HuffCore does not hold. -/
theorem commandStatementIssuesCommand : Obligations.CommandStatementIssuesCommand := by
  intro s i hidle hstmt
  refine ⟨?_, rfl⟩
  rw [hostTurn_eq hstmt rfl]
  exact hostAccess_of_written (held_of_idle hidle _) (s.access_cmd _)

/-! ### What each successful command keeps (30_encoding.md R102) -/

section
variable {s u : State} {i : Instr} (h : Commits s i u)
include h

theorem Commits.symIn_eq : u.symIn = s.symIn := by cases h <;> rfl

theorem Commits.epoch_eq : u.epoch = s.epoch := by cases h <;> rfl

theorem Commits.schedule_eq : u.schedule = s.schedule := by cases h <;> rfl

theorem Commits.bitBuf_eq (henc : i ≠ .encode) : u.bitBuf = s.bitBuf := by
  cases h with
  | encode => exact absurd rfl henc
  | _ => rfl

theorem Commits.symOut_eq (hdec : i ≠ .decode) : u.symOut = s.symOut := by
  cases h with
  | decode => exact absurd rfl hdec
  | _ => rfl

theorem Commits.symLen_eq (hreset : i ≠ .softReset) : u.symLen = s.symLen := by
  cases h with
  | softReset => exact absurd rfl hreset
  | _ => rfl

theorem Commits.bitLen_eq (hreset : i ≠ .softReset) (henc : i ≠ .encode) : u.bitLen = s.bitLen := by
  cases h with
  | softReset => exact absurd rfl hreset
  | encode => exact absurd rfl henc
  | _ => rfl

theorem Commits.outLen_eq (hreset : i ≠ .softReset) (hdec : i ≠ .decode) : u.outLen = s.outLen := by
  cases h with
  | softReset => exact absurd rfl hreset
  | decode => exact absurd rfl hdec
  | _ => rfl

theorem Commits.freq_eq (hreset : i ≠ .softReset) (hfreq : i ≠ .freqBuild) : u.freq = s.freq := by
  cases h with
  | softReset => exact absurd rfl hreset
  | freqBuild => exact absurd rfl hfreq
  | _ => rfl

theorem Commits.tree_eq (hreset : i ≠ .softReset) (htree : i ≠ .treeBuild) :
    u.nodes = s.nodes ∧ u.root = s.root ∧ u.nleaf = s.nleaf ∧ u.treeValid = s.treeValid := by
  cases h with
  | softReset => exact absurd rfl hreset
  | treeBuild => exact absurd rfl htree
  | _ => exact ⟨rfl, rfl, rfl, rfl⟩

theorem Commits.code_eq (hreset : i ≠ .softReset) (hcode : i ≠ .codeDerive) : u.code = s.code := by
  cases h with
  | softReset => exact absurd rfl hreset
  | codeDerive => exact absurd rfl hcode
  | _ => rfl

theorem Commits.codeValid_eq (hreset : i ≠ .softReset) (hcode : i ≠ .codeDerive) (htree : i ≠ .treeBuild) :
    u.codeValid = s.codeValid := by
  cases h with
  | softReset => exact absurd rfl hreset
  | codeDerive => exact absurd rfl hcode
  | treeBuild => exact absurd rfl htree
  | _ => rfl

end

/-- Settles O13: a completion keeps all but its record, a successful command commits its own writes and no others, and a
failed one commits nothing. -/
theorem commandsWriteOnlyTheirOperands : Obligations.CommandsWriteOnlyTheirOperands := by
  intro s t i h
  rcases exec_next h with ⟨u, hu, rfl⟩ | ⟨code, info, -, -⟩
  · exact ⟨⟨hu.params_eq, hu.irqEn_eq, hu.symIn_eq, hu.epoch_eq, hu.host_eq, hu.schedule_eq⟩,
      fun henc j => State.readByte_congr (congrArg (Memory.get? · j) (hu.bitBuf_eq henc)) hu.epoch_eq,
      fun hdec j => State.readByte_congr (congrArg (Memory.get? · j) (hu.symOut_eq hdec)) hu.epoch_eq,
      hu.symLen_eq, hu.bitLen_eq, hu.outLen_eq, hu.freq_eq, hu.tree_eq, hu.code_eq, hu.codeValid_eq⟩
  · exact ⟨⟨rfl, rfl, rfl, rfl, rfl, rfl⟩, fun _ _ => rfl, fun _ _ => rfl, fun _ => rfl, fun _ _ => rfl,
      fun _ _ => rfl, fun _ _ => rfl, fun _ _ => ⟨rfl, rfl, rfl, rfl⟩, fun _ _ => rfl, fun _ _ _ => rfl⟩

end Sys2Proof.Machine
end

section
/-! PROOFS. The frequency counter: exact counts, their sum and the key set (41_frequency.md R120 to R122). -/

namespace Sys2Proof.Machine

/-! ### The counts are exact (41_frequency.md R121) -/

/-- Fewer than `2^32` symbols do not overflow a count. -/
theorem toNat_countSymbols_at {syms : List Byte} (h : syms.length < 2 ^ 32) (x : Byte) :
    ((countSymbols syms).at x).toNat = syms.count x := by
  rw [countSymbols_at, BitVec.toNat_ofNat, Nat.mod_eq_of_lt (List.count_le_length.trans_lt h)]

/-- SYM_LEN is a word, so the input is short enough for every count. -/
theorem State.length_inputSymbols_lt (s : State) : s.inputSymbols.length < 2 ^ 32 := by
  rw [s.length_inputSymbols]
  exact s.symLen.isLt

theorem State.toNat_count_inputSymbols (s : State) (x : Byte) :
    ((countSymbols s.inputSymbols).at x).toNat = s.inputSymbols.count x :=
  toNat_countSymbols_at s.length_inputSymbols_lt x

/-- The key set of the table built from the input is the set of its symbols (41_frequency.md R122). -/
theorem State.count_inputSymbols_ne_zero_iff (s : State) (x : Byte) :
    (countSymbols s.inputSymbols).at x ≠ 0#32 ↔ x ∈ s.inputSymbols := by
  rw [← BitVec.toNat_ne_iff_ne, s.toNat_count_inputSymbols, BitVec.toNat_zero, ← List.count_pos_iff,
    Nat.pos_iff_ne_zero]

/-! ### FREQ_BUILD, case by case (41_frequency.md R120) -/

theorem exec_freqBuild_of_le {s : State} (h : s.symLen.toNat ≤ s.params.symCap) :
    exec .freqBuild s = .next (({ s with freq := countSymbols s.inputSymbols } : State).complete .ok 0#32) := by
  rw [exec, execFreqBuild, if_neg h.not_gt, finish_ok]

theorem exec_freqBuild_of_lt {s : State} (h : s.params.symCap < s.symLen.toNat) :
    exec .freqBuild s = .next (s.complete .badLength s.symLen) := by
  rw [exec, execFreqBuild, if_pos h, finish_raise]

/-- Settles O16: the committed table is `countSymbols` of the input, whose counts are exact. -/
theorem freqBuildCountsSymbols : Obligations.FreqBuildCountsSymbols :=
  ⟨rfl, fun s => ⟨fun hle => ⟨_, exec_freqBuild_of_le hle, s.toNat_count_inputSymbols, rfl⟩, exec_freqBuild_of_lt⟩⟩

/-- Settles O17: a run that ends with OK committed the exact counts of the input, whose length is SYM_LEN. -/
theorem freqCountsSumToLength : Obligations.FreqCountsSumToLength := by
  intro s t h hok
  rcases execFreqBuild_next h with ⟨hle, rfl⟩ | ⟨-, rfl⟩
  · have hbound : ∀ x, ((countSymbols s.inputSymbols).at x).toNat ≤ s.symLen.toNat := fun x => by
      rw [s.toNat_count_inputSymbols, ← s.length_inputSymbols]
      exact List.count_le_length
    have htotal : freqTotal (countSymbols s.inputSymbols) = s.symLen.toNat :=
      (freqTotal_countSymbols s.length_inputSymbols_lt).trans s.length_inputSymbols
    exact ⟨hbound, hle, (cap_bounds s.params .symIn).2.1, htotal, s.count_inputSymbols_ne_zero_iff⟩
  · exact absurd hok (by simp)

end Sys2Proof.Machine
end

section
/-! PROOFS. TREE_BUILD's writes: the leaves, the registers, and the full binary tree over the symbols present
(42_tree_build.md R141, R147, R149, R150). -/

namespace Sys2Proof.Machine

/-! ### TREE_BUILD, case by case (42_tree_build.md R147) -/

theorem presentSymbols_eq_nil_iff (F : FreqTable) : presentSymbols F = [] ↔ ∀ x, F.at x = 0#32 := by
  simp [List.eq_nil_iff_forall_not_mem, mem_presentSymbols]

theorem exec_treeBuild_of_nil {s : State} (h : presentSymbols s.freq = []) :
    exec .treeBuild s = .next (s.complete .emptyInput 0#32) := by
  rw [exec, execTreeBuild, if_pos (by rw [h, List.length_nil]), finish_raise]

theorem exec_treeBuild_of_ne {s : State} (h : presentSymbols s.freq ≠ []) :
    exec .treeBuild s =
      .next ((s.withTree (buildTree s.freq) (presentSymbols s.freq).length).complete .ok 0#32) := by
  rw [exec, execTreeBuild, if_neg (mt List.length_eq_zero_iff.1 h), finish_ok]

/-- A TREE_BUILD that ends with OK had a symbol present and committed its tree. -/
theorem exec_treeBuild_ok {s t : State} (h : exec .treeBuild s = .next t) (hok : t.errCode = .ok) :
    presentSymbols s.freq ≠ [] ∧
      t = (s.withTree (buildTree s.freq) (presentSymbols s.freq).length).complete .ok 0#32 := by
  rcases execTreeBuild_next h with hbuilt | ⟨-, rfl⟩
  · exact hbuilt
  · exact absurd hok (by simp)

/-- Settles O19: an empty table has no symbol present, and TREE_BUILD raises before it writes. -/
theorem treeBuildRejectsEmptyTable : Obligations.TreeBuildRejectsEmptyTable := fun s h =>
  exec_treeBuild_of_nil ((presentSymbols_eq_nil_iff s.freq).2 h)

/-- Settles O22: whether TREE_BUILD succeeds, and every table and register it then writes, is a function of FREQ. -/
theorem treeDependsOnFrequenciesOnly : Obligations.TreeDependsOnFrequenciesOnly := by
  intro s s' t t' hfreq h h'
  by_cases hne : presentSymbols s.freq = []
  · rw [exec_treeBuild_of_nil hne, Host.Outcome.next.injEq] at h
    rw [exec_treeBuild_of_nil (hfreq ▸ hne), Host.Outcome.next.injEq] at h'
    subst h h'
    exact ⟨rfl, (nomatch ·)⟩
  · rw [exec_treeBuild_of_ne hne, Host.Outcome.next.injEq] at h
    rw [exec_treeBuild_of_ne (hfreq ▸ hne), ← hfreq, Host.Outcome.next.injEq] at h'
    subst h h'
    exact ⟨rfl, fun _ => ⟨rfl, rfl, rfl⟩⟩

/-! ### The tree that TREE_BUILD writes (42_tree_build.md R141, R145) -/

/-- The two registers hold every size that a tree over at most 256 symbols has. -/
theorem State.withTree_nleaf_toNat (s : State) (N : List Node) {n : Nat} (hn : n ≤ 256) :
    (s.withTree N n).nleaf.toNat = n := by
  rw [State.withTree_nleaf, BitVec.toNat_ofNat]
  omega

theorem State.withTree_root_toNat (s : State) (N : List Node) {n : Nat} (hn : n ≤ 256) :
    (s.withTree N n).root.toNat = 2 * n - 2 := by
  rw [State.withTree_root, BitVec.toNat_ofNat]
  omega

theorem length_buildTree (F : FreqTable) : (buildTree F).length = 2 * (presentSymbols F).length - 1 := by
  rw [buildTree, length_mergeLoop _ _ _ (by rw [length_startQueue]; omega), length_startQueue, length_leavesOf]
  omega

/-- The merge loop only appends to the leaves. -/
theorem leavesOf_prefix_buildTree (F : FreqTable) : leavesOf F <+: buildTree F := by
  obtain ⟨_, -, h⟩ := mergeLoop_induction (P := fun _ N => leavesOf F <+: N)
    (fun _ _ _ _ _ _ _ _ h => h.trans (List.prefix_append _ _)) (leavesOf F).length (startQueue (leavesOf F))
    (leavesOf F) (by rw [length_startQueue]; omega) (List.prefix_refl _)
  exact h

theorem leavesOf_eq_map (F : FreqTable) : leavesOf F = (presentSymbols F).map (fun x => .leaf x (F.at x)) := by
  rw [leavesOf, presentSymbols, List.map_map]
  refine List.map_congr_left fun p hp => ?_
  obtain ⟨hcount, -⟩ := (mem_presentCounts F p.1 p.2).1 hp
  rw [hcount, Function.comp_apply]

/-- Leaf `k` is the `k`-th symbol present, with its count (R141). -/
theorem buildTree_getElem?_leaf {F : FreqTable} {k : Nat} {x : Byte} (h : (presentSymbols F)[k]? = some x) :
    (buildTree F)[k]? = some (.leaf x (F.at x)) := by
  obtain ⟨M, hM⟩ := leavesOf_prefix_buildTree F
  rw [← hM]
  refine getElem?_append_of_some M ?_
  rw [leavesOf_eq_map, List.getElem?_map, h, Option.map_some]

/-- Settles O18: the committed writes are `withTree`, whose table starts with the leaves and whose registers hold the
sizes. -/
theorem treeBuildWritesTree : Obligations.TreeBuildWritesTree := by
  rintro s ⟨x, hx⟩
  have hne : presentSymbols s.freq ≠ [] := List.ne_nil_of_mem ((mem_presentSymbols s.freq x).2 hx)
  have hle := length_presentSymbols_le s.freq
  exact ⟨_, exec_treeBuild_of_ne hne, s.withTree_nleaf_toNat (buildTree s.freq) hle,
    s.withTree_root_toNat (buildTree s.freq) hle, length_buildTree s.freq, mem_presentSymbols s.freq,
    presentSymbols_ascending s.freq, fun _ _ => buildTree_getElem?_leaf, rfl⟩

/-! ### The shape of the tree (42_tree_build.md R149) -/

/-- The leaves of the table are the symbols present, each once. -/
theorem filterMap_sym?_take_buildTree (F : FreqTable) :
    ((buildTree F).take (presentSymbols F).length).filterMap Node.sym? = presentSymbols F := by
  rw [← length_leavesOf, ← List.prefix_iff_eq_take.1 (leavesOf_prefix_buildTree F), filterMap_sym?_leavesOf]

/-- The last entry, which is the root, has the total of all counts. -/
theorem buildTree_root {F : FreqTable} (hne : presentSymbols F ≠ []) (htotal : freqTotal F < 2 ^ 32) :
    ∃ a, (buildTree F)[2 * (presentSymbols F).length - 2]? = some a ∧ a.freq.toNat = freqTotal F := by
  obtain ⟨root, hroot, h⟩ := mergeInv_buildTree F hne htotal
  obtain ⟨a, ha, hfreq⟩ := h.keys root (List.mem_singleton_self root)
  have hsum : root.freq.toNat = freqTotal F := by simpa using h.total_eq
  rw [hroot, length_buildTree, Nat.sub_sub] at ha
  exact ⟨a, ha, by rw [hfreq, hsum]⟩

/-- Settles O21: the bound on the counts keeps every sum within a word, so the merge loop's invariant holds of the
finished table. -/
theorem treeIsFullBinaryTree : Obligations.TreeIsFullBinaryTree := by
  intro s t hcounts h hok
  obtain ⟨hne, rfl⟩ := exec_treeBuild_ok h hok
  have htotal : freqTotal s.freq < 2 ^ 32 := by
    have hcap : s.params.symCap ≤ 2 ^ 24 := (cap_bounds s.params .symIn).2.1
    omega
  have hpos := List.length_pos_iff.2 hne
  have hle := length_presentSymbols_le s.freq
  have hleaf := s.withTree_nleaf_toNat (buildTree s.freq) hle
  have hroot := s.withTree_root_toNat (buildTree s.freq) hle
  simp only [State.complete_nodes, State.complete_nleaf, State.complete_nodeAt, State.complete_root,
    State.withTree_nodes, hleaf]
  refine ⟨treeShape_buildTree s.freq hne htotal, filterMap_sym?_take_buildTree s.freq, mem_presentSymbols s.freq, ?_⟩
  rw [State.nodeAt, State.nodeCount, State.withTree_treeValid, if_pos rfl, hleaf, hroot, if_pos (by omega)]
  exact buildTree_root hne htotal

end Sys2Proof.Machine
end

section
/-! PROOFS. Every merge of TREE_BUILD joins the two least keys of its queue (42_tree_build.md R143, R144), whether
or not a sum of frequencies wraps. -/

namespace Sys2Proof.Machine

/-! ### The queue at the creation of an entry -/

/-- Entry `k` of a table, with frequency `f` and children `l` and `r`, joins the two least entries of the queue at its
creation: `l` first, then `r` (42_tree_build.md R144). -/
def joinsLeast (nodes : List Node) (k : Nat) (f : Word) (l r : NodeIndex) : Prop :=
  inQueueAt nodes k l.toNat ∧ inQueueAt nodes k r.toNat ∧ l ≠ r ∧
    (∀ i, inQueueAt nodes k i → i ≠ l.toNat →
      keyBefore nodes l.toNat i ∧ (i ≠ r.toNat → keyBefore nodes r.toNat i)) ∧
    ∃ a b, nodes[l.toNat]? = some a ∧ nodes[r.toNat]? = some b ∧ f = a.freq + b.freq

theorem inQueueAt_append {N : List Node} {k : Nat} (M : List Node) (hk : k ≤ N.length) (i : Nat) :
    inQueueAt (N ++ M) k i ↔ inQueueAt N k i := by
  rw [inQueueAt, inQueueAt, List.take_append_of_le_length hk]

theorem keyBefore.append {N : List Node} {i j : Nat} (h : keyBefore N i j) (M : List Node) :
    keyBefore (N ++ M) i j := by
  obtain ⟨a, b, ha, hb, hlt⟩ := h
  exact ⟨a, b, getElem?_append_of_some M ha, getElem?_append_of_some M hb, hlt⟩

/-- Later merges do not change what an earlier one joined. -/
theorem joinsLeast.append {N : List Node} {k : Nat} {f : Word} {l r : NodeIndex} (h : joinsLeast N k f l r)
    (hk : k ≤ N.length) (M : List Node) : joinsLeast (N ++ M) k f l r := by
  obtain ⟨hl, hr, hne, hleast, a, b, ha, hb, hf⟩ := h
  have hqueue := inQueueAt_append M hk
  refine ⟨(hqueue _).2 hl, (hqueue _).2 hr, hne, fun i hi hil => ?_, a, b, getElem?_append_of_some M ha,
    getElem?_append_of_some M hb, hf⟩
  obtain ⟨hbefore, hbefore'⟩ := hleast i ((hqueue i).1 hi) hil
  exact ⟨hbefore.append M, fun hir => (hbefore' hir).append M⟩

/-! ### What every merge keeps -/

/-- What every merge keeps, whatever the counts: each key is its entry's, the entries that are no child yet are exactly
those queued, and every internal node joins the two least entries of its queue. -/
structure GreedyInv (n : Nat) (q : List Key) (N : List Node) : Prop where
  size    : N.length + q.length = 2 * n
  keys    : ∀ k ∈ q, ∃ a, N[k.seq]? = some a ∧ a.freq = k.freq
  parents : (childIndices N ++ q.map Key.seq).Perm (List.range N.length)
  joins   : ∀ k f l r, N[k]? = some (.internal f l r) → joinsLeast N k f l r

section
variable {n : Nat} {q : List Key} {N : List Node} (h : GreedyInv n q N)
include h

/-- The queue holds exactly the entries that the next merge may remove. -/
theorem GreedyInv.inQueueAt_iff (i : Nat) : inQueueAt N N.length i ↔ i ∈ q.map Key.seq := by
  have hnodup := h.parents.nodup_iff.2 List.nodup_range
  have hdisjoint := List.disjoint_of_nodup_append hnodup
  rw [inQueueAt, List.take_length, ← List.mem_range, ← h.parents.mem_iff, List.mem_append]
  exact ⟨fun ⟨hi, hchild⟩ => hi.resolve_left hchild, fun hi => ⟨.inr hi, fun hchild => hdisjoint hchild hi⟩⟩

/-- A queued key that no other is less than comes before every other entry of the queue (R143). -/
theorem GreedyInv.keyBefore_of_least {a x : Key} (ha : a ∈ q) (hx : x ∈ q) (hleast : x.less a = false)
    (hne : x.seq ≠ a.seq) : keyBefore N a.seq x.seq := by
  have hless : a.less x = true := (Key.less_total hne).resolve_left (by simp [hleast])
  obtain ⟨u, hu, huf⟩ := h.keys a ha
  obtain ⟨v, hv, hvf⟩ := h.keys x hx
  exact ⟨u, v, hu, hv, by rw [huf, hvf]; exact (Key.less_iff a x).1 hless⟩

variable {a b : Key} {rest : List Key} (hn : n ≤ 256) (hq : q.Perm (a :: b :: rest))
include hn hq

/-- A queued sequence number fits the 9 bits of a child index (R142, R145). -/
theorem GreedyInv.seq_toNat {x : Key} (hx : x ∈ q) : (BitVec.ofNat 9 x.seq).toNat = x.seq := by
  obtain ⟨u, hu, -⟩ := h.keys x hx
  have hlt := (List.getElem?_eq_some_iff.1 hu).1
  have hsize := h.size
  have hlen := hq.length_eq
  simp only [List.length_cons] at hlen
  rw [BitVec.toNat_ofNat]
  omega

/-- The next merge joins the two least entries of the queue. -/
theorem GreedyInv.joinsLeast_next (hleast : ∀ x ∈ q, x.less a = false) (hleast' : ∀ x ∈ b :: rest, x.less b = false) :
    joinsLeast N N.length (a.freq + b.freq) (BitVec.ofNat 9 a.seq) (BitVec.ofNat 9 b.seq) := by
  have ha : a ∈ q := hq.mem_iff.2 (by simp)
  have hb : b ∈ q := hq.mem_iff.2 (by simp)
  have hnodup : (a.seq :: b.seq :: rest.map Key.seq).Nodup :=
    (hq.map Key.seq).nodup_iff.1 (h.parents.nodup_iff.2 List.nodup_range).of_append_right
  have hab : a.seq ≠ b.seq := fun e => by simp [e] at hnodup
  obtain ⟨u, hu, huf⟩ := h.keys a ha
  obtain ⟨v, hv, hvf⟩ := h.keys b hb
  have ha' := h.seq_toNat hn hq ha
  have hb' := h.seq_toNat hn hq hb
  simp only [joinsLeast, ha', hb', h.inQueueAt_iff]
  refine ⟨List.mem_map_of_mem ha, List.mem_map_of_mem hb, fun e => hab ?_, fun i hi hia => ?_,
    u, v, hu, hv, by rw [huf, hvf]⟩
  · rw [← ha', ← hb', e]
  · obtain ⟨x, hx, rfl⟩ := List.mem_map.1 hi
    refine ⟨h.keyBefore_of_least ha hx (hleast x hx) hia, fun hib => ?_⟩
    have hxb : x ∈ b :: rest := (List.mem_cons.1 (hq.mem_iff.1 hx)).resolve_left fun e => hia (e ▸ rfl)
    exact h.keyBefore_of_least hb hx (hleast' x hxb) hib

theorem GreedyInv.round (hleast : ∀ x ∈ q, x.less a = false) (hleast' : ∀ x ∈ b :: rest, x.less b = false) :
    GreedyInv n (mergedKey a b N :: rest) (N ++ [mergedNode a b]) where
  size := by
    have hsize := h.size
    have hlen := hq.length_eq
    simp only [List.length_append, List.length_cons, List.length_nil] at hlen ⊢
    omega
  keys := by
    intro k hk
    rcases List.mem_cons.1 hk with rfl | hk
    · exact ⟨mergedNode a b, by simp, rfl⟩
    · obtain ⟨u, hu, huf⟩ := h.keys k (hq.mem_iff.2 (by simp [hk]))
      exact ⟨u, getElem?_append_of_some _ hu, huf⟩
  parents := by
    have hchild : childIndices [mergedNode a b] = [a.seq, b.seq] := by
      simp only [childIndices, mergedNode, List.flatMap_cons, List.flatMap_nil, Node.children, List.append_nil,
        h.seq_toNat hn hq (hq.mem_iff.2 (by simp : a ∈ a :: b :: rest)),
        h.seq_toNat hn hq (hq.mem_iff.2 (by simp : b ∈ a :: b :: rest))]
    rw [List.perm_iff_count]
    intro i
    have hold := h.parents.count_eq i
    have hqueue := (hq.map Key.seq).count_eq i
    simp only [List.map_cons, List.count_cons, List.count_append, childIndices_append, hchild, List.length_append,
      List.length_singleton, List.range_succ, mergedKey_seq, List.count_nil] at hold hqueue ⊢
    omega
  joins := by
    intro k f l r hk
    rcases Nat.lt_or_ge k N.length with hkN | hkN
    · rw [List.getElem?_append_left hkN] at hk
      exact (h.joins k f l r hk).append hkN.le _
    · obtain rfl : k = N.length := by
        have := (List.getElem?_eq_some_iff.1 hk).1
        simp only [List.length_append, List.length_singleton] at this
        omega
      rw [List.getElem?_concat_length, mergedNode, Option.some.injEq, Node.internal.injEq] at hk
      obtain ⟨rfl, rfl, rfl⟩ := hk
      exact (h.joinsLeast_next hn hq hleast hleast').append le_rfl _

end

theorem greedyInv_start {F : FreqTable} (hne : presentSymbols F ≠ []) :
    GreedyInv (presentSymbols F).length (startQueue (leavesOf F)) (leavesOf F) where
  size := length_leavesOf F ▸ (mergeInv_start F hne).size
  keys := (mergeInv_start F hne).keys
  parents := (mergeInv_start F hne).parents
  joins := by
    intro k f l r hk
    rw [leavesOf, List.getElem?_map, Option.map_eq_some_iff] at hk
    obtain ⟨p, -, hp⟩ := hk
    exact nomatch hp

theorem joinsLeast_buildTree {F : FreqTable} (hne : presentSymbols F ≠ []) {k : Nat} {f : Word} {l r : NodeIndex}
    (hk : (buildTree F)[k]? = some (.internal f l r)) : joinsLeast (buildTree F) k f l r := by
  obtain ⟨_, -, h⟩ := mergeLoop_induction (P := GreedyInv (presentSymbols F).length)
    (fun _ _ _ _ _ hq hleast hleast' h => h.round (length_presentSymbols_le F) hq hleast hleast')
    (leavesOf F).length (startQueue (leavesOf F)) (leavesOf F) (by rw [length_startQueue]; omega) (greedyInv_start hne)
  exact h.joins k f l r hk

/-- Settles O20: every merge joins the two keys that the queue's scan finds least, and the queue's keys are the entries'
own. -/
theorem mergesTakeLeastKeys : Obligations.MergesTakeLeastKeys := by
  intro s t h hok k f l r hk
  obtain ⟨hne, rfl⟩ := exec_treeBuild_ok h hok
  exact joinsLeast_buildTree hne hk

end Sys2Proof.Machine
end

section
/-! PROOFS. Entries, parents and paths of a full binary tree (42_tree_build.md R149, 43_code_derive.md R160). -/

namespace Sys2Proof.Machine

/-! ### Parents (42_tree_build.md R149 (d)) -/

/-- Entry `c` is a child of entry `p`. -/
def childOf (N : List Node) (p c : Nat) : Prop := ∃ a, N[p]? = some a ∧ c ∈ a.children

theorem childOf_of_internal {N : List Node} {p : Nat} {f : Word} {l r : NodeIndex}
    (hp : N[p]? = some (.internal f l r)) (b : Bool) : childOf N p (if b then r else l).toNat :=
  ⟨_, hp, by cases b <;> simp [Node.children]⟩

/-- A parent is an internal node, and its child lies on one of its two sides. -/
theorem childOf_iff {N : List Node} {p c : Nat} :
    childOf N p c ↔ ∃ f l r, ∃ b : Bool, N[p]? = some (.internal f l r) ∧ c = (if b then r else l).toNat := by
  constructor
  · rintro ⟨_ | ⟨f, l, r⟩, hp, hc⟩
    · exact nomatch hc
    · rcases List.mem_pair.1 hc with rfl | rfl
      · exact ⟨f, l, r, false, hp, rfl⟩
      · exact ⟨f, l, r, true, hp, rfl⟩
  · rintro ⟨f, l, r, b, hp, rfl⟩
    exact childOf_of_internal hp b

theorem mem_childIndices_take {N : List Node} {k c : Nat} :
    c ∈ childIndices (N.take k) ↔ ∃ p < k, childOf N p c := by
  rw [childIndices, List.mem_flatMap]
  constructor
  · rintro ⟨a, ha, hc⟩
    obtain ⟨p, hp⟩ := List.mem_iff_getElem?.1 ha
    rw [List.getElem?_take, Option.ite_none_right_eq_some] at hp
    exact ⟨p, hp.1, a, hp.2, hc⟩
  · rintro ⟨p, hpk, a, hp, hc⟩
    exact ⟨a, List.mem_of_getElem? (by rwa [List.getElem?_take_of_lt hpk]), hc⟩

theorem mem_childIndices {N : List Node} {c : Nat} : c ∈ childIndices N ↔ ∃ p, childOf N p c := by
  rw [← List.take_length (l := N), mem_childIndices_take, List.take_length]
  refine ⟨fun ⟨p, _, h⟩ => ⟨p, h⟩, fun ⟨p, h⟩ => ⟨p, ?_, h⟩⟩
  obtain ⟨a, hp, -⟩ := h
  exact (List.getElem?_eq_some_iff.1 hp).1

/-- The frequency of an entry, as a number. -/
def entryFreq (N : List Node) (k : Nat) : Nat := (N[k]?).elim 0 (fun a => a.freq.toNat)

theorem entryFreq_of_some {N : List Node} {k : Nat} {a : Node} (h : N[k]? = some a) :
    entryFreq N k = a.freq.toNat := by rw [entryFreq, h, Option.elim_some]

/-! ### Entries (42_tree_build.md R149 (a), (b), (g)) -/

section
variable {N : List Node} {n : Nat} (h : TreeShape N n)
include h

theorem TreeShape.leaf_of_lt {k : Nat} (hk : k < n) : ∃ x f, N[k]? = some (.leaf x f) := by
  have hsome := h.leaves k hk
  rcases hN : N[k]? with _ | ⟨x, f⟩ | ⟨f, l, r⟩
  · simp [hN] at hsome
  · exact ⟨x, f, rfl⟩
  · simp [hN, Node.sym?] at hsome

theorem TreeShape.internal_of_le {k : Nat} (hk : k < 2 * n - 1) (hnk : n ≤ k) :
    ∃ f l r, N[k]? = some (.internal f l r) := by
  obtain ⟨f, l, r, -, -, hN, -⟩ := (internalWf_iff N k).1 (h.internals k hk hnk)
  exact ⟨f, l, r, hN⟩

theorem TreeShape.lt_of_some {k : Nat} {a : Node} (hk : N[k]? = some a) : k < 2 * n - 1 :=
  h.length ▸ (List.getElem?_eq_some_iff.1 hk).1

theorem TreeShape.lt_of_leaf {k : Nat} {x : Byte} {f : Word} (hk : N[k]? = some (.leaf x f)) : k < n := by
  by_contra hnk
  obtain ⟨g, l, r, hk'⟩ := h.internal_of_le (h.lt_of_some hk) (by omega)
  exact nomatch hk.symm.trans hk'

theorem TreeShape.le_of_internal {k : Nat} {f : Word} {l r : NodeIndex} (hk : N[k]? = some (.internal f l r)) :
    n ≤ k := by
  by_contra hnk
  obtain ⟨x, g, hk'⟩ := h.leaf_of_lt (by omega : k < n)
  exact nomatch hk.symm.trans hk'

/-- The children of an internal node come before it, and their frequencies add up to its own. -/
theorem TreeShape.internal {k : Nat} {f : Word} {l r : NodeIndex} (hk : N[k]? = some (.internal f l r)) :
    l.toNat < k ∧ r.toNat < k ∧ entryFreq N k = entryFreq N l.toNat + entryFreq N r.toNat := by
  obtain ⟨f', l', r', a, b, hN, ha, hb, hl, hr, hf⟩ :=
    (internalWf_iff N k).1 (h.internals k (h.lt_of_some hk) (h.le_of_internal hk))
  obtain ⟨rfl, rfl, rfl⟩ := by simpa using hN.symm.trans hk
  exact ⟨hl, hr, by rw [entryFreq_of_some hk, entryFreq_of_some ha, entryFreq_of_some hb]; exact hf⟩

theorem TreeShape.parent_bounds {p c : Nat} (hc : childOf N p c) : n ≤ p ∧ p < 2 * n - 1 := by
  obtain ⟨f, l, r, b, hp, -⟩ := childOf_iff.1 hc
  exact ⟨h.le_of_internal hp, h.lt_of_some hp⟩

theorem TreeShape.child_lt_parent {p c : Nat} (hc : childOf N p c) : c < p := by
  obtain ⟨f, l, r, b, hp, rfl⟩ := childOf_iff.1 hc
  obtain ⟨hl, hr, -⟩ := h.internal hp
  cases b
  · exact hl
  · exact hr

theorem TreeShape.entryFreq_child_le {p c : Nat} (hc : childOf N p c) : entryFreq N c ≤ entryFreq N p := by
  obtain ⟨f, l, r, b, hp, rfl⟩ := childOf_iff.1 hc
  obtain ⟨-, -, hsum⟩ := h.internal hp
  cases b
  · exact hsum ▸ Nat.le_add_right _ _
  · exact hsum ▸ Nat.le_add_left _ _

theorem TreeShape.exists_parent_iff {c : Nat} : (∃ p, childOf N p c) ↔ c < 2 * n - 2 := by
  rw [← mem_childIndices, h.parents.mem_iff, List.mem_range]

theorem TreeShape.nodup_childIndices : (childIndices N).Nodup := h.parents.nodup_iff.2 List.nodup_range

theorem TreeShape.parent_unique {p q c : Nat} (hp : childOf N p c) (hq : childOf N q c) : p = q := by
  obtain ⟨a, ha, hac⟩ := hp
  obtain ⟨b, hb, hbc⟩ := hq
  obtain ⟨hpN, rfl⟩ := List.getElem?_eq_some_iff.1 ha
  obtain ⟨hqN, rfl⟩ := List.getElem?_eq_some_iff.1 hb
  have hdisjoint := List.pairwise_iff_getElem.1 (List.nodup_flatMap.1 h.nodup_childIndices).2
  rcases Nat.lt_trichotomy p q with hlt | heq | hlt
  · exact (hdisjoint p q hpN hqN hlt hac hbc).elim
  · exact heq
  · exact (hdisjoint q p hqN hpN hlt hbc hac).elim

theorem TreeShape.children_ne {p : Nat} {f : Word} {l r : NodeIndex} (hp : N[p]? = some (.internal f l r)) : l ≠ r := by
  have hpair := (List.nodup_flatMap.1 h.nodup_childIndices).1 _ (List.mem_of_getElem? hp)
  rintro rfl
  simp [Node.children] at hpair

/-- Each symbol has one leaf (R149 (e)). -/
theorem TreeShape.leaf_unique {i j : Nat} {x : Byte} {f g : Word} (hi : N[i]? = some (.leaf x f))
    (hj : N[j]? = some (.leaf x g)) : i = j := by
  have hpairwise := h.ascending
  rw [List.pairwise_filterMap, List.pairwise_iff_getElem] at hpairwise
  have hlen : (N.take n).length = n := by
    have := h.length
    have := h.one_le
    rw [List.length_take]
    omega
  have key : ∀ {i j : Nat} {f g : Word}, N[i]? = some (.leaf x f) → N[j]? = some (.leaf x g) → ¬ i < j := by
    intro i j f g hi hj hij
    obtain ⟨hiN, hi'⟩ := List.getElem?_eq_some_iff.1 hi
    obtain ⟨hjN, hj'⟩ := List.getElem?_eq_some_iff.1 hj
    have hlt := hpairwise i j (by rw [hlen]; exact h.lt_of_leaf hi) (by rw [hlen]; exact h.lt_of_leaf hj) hij
      x (by simp [hi', Node.sym?]) x (by simp [hj', Node.sym?])
    omega
  have hle := key hi hj
  have hge := key hj hi
  omega

end

/-! ### Paths (43_code_derive.md R160) -/

/-- The read of a whole node table. -/
def nodeIn (N : List Node) (i : NodeIndex) : Option Node := N[i.toNat]?

/-- The path `w` from node `i` ends on a leaf of symbol `x`. -/
def leadsTo (nodeAt : NodeIndex → Option Node) (i : NodeIndex) (w : BitSeq) (x : Byte) : Prop :=
  ∃ k f, follow nodeAt i w = some k ∧ nodeAt k = some (.leaf x f)

section
variable {nodeAt : NodeIndex → Option Node} {i : NodeIndex}

theorem follow_nil {k : NodeIndex} : follow nodeAt i [] = some k ↔ i = k := by rw [follow, Option.some.injEq]

theorem follow_cons {f : Word} {l r : NodeIndex} (hi : nodeAt i = some (.internal f l r)) (b : Bool) (w : BitSeq) :
    follow nodeAt i (b :: w) = follow nodeAt (if b then r else l) w := by rw [follow, hi]

theorem follow_leaf {x : Byte} {f : Word} (hi : nodeAt i = some (.leaf x f)) {w : BitSeq} {k : NodeIndex} :
    follow nodeAt i w = some k ↔ w = [] ∧ k = i := by
  cases w with
  | nil => rw [follow_nil, eq_comm]; simp
  | cons b w => simp [follow, hi]

/-- The last edge of a path leads from an internal node to one of its children. -/
theorem follow_concat {w : BitSeq} {b : Bool} {k : NodeIndex} :
    follow nodeAt i (w ++ [b]) = some k ↔
      ∃ j f l r, follow nodeAt i w = some j ∧ nodeAt j = some (.internal f l r) ∧ k = if b then r else l := by
  rw [follow_append, Option.bind_eq_some_iff]
  constructor
  · rintro ⟨j, hj, hk⟩
    rcases hn : nodeAt j with _ | ⟨x, f⟩ | ⟨f, l, r⟩
    · simp [follow, hn] at hk
    · simp [follow, hn] at hk
    · rw [follow_cons hn, follow, Option.some.injEq] at hk
      exact ⟨j, f, l, r, hj, hn, hk.symm⟩
  · rintro ⟨j, f, l, r, hj, hn, rfl⟩
    exact ⟨j, hj, by rw [follow_cons hn, follow]⟩

theorem leadsTo_of_leaf {y : Byte} {f : Word} (hi : nodeAt i = some (.leaf y f)) (w : BitSeq) (x : Byte) :
    leadsTo nodeAt i w x ↔ w = [] ∧ x = y := by
  constructor
  · rintro ⟨k, g, hw, hk⟩
    obtain ⟨rfl, rfl⟩ := (follow_leaf hi).1 hw
    obtain ⟨rfl, -⟩ := by simpa using hi.symm.trans hk
    exact ⟨rfl, rfl⟩
  · rintro ⟨rfl, rfl⟩
    exact ⟨i, f, rfl, hi⟩

theorem leadsTo_nil_of_internal {f : Word} {l r : NodeIndex} (hi : nodeAt i = some (.internal f l r)) (x : Byte) :
    ¬ leadsTo nodeAt i [] x := by
  rintro ⟨k, g, hw, hk⟩
  obtain rfl := follow_nil.1 hw
  exact nomatch hi.symm.trans hk

theorem leadsTo_cons {f : Word} {l r : NodeIndex} (hi : nodeAt i = some (.internal f l r)) (b : Bool) (w : BitSeq)
    (x : Byte) : leadsTo nodeAt i (b :: w) x ↔ leadsTo nodeAt (if b then r else l) w x := by
  rw [leadsTo, follow_cons hi, leadsTo]

/-- The two sides of a node whose children differ are told apart by the child. -/
theorem side_injective {l r : NodeIndex} (hne : l ≠ r) {b c : Bool}
    (h : (if b then r else l) = if c then r else l) : b = c := by
  match b, c with
  | true, true => rfl
  | false, false => rfl
  | true, false => exact absurd h.symm hne
  | false, true => exact absurd h hne

/-- A path to a leaf goes no further (R163: leaves are never ancestors of other leaves). -/
theorem eq_of_leadsTo_prefix {u w : BitSeq} {x y : Byte} (hu : leadsTo nodeAt i u x) (hw : leadsTo nodeAt i w y)
    (hprefix : u <+: w) : x = y := by
  obtain ⟨v, rfl⟩ := hprefix
  obtain ⟨k, f, hu, hk⟩ := hu
  obtain ⟨j, g, hw, hj⟩ := hw
  rw [follow_append, hu, Option.bind_some, follow_leaf hk] at hw
  obtain ⟨-, rfl⟩ := hw
  obtain ⟨hxy, -⟩ := by simpa using hk.symm.trans hj
  exact hxy

end

section
variable {N : List Node} {n : Nat} (h : TreeShape N n) {root : NodeIndex} (hroot : root.toNat = 2 * n - 2)
include h hroot

/-- A path never leaves the table, and each of its edges lowers the index. -/
theorem TreeShape.follow_bound {w : BitSeq} {k : NodeIndex} (hw : follow (nodeIn N) root w = some k) :
    k.toNat + w.length ≤ 2 * n - 2 := by
  induction w using List.reverseRecOn generalizing k with
  | nil =>
    obtain rfl := follow_nil.1 hw
    simp [hroot]
  | append_singleton w b ih =>
    obtain ⟨j, f, l, r, hj, hn, rfl⟩ := follow_concat.1 hw
    have hlt := h.child_lt_parent (childOf_of_internal hn b)
    have hle := ih hj
    rw [List.length_append, List.length_singleton]
    omega

/-- Every entry that a path reaches can be read. -/
theorem TreeShape.nodeIn_of_follow {w : BitSeq} {k : NodeIndex} (hw : follow (nodeIn N) root w = some k) :
    (∃ x f, nodeIn N k = some (.leaf x f)) ∨ ∃ f l r, nodeIn N k = some (.internal f l r) := by
  have hk := h.follow_bound hroot hw
  have := h.one_le
  rcases Nat.lt_or_ge k.toNat n with hlt | hge
  · exact .inl (h.leaf_of_lt hlt)
  · exact .inr (h.internal_of_le (by omega) hge)

/-- One path leads to each entry: every entry but the root has one parent and is one of its two children. -/
theorem TreeShape.follow_unique {u w : BitSeq} {k : NodeIndex} (hu : follow (nodeIn N) root u = some k)
    (hw : follow (nodeIn N) root w = some k) : u = w := by
  induction u using List.reverseRecOn generalizing w k with
  | nil =>
    obtain rfl := follow_nil.1 hu
    have hlen := h.follow_bound hroot hw
    exact (List.length_eq_zero_iff.1 (by omega)).symm
  | append_singleton u b ih =>
    rcases List.eq_nil_or_concat' w with rfl | ⟨w, c, rfl⟩
    · obtain rfl := follow_nil.1 hw
      have hlen := h.follow_bound hroot hu
      rw [List.length_append, List.length_singleton] at hlen
      omega
    · obtain ⟨i, f, l, r, hi, hn, hk⟩ := follow_concat.1 hu
      obtain ⟨j, f', l', r', hj, hn', hk'⟩ := follow_concat.1 hw
      have hchild : childOf N i.toNat k.toNat := hk ▸ childOf_of_internal hn b
      have hchild' : childOf N j.toNat k.toNat := hk' ▸ childOf_of_internal hn' c
      obtain rfl : i = j := BitVec.eq_of_toNat_eq (h.parent_unique hchild hchild')
      obtain ⟨-, rfl, rfl⟩ := by simpa using hn.symm.trans hn'
      rw [ih hi hj, side_injective (h.children_ne hn) (hk.symm.trans hk')]

/-- A path leads to each entry: following parents ends at the root. -/
theorem TreeShape.exists_follow {k : NodeIndex} (hk : k.toNat < 2 * n - 1) :
    ∃ w, follow (nodeIn N) root w = some k := by
  rcases Nat.lt_or_ge k.toNat (2 * n - 2) with hlt | hge
  · obtain ⟨p, hp⟩ := h.exists_parent_iff.2 hlt
    have hkp := h.child_lt_parent hp
    obtain ⟨-, hpn⟩ := h.parent_bounds hp
    have hn := h.le_256
    have hpw : (BitVec.ofNat 9 p).toNat = p := by rw [BitVec.toNat_ofNat]; omega
    obtain ⟨w, hw⟩ := TreeShape.exists_follow (k := BitVec.ofNat 9 p) (by rwa [hpw])
    obtain ⟨f, l, r, b, hN, hc⟩ := childOf_iff.1 hp
    exact ⟨w ++ [b], follow_concat.2 ⟨_, f, l, r, hw, by rwa [nodeIn, hpw], BitVec.eq_of_toNat_eq hc⟩⟩
  · exact ⟨[], follow_nil.2 (BitVec.eq_of_toNat_eq (by omega))⟩
  termination_by 2 * n - k.toNat
  decreasing_by omega

/-- A symbol has one path at most. -/
theorem TreeShape.leadsTo_unique {u w : BitSeq} {x : Byte} (hu : leadsTo (nodeIn N) root u x)
    (hw : leadsTo (nodeIn N) root w x) : u = w := by
  obtain ⟨k, f, hu, hk⟩ := hu
  obtain ⟨j, g, hw, hj⟩ := hw
  obtain rfl : k = j := BitVec.eq_of_toNat_eq (h.leaf_unique hk hj)
  exact h.follow_unique hroot hu hw

/-- The symbols that paths lead to are those of the leaves. -/
theorem TreeShape.exists_leadsTo_iff (x : Byte) :
    (∃ w, leadsTo (nodeIn N) root w x) ↔ ∃ (k : Nat) (f : Word), N[k]? = some (.leaf x f) := by
  constructor
  · rintro ⟨w, k, f, -, hk⟩
    exact ⟨k.toNat, f, hk⟩
  · rintro ⟨k, f, hk⟩
    have hlt := h.lt_of_some hk
    have hkw : (BitVec.ofNat 9 k).toNat = k := by
      have := h.le_256
      rw [BitVec.toNat_ofNat]
      omega
    obtain ⟨w, hw⟩ := h.exists_follow hroot (k := BitVec.ofNat 9 k) (by rwa [hkw])
    exact ⟨w, _, f, hw, by rwa [nodeIn, hkw]⟩

/-- With two leaves or more the root is internal, so a path to a leaf has an edge; and it passes internal nodes only,
whose indices are `n` or more (R151, R164). -/
theorem TreeShape.leadsTo_length (hn : 2 ≤ n) {w : BitSeq} {x : Byte} (hw : leadsTo (nodeIn N) root w x) :
    1 ≤ w.length ∧ w.length ≤ n - 1 := by
  obtain ⟨k, g, hw, hk⟩ := hw
  rcases List.eq_nil_or_concat' w with rfl | ⟨w, b, rfl⟩
  · obtain rfl := follow_nil.1 hw
    have := h.lt_of_leaf hk
    omega
  · obtain ⟨j, f, l, r, hj, hn', -⟩ := follow_concat.1 hw
    have hjn := h.le_of_internal hn'
    have hle := h.follow_bound hroot hj
    rw [List.length_append, List.length_singleton]
    omega

end

end Sys2Proof.Machine
end

section
/-! PROOFS. CODE_DERIVE: the walk finds the paths to the leaves, and the code table is theirs (43_code_derive.md R160 to
R165). -/

namespace Sys2Proof.Machine

/-! ### The walk (43_code_derive.md R161) -/

section
variable {nodeAt : NodeIndex → Option Node} {count : Nat}

theorem walk_leaf {budget : Nat} {i : NodeIndex} {x : Byte} {f : Word} (hi : nodeAt i = some (.leaf x f))
    (path : BitSeq) (C : CodeTable) : walk nodeAt count budget i path C = .ok (C.put x path) := by rw [walk, hi]

/-- A walk from an internal node succeeds exactly when the node is well formed and within the budget, and the walks of
its two subtrees succeed, the left one first. -/
theorem walk_internal_iff {budget : Nat} {i : NodeIndex} {f : Word} {l r : NodeIndex} {path : BitSeq}
    {C E : CodeTable} (hi : nodeAt i = some (.internal f l r)) :
    walk nodeAt count budget i path C = .ok E ↔ (l.toNat < count ∧ r.toNat < count) ∧
      ∃ b D, budget = b + 1 ∧ walk nodeAt count b l (path ++ [false]) C = .ok D ∧
        walk nodeAt count b r (path ++ [true]) D = .ok E := by
  constructor
  · intro h
    unfold walk at h
    simp only [hi] at h
    split at h
    · exact nomatch h
    · refine ⟨by omega, ?_⟩
      split at h
      · exact nomatch h
      · split at h
        · exact nomatch h
        · exact ⟨_, _, rfl, ‹_›, h⟩
  · rintro ⟨hlr, b, D, rfl, hD, hE⟩
    unfold walk
    simp only [hi, hD, hE]
    exact if_neg (by omega)

/-- The walk from a node does not fail when each path from it ends on a readable entry, and each internal node has its
children in the table and is within the budget (R162). -/
theorem walk_ok {budget : Nat} {i : NodeIndex} (path : BitSeq) (C : CodeTable)
    (h : ∀ w k, follow nodeAt i w = some k → (∃ x f, nodeAt k = some (.leaf x f)) ∨
      ∃ f l r, nodeAt k = some (.internal f l r) ∧ (l.toNat < count ∧ r.toNat < count) ∧ w.length < budget) :
    ∃ D, walk nodeAt count budget i path C = .ok D := by
  induction budget generalizing i path C with
  | zero =>
    rcases h [] i rfl with ⟨x, f, hi⟩ | ⟨f, l, r, hi, -, hw⟩
    · exact ⟨_, walk_leaf hi path C⟩
    · exact absurd hw (Nat.not_lt_zero _)
  | succ budget ih =>
    rcases h [] i rfl with ⟨x, f, hi⟩ | ⟨f, l, r, hi, hlr, -⟩
    · exact ⟨_, walk_leaf hi path C⟩
    · have hchild (b : Bool) (w : BitSeq) (k : NodeIndex) (hw : follow nodeAt (if b then r else l) w = some k) :=
        h (b :: w) k (by rwa [follow_cons hi])
      simp only [List.length_cons, Nat.add_lt_add_iff_right] at hchild
      obtain ⟨D, hD⟩ := ih (i := l) (path ++ [false]) C (hchild false)
      obtain ⟨E, hE⟩ := ih (i := r) (path ++ [true]) D (hchild true)
      exact ⟨E, (walk_internal_iff hi).2 ⟨hlr, budget, D, rfl, hD, hE⟩⟩

/-- What the table `D` says of `x` after a walk from node `i`: a path from there to a leaf of `x`, if there is one, and
what the table `C` said before otherwise. -/
def walkFound (nodeAt : NodeIndex → Option Node) (i : NodeIndex) (path : BitSeq) (C D : CodeTable) (x : Byte) : Prop :=
  (∃ w, leadsTo nodeAt i w x ∧ D.at x = some (path ++ w)) ∨ ((∀ w, ¬ leadsTo nodeAt i w x) ∧ D.at x = C.at x)

/-- A leaf alone. -/
theorem walkFound_leaf {i : NodeIndex} {y : Byte} {f : Word} (hi : nodeAt i = some (.leaf y f)) (path : BitSeq)
    (C : CodeTable) (x : Byte) : walkFound nodeAt i path C (C.put y path) x := by
  by_cases hxy : y = x
  · subst hxy
    exact .inl ⟨[], (leadsTo_of_leaf hi [] y).2 ⟨rfl, rfl⟩, by rw [CodeTable.put_at_self, List.append_nil]⟩
  · exact .inr ⟨fun w hw => hxy ((leadsTo_of_leaf hi w x).1 hw).2.symm, CodeTable.put_at_ne C path hxy⟩

/-- The left subtree, then the right one. -/
theorem walkFound_internal {i : NodeIndex} {f : Word} {l r : NodeIndex} (hi : nodeAt i = some (.internal f l r))
    {path : BitSeq} {C D E : CodeTable} {x : Byte} (hleft : walkFound nodeAt l (path ++ [false]) C D x)
    (hright : walkFound nodeAt r (path ++ [true]) D E x) : walkFound nodeAt i path C E x := by
  rcases hright with ⟨w, hw, hE⟩ | ⟨hnone, hE⟩
  · exact .inl ⟨true :: w, (leadsTo_cons hi true w x).2 hw, by rw [hE, List.append_assoc, List.singleton_append]⟩
  · rcases hleft with ⟨w, hw, hD⟩ | ⟨hnone', hD⟩
    · exact .inl ⟨false :: w, (leadsTo_cons hi false w x).2 hw, by
        rw [hE, hD, List.append_assoc, List.singleton_append]⟩
    · refine .inr ⟨fun w hw => ?_, hE.trans hD⟩
      match w with
      | [] => exact leadsTo_nil_of_internal hi x hw
      | true :: w => exact hnone w ((leadsTo_cons hi true w x).1 hw)
      | false :: w => exact hnone' w ((leadsTo_cons hi false w x).1 hw)

theorem walkFound_of_walk {budget : Nat} {i : NodeIndex} {path : BitSeq} {C D : CodeTable}
    (h : walk nodeAt count budget i path C = .ok D) (x : Byte) : walkFound nodeAt i path C D x := by
  induction budget using Nat.strong_induction_on generalizing i path C D with
  | h budget ih =>
    rcases hi : nodeAt i with _ | ⟨y, f⟩ | ⟨f, l, r⟩
    · rw [walk, hi] at h
      exact nomatch h
    · obtain rfl : C.put y path = D := by simpa [walk_leaf hi] using h
      exact walkFound_leaf hi path C x
    · obtain ⟨-, b, E, rfl, hl, hr⟩ := (walk_internal_iff hi).1 h
      exact walkFound_internal hi (ih b (Nat.lt_succ_self b) hl) (ih b (Nat.lt_succ_self b) hr)

end

/-! ### The code table of the tree held (43_code_derive.md R160) -/

/-- The state holds a tree (10_state.md R59 (a)). -/
structure State.HoldsTree (s : State) : Prop where
  valid : s.treeValid = true
  shape : TreeShape s.nodes s.nleaf.toNat
  root  : s.root.toNat = 2 * s.nleaf.toNat - 2

theorem State.Inv.holdsTree {s : State} (h : s.Inv) (ht : s.treeValid = true) : s.HoldsTree :=
  ⟨ht, (h.tree ht).1, (h.tree ht).2⟩

section
variable {s : State}

theorem State.isCodeword_of_leaf {y : Byte} {f : Word} (hr : s.nodeAt s.root = some (.leaf y f)) (x : Byte)
    (w : BitSeq) : s.isCodeword x w ↔ x = y ∧ w = [false] := by rw [State.isCodeword, hr]

theorem State.isCodeword_of_internal {f : Word} {l r : NodeIndex} (hr : s.nodeAt s.root = some (.internal f l r))
    (x : Byte) (w : BitSeq) : s.isCodeword x w ↔ leadsTo s.nodeAt s.root w x := by rw [State.isCodeword, hr, leadsTo]

theorem State.deriveCode_of_leaf {y : Byte} {f : Word} (hr : s.nodeAt s.root = some (.leaf y f)) :
    s.deriveCode = .ok (CodeTable.empty.put y [false]) := by rw [State.deriveCode, hr]

theorem State.deriveCode_of_internal {f : Word} {l r : NodeIndex} (hr : s.nodeAt s.root = some (.internal f l r)) :
    s.deriveCode = walk s.nodeAt s.nodeCount Config.maxCodeLen s.root [] CodeTable.empty := by
  rw [State.deriveCode, hr]

variable (h : s.HoldsTree)
include h

theorem State.HoldsTree.nodeCount_eq : s.nodeCount = 2 * s.nleaf.toNat - 1 := if_pos h.valid

/-- Every entry of the tree held can be read. -/
theorem State.HoldsTree.nodeAt_eq : s.nodeAt = nodeIn s.nodes := by
  funext i
  rw [State.nodeAt, nodeIn, h.nodeCount_eq, ← h.shape.length]
  split
  · rfl
  · exact (List.getElem?_eq_none (by omega)).symm

/-- The root is the leaf of a tree with one leaf (R146), and internal in a larger tree. -/
theorem State.HoldsTree.root_cases :
    (s.nleaf.toNat = 1 ∧ ∃ x f, s.nodeAt s.root = some (.leaf x f)) ∨
      (2 ≤ s.nleaf.toNat ∧ ∃ f l r, s.nodeAt s.root = some (.internal f l r)) := by
  have hroot := h.root
  have hone := h.shape.one_le
  rw [h.nodeAt_eq]
  rcases Nat.lt_or_ge s.nleaf.toNat 2 with hlt | hge
  · exact .inl ⟨by omega, h.shape.leaf_of_lt (by omega)⟩
  · exact .inr ⟨hge, h.shape.internal_of_le (by omega) (by omega)⟩

/-- CODE_DERIVE never meets a malformed node of the tree held (R162). -/
theorem State.HoldsTree.exists_walk_root :
    ∃ C, walk s.nodeAt s.nodeCount Config.maxCodeLen s.root [] CodeTable.empty = .ok C := by
  refine walk_ok [] CodeTable.empty fun w k hw => ?_
  rw [h.nodeAt_eq] at hw ⊢
  rw [h.nodeCount_eq]
  refine (h.shape.nodeIn_of_follow h.root hw).imp_right fun ⟨f, l, r, hk⟩ => ⟨f, l, r, hk, ?_⟩
  obtain ⟨hl, hr, -⟩ := h.shape.internal hk
  have hbound := h.shape.follow_bound h.root hw
  have hnk := h.shape.le_of_internal hk
  have hn := h.shape.le_256
  rw [Config.maxCodeLen]
  omega

theorem State.HoldsTree.deriveCode_ok : ∃ C, s.deriveCode = .ok C := by
  rcases h.root_cases with ⟨-, x, f, hr⟩ | ⟨-, f, l, r, hr⟩
  · exact ⟨_, State.deriveCode_of_leaf hr⟩
  · rw [State.deriveCode_of_internal hr]
    exact h.exists_walk_root

/-- The table derived has exactly the codewords of the tree held: each symbol has one path at most, so the walk finds
it. -/
theorem State.HoldsTree.code_at_iff {C : CodeTable} (hC : s.deriveCode = .ok C) (x : Byte) (w : BitSeq) :
    C.at x = some w ↔ s.isCodeword x w := by
  rcases h.root_cases with ⟨-, y, f, hr⟩ | ⟨-, f, l, r, hr⟩
  · rw [State.isCodeword_of_leaf hr]
    obtain rfl : CodeTable.empty.put y [false] = C := by simpa [State.deriveCode_of_leaf hr] using hC
    by_cases hxy : y = x
    · subst hxy
      simp [eq_comm]
    · rw [CodeTable.put_at_ne _ _ hxy, CodeTable.empty_at]
      exact iff_of_false (nomatch ·) fun e => hxy e.1.symm
  · rw [State.isCodeword_of_internal hr]
    rw [State.deriveCode_of_internal hr] at hC
    rcases walkFound_of_walk hC x with ⟨v, hv, hat⟩ | ⟨hnone, hat⟩
    · rw [hat, List.nil_append, Option.some.injEq]
      refine ⟨fun e => e ▸ hv, fun hw => ?_⟩
      rw [h.nodeAt_eq] at hv hw
      exact h.shape.leadsTo_unique h.root hv hw
    · rw [hat, CodeTable.empty_at]
      exact iff_of_false (nomatch ·) (hnone w)

/-- The symbols with a codeword are those of the leaves (R165). -/
theorem State.HoldsTree.exists_codeword_iff (x : Byte) :
    (∃ w, s.isCodeword x w) ↔ ∃ (k : Nat) (f : Word), s.nodes[k]? = some (.leaf x f) := by
  rcases h.root_cases with ⟨hn, y, f, hr⟩ | ⟨-, f, l, r, hr⟩
  · simp only [State.isCodeword_of_leaf hr]
    rw [h.nodeAt_eq] at hr
    refine ⟨fun ⟨_, hxy, _⟩ => ⟨_, f, hxy ▸ hr⟩, fun ⟨k, g, hk⟩ => ⟨[false], ?_, rfl⟩⟩
    have hk0 := h.shape.lt_of_leaf hk
    have hroot := h.root
    obtain rfl : k = s.root.toNat := by omega
    obtain ⟨hyx, -⟩ := by simpa using hr.symm.trans hk
    exact hyx.symm
  · simp only [State.isCodeword_of_internal hr, h.nodeAt_eq]
    exact h.shape.exists_leadsTo_iff h.root x

end

/-- The entries of a valid code table are the codewords of the tree held. -/
theorem State.Inv.code_at_iff {s : State} (h : s.Inv) (hc : s.codeValid = true) (x : Byte) (w : BitSeq) :
    s.code.at x = some w ↔ s.isCodeword x w :=
  (h.holdsTree (h.code hc).1).code_at_iff (h.code hc).2 x w

/-! ### CODE_DERIVE, case by case (43_code_derive.md R161) -/

theorem exec_codeDerive_of_noTree {s : State} (h : s.treeValid = false) :
    exec .codeDerive s = .next (s.complete .noTree 0#32) := by
  rw [exec, execCodeDerive, if_pos h, finish_raise]

theorem exec_codeDerive_of_ok {s : State} {C : CodeTable} (h : s.treeValid = true) (hC : s.deriveCode = .ok C) :
    exec .codeDerive s = .next ((s.withCode C).complete .ok 0#32) := by
  rw [exec, execCodeDerive, if_neg (by simp [h]), hC, finish_ok]

/-- A CODE_DERIVE that ends with OK committed the table derived from the tree held. -/
theorem exec_codeDerive_ok {s t : State} (h : exec .codeDerive s = .next t) (hok : t.errCode = .ok) :
    ∃ C, s.deriveCode = .ok C ∧ t = (s.withCode C).complete .ok 0#32 := by
  obtain ⟨u, hu, rfl⟩ := exec_commits h hok
  cases hu with
  | codeDerive C _ hC => exact ⟨C, hC, rfl⟩

/-- Settles O25: the check of TREE_VALID comes first. -/
theorem codeDeriveNeedsTree : Obligations.CodeDeriveNeedsTree := fun _ => exec_codeDerive_of_noTree

/-- Settles O24: the walk of the tree held succeeds, and what it commits are the paths to the leaves. -/
theorem codeDeriveGivesPathCodewords : Obligations.CodeDeriveGivesPathCodewords := by
  intro s h ht
  obtain ⟨C, hC⟩ := (h.holdsTree ht).deriveCode_ok
  exact ⟨_, exec_codeDerive_of_ok ht hC, (h.holdsTree ht).code_at_iff hC, rfl⟩

/-- Settles O26: codewords are paths to leaves, which no path passes; the table of a single leaf has one codeword. -/
theorem codeTableIsPrefixFree : Obligations.CodeTableIsPrefixFree := by
  intro s h hc x y u w hxy hu hw hprefix
  rw [h.code_at_iff hc] at hu hw
  rcases (h.holdsTree (h.code hc).1).root_cases with ⟨-, z, f, hr⟩ | ⟨-, f, l, r, hr⟩
  · rw [State.isCodeword_of_leaf hr] at hu hw
    exact hxy (hu.1.trans hw.1.symm)
  · rw [State.isCodeword_of_internal hr] at hu hw
    exact hxy (eq_of_leadsTo_prefix hu hw hprefix)

/-- Settles O27: a codeword is the path to its leaf, whose internal nodes have falling indices of `n` or more. -/
theorem codewordLengthIsDepth : Obligations.CodewordLengthIsDepth := by
  intro s h hc x w hw
  rw [h.code_at_iff hc] at hw
  have htree := h.holdsTree (h.code hc).1
  rcases htree.root_cases with ⟨hn, y, f, hr⟩ | ⟨hn, f, l, r, hr⟩
  · obtain ⟨-, rfl⟩ := (State.isCodeword_of_leaf hr x w).1 hw
    exact ⟨fun hn' => by omega, fun _ => rfl, by decide⟩
  · have hpath := (State.isCodeword_of_internal hr x w).1 hw
    have hlen := htree.shape.leadsTo_length htree.root hn (htree.nodeAt_eq ▸ hpath)
    have hle := htree.shape.le_256
    exact ⟨fun _ => ⟨hpath, hlen⟩, fun hn' => by omega, by omega⟩

/-! ### The codewords of the tree that TREE_BUILD builds (43_code_derive.md R165) -/

/-- The leaves of the table built are the symbols present, with their counts. -/
theorem of_buildTree_leaf {F : FreqTable} (hshape : TreeShape (buildTree F) (presentSymbols F).length) {k : Nat}
    {x : Byte} {f : Word} (hk : (buildTree F)[k]? = some (.leaf x f)) : x ∈ presentSymbols F ∧ f = F.at x := by
  obtain ⟨y, hy⟩ : ∃ y, (presentSymbols F)[k]? = some y := ⟨_, List.getElem?_eq_getElem (hshape.lt_of_leaf hk)⟩
  obtain ⟨rfl, rfl⟩ := by simpa using hk.symm.trans (buildTree_getElem?_leaf hy)
  exact ⟨List.mem_of_getElem? hy, rfl⟩

theorem exists_buildTree_leaf_iff {F : FreqTable} (hshape : TreeShape (buildTree F) (presentSymbols F).length)
    (x : Byte) : (∃ (k : Nat) (f : Word), (buildTree F)[k]? = some (.leaf x f)) ↔ F.at x ≠ 0#32 := by
  rw [← mem_presentSymbols]
  refine ⟨fun ⟨_, _, hk⟩ => (of_buildTree_leaf hshape hk).1, fun hx => ?_⟩
  obtain ⟨k, hk⟩ := List.mem_iff_getElem?.1 hx
  exact ⟨k, _, buildTree_getElem?_leaf hk⟩

/-- After a TREE_BUILD on bounded counts (R121) the state holds the tree built. -/
theorem holdsTree_of_treeBuild {s t : State} (hcounts : freqTotal s.freq ≤ s.params.symCap)
    (h : exec .treeBuild s = .next t) (hok : t.errCode = .ok) :
    t.HoldsTree ∧ t.nodes = buildTree s.freq ∧ t.nleaf.toNat = (presentSymbols s.freq).length := by
  have hshape := (treeIsFullBinaryTree s t hcounts h hok).1
  obtain ⟨-, rfl⟩ := exec_treeBuild_ok h hok
  have hle := length_presentSymbols_le s.freq
  have hleaf := s.withTree_nleaf_toNat (buildTree s.freq) hle
  have hroot := s.withTree_root_toNat (buildTree s.freq) hle
  exact ⟨⟨rfl, hshape, hroot.trans (congrArg (2 * · - 2) hleaf.symm)⟩, rfl, hleaf⟩

/-- Settles O28: the tree held, whatever happened since, has a leaf for each symbol present at its TREE_BUILD, and
FREQ_BUILD writes FREQ only. -/
theorem codeTableCoversPresentSymbols : Obligations.CodeTableCoversPresentSymbols := by
  intro s t u v hs h hok
  obtain ⟨htree, hnodes, hleaf⟩ := holdsTree_of_treeBuild hs.counts h hok
  refine ⟨fun a ha => ?_, fun hun hur hul hut hv hvok => ?_⟩
  · rcases execFreqBuild_next ha with ⟨-, rfl⟩ | ⟨-, rfl⟩
    · exact ⟨rfl, rfl, rfl, rfl, htree.valid⟩
    · exact ⟨rfl, rfl, rfl, rfl, htree.valid⟩
  · have hutree : u.HoldsTree := ⟨hut, by rw [hun, hul]; exact htree.shape, by rw [hur, hul]; exact htree.root⟩
    obtain ⟨C, hC, rfl⟩ := exec_codeDerive_ok hv hvok
    refine ⟨rfl, fun x => ?_, fun b hb => ?_⟩
    · simp only [State.complete_code, State.withCode_code, hutree.code_at_iff hC]
      rw [hutree.exists_codeword_iff, hun, hnodes]
      exact exists_buildTree_leaf_iff (hnodes ▸ hleaf ▸ htree.shape) x
    · rcases execFreqBuild_next hb with ⟨-, rfl⟩ | ⟨-, rfl⟩
      · exact ⟨rfl, rfl⟩
      · exact ⟨rfl, rfl⟩

end Sys2Proof.Machine
end

section
/-! PROOFS. A more frequent symbol never gets a strictly longer codeword (43_code_derive.md R166): parents keep the key
order of their children, so a node is never deeper than one that comes before it. -/

namespace Sys2Proof.Machine

/-! ### The key order in a tree of greedy merges (42_tree_build.md R143, R144) -/

/-- The table is a full binary tree, and every internal node joins the two least entries of its queue. -/
structure GreedyTree (N : List Node) (n : Nat) : Prop where
  shape : TreeShape N n
  joins : ∀ k f l r, N[k]? = some (.internal f l r) → joinsLeast N k f l r

theorem keyBefore.freq {N : List Node} {i j : Nat} (h : keyBefore N i j) :
    entryFreq N i < entryFreq N j ∨ (entryFreq N i = entryFreq N j ∧ i < j) := by
  obtain ⟨a, b, ha, hb, hlt⟩ := h
  rwa [entryFreq_of_some ha, entryFreq_of_some hb]

theorem keyBefore_of_freq {N : List Node} {i j : Nat} (hi : i < N.length) (hj : j < N.length)
    (h : entryFreq N i < entryFreq N j ∨ (entryFreq N i = entryFreq N j ∧ i < j)) : keyBefore N i j := by
  rw [entryFreq_of_some (List.getElem?_eq_getElem hi), entryFreq_of_some (List.getElem?_eq_getElem hj)] at h
  exact ⟨_, _, List.getElem?_eq_getElem hi, List.getElem?_eq_getElem hj, h⟩

section
variable {N : List Node} {n : Nat} (h : GreedyTree N n)
include h

/-- An entry that exists before the merge `p` and is no child of it or of an earlier merge comes after both children
of `p`. -/
theorem GreedyTree.keyBefore_of_unmerged {p c i : Nat} (hc : childOf N p c) (hip : i < p)
    (hi : ∀ q ≤ p, ¬ childOf N q i) : keyBefore N c i := by
  obtain ⟨f, l, r, b, hp, rfl⟩ := childOf_iff.1 hc
  obtain ⟨-, -, -, hleast, -⟩ := h.joins p f l r hp
  have hqueue : inQueueAt N p i :=
    ⟨hip, fun hmem => by obtain ⟨q, hq, hqi⟩ := mem_childIndices_take.1 hmem; exact hi q hq.le hqi⟩
  have hne (b : Bool) : i ≠ (if b then r else l).toNat := fun e => hi p le_rfl (e ▸ childOf_of_internal hp b)
  obtain ⟨hleft, hright⟩ := hleast i hqueue (hne false)
  cases b with
  | false => exact hleft
  | true => exact hright (hne true)

/-- Later merges are at least as frequent: their children were left by the earlier merge, or are later merges. -/
theorem GreedyTree.entryFreq_mono {p q : Nat} (hnp : n ≤ p) (hpq : p ≤ q) (hq : q < 2 * n - 1) :
    entryFreq N p ≤ entryFreq N q := by
  induction q using Nat.strong_induction_on with
  | h q ih =>
    rcases hpq.eq_or_lt with rfl | hlt
    · exact le_rfl
    obtain ⟨f, l, r, hp⟩ := h.shape.internal_of_le (hpq.trans_lt hq) hnp
    obtain ⟨f', l', r', hq'⟩ := h.shape.internal_of_le hq (hnp.trans hpq)
    obtain ⟨-, -, hsum⟩ := h.shape.internal hp
    obtain ⟨-, -, hsum'⟩ := h.shape.internal hq'
    have hle (b b' : Bool) : entryFreq N (if b then r else l).toNat ≤ entryFreq N (if b' then r' else l').toNat := by
      have hc := childOf_of_internal hp b
      have hd := childOf_of_internal hq' b'
      have hdq := h.shape.child_lt_parent hd
      rcases Nat.lt_or_ge (if b' then r' else l').toNat p with hdp | hpd
      · have := (h.keyBefore_of_unmerged hc hdp fun k hk hkd => by
          have := h.shape.parent_unique hkd hd
          omega).freq
        omega
      · exact (h.shape.entryFreq_child_le hc).trans (ih _ hdq hpd (hdq.trans hq))
    have hleft := hle false false
    have hright := hle true true
    simp only [Bool.false_eq_true, ↓reduceIte] at hleft hright
    omega

/-- Parents keep the order of their children: the entry that comes first in key order is merged no later. -/
theorem GreedyTree.parent_le {i j p q : Nat} (hij : keyBefore N i j) (hp : childOf N p i) (hq : childOf N q j) :
    p ≤ q := by
  by_contra hlt
  obtain ⟨hnq, -⟩ := h.shape.parent_bounds hq
  obtain ⟨-, hpn⟩ := h.shape.parent_bounds hp
  have hij' := hij.freq
  rcases Nat.lt_or_ge i q with hiq | hqi
  · have hji := (h.keyBefore_of_unmerged hq hiq fun k hk hki => by
      have := h.shape.parent_unique hki hp
      omega).freq
    omega
  · have hle := h.entryFreq_mono hnq hqi ((h.shape.child_lt_parent hp).trans hpn)
    have hfreq := h.shape.entryFreq_child_le hq
    have hjq := h.shape.child_lt_parent hq
    omega

/-- An entry with a parent does not come after the root. -/
theorem GreedyTree.not_keyBefore_of_root {j q : Nat} (hq : childOf N q j) : ¬ keyBefore N (2 * n - 2) j := by
  intro hroot
  have hroot' := hroot.freq
  obtain ⟨hnq, hqn⟩ := h.shape.parent_bounds hq
  have hle := h.entryFreq_mono hnq (by omega : q ≤ 2 * n - 2) (by omega)
  have hfreq := h.shape.entryFreq_child_le hq
  have hjq := h.shape.child_lt_parent hq
  omega

/-! ### Depths (43_code_derive.md R166) -/

/-- The entry that comes first in key order is at least as deep. -/
theorem GreedyTree.length_le_of_keyBefore {root : NodeIndex} (hroot : root.toNat = 2 * n - 2) {u w : BitSeq}
    {i j : NodeIndex} (hu : follow (nodeIn N) root u = some i) (hw : follow (nodeIn N) root w = some j)
    (hij : keyBefore N i.toNat j.toNat) : w.length ≤ u.length := by
  induction w using List.reverseRecOn generalizing u i j with
  | nil => exact Nat.zero_le _
  | append_singleton w c ih =>
    obtain ⟨q, g, l', r', hwq, hq, rfl⟩ := follow_concat.1 hw
    have hqj := childOf_of_internal hq c
    rcases List.eq_nil_or_concat' u with rfl | ⟨u, b, rfl⟩
    · obtain rfl := follow_nil.1 hu
      exact absurd (hroot ▸ hij) (h.not_keyBefore_of_root hqj)
    obtain ⟨p, f, l, r, hup, hp, rfl⟩ := follow_concat.1 hu
    have hpi := childOf_of_internal hp b
    have hlen : w.length ≤ u.length := by
      rcases (h.parent_le hij hpi hqj).eq_or_lt with heq | hlt
      · obtain rfl : p = q := BitVec.eq_of_toNat_eq heq
        rw [h.shape.follow_unique hroot hup hwq]
      · have hqn := h.shape.lt_of_some hq
        have hpn := h.shape.lt_of_some hp
        have hfreq := h.entryFreq_mono (h.shape.le_of_internal hp) hlt.le hqn
        rw [← h.shape.length] at hqn hpn
        exact ih hup hwq (keyBefore_of_freq hpn hqn (by omega))
    simpa using hlen

end

/-- Settles O23: the tree that TREE_BUILD builds is one of greedy merges, and the leaves have the symbols' counts. -/
theorem moreFrequentSymbolsGetNoLongerCodes : Obligations.MoreFrequentSymbolsGetNoLongerCodes := by
  intro s t u hcounts ht htok hu huok a b v w hab ha hb
  obtain ⟨htree, hnodes, hleaf⟩ := holdsTree_of_treeBuild hcounts ht htok
  obtain ⟨hne, -⟩ := exec_treeBuild_ok ht htok
  obtain ⟨C, hC, rfl⟩ := exec_codeDerive_ok hu huok
  rw [State.complete_code, State.withCode_code, htree.code_at_iff hC] at ha hb
  rcases htree.root_cases with ⟨-, y, f, hr⟩ | ⟨-, f, l, r, hr⟩
  · rw [State.isCodeword_of_leaf hr] at ha hb
    rw [ha.2, hb.2]
  · have hshape : TreeShape (buildTree s.freq) (presentSymbols s.freq).length := hnodes ▸ hleaf ▸ htree.shape
    rw [State.isCodeword_of_internal hr, htree.nodeAt_eq, hnodes] at ha hb
    obtain ⟨k, g, hv, hk⟩ := ha
    obtain ⟨j, g', hw, hj⟩ := hb
    obtain ⟨-, rfl⟩ := of_buildTree_leaf hshape hk
    obtain ⟨-, rfl⟩ := of_buildTree_leaf hshape hj
    have hgreedy : GreedyTree (buildTree s.freq) (presentSymbols s.freq).length :=
      ⟨hshape, fun _ _ _ _ => joinsLeast_buildTree hne⟩
    exact hgreedy.length_le_of_keyBefore (hleaf ▸ htree.root) hw hv ⟨_, _, hj, hk, .inl hab⟩

end Sys2Proof.Machine
end

section
/-! PROOFS. ENCODE: the checks before its input, the first symbol that fails, and the stream it packs (44_encode.md). -/

namespace Sys2Proof.Machine

/-! ### The checks before the input (44_encode.md R181) -/

theorem exec_encode_of_not_codeValid {s : State} (hcode : s.codeValid = false) :
    exec .encode s = .next (s.complete .noCode 0#32) := by
  rw [exec, execEncode, if_pos hcode, finish_raise]

theorem exec_encode_of_symCap_lt {s : State} (hcode : s.codeValid = true) (hlen : s.params.symCap < s.symLen.toNat) :
    exec .encode s = .next (s.complete .badLength s.symLen) := by
  rw [exec, execEncode, if_neg (by simp [hcode]), if_pos hlen, finish_raise]

/-- Settles O30: each check raises before any later one is reached. -/
theorem encodeChecksTableThenLength : Obligations.EncodeChecksTableThenLength :=
  fun _ => ⟨exec_encode_of_not_codeValid, exec_encode_of_symCap_lt⟩

/-! ### Pass 1 (44_encode.md R181) -/

section
variable {s : State} (hcode : s.codeValid = true) (hlen : s.symLen.toNat ≤ s.params.symCap)
include hcode hlen

theorem exec_encode_of_check_ok {n : Nat}
    (hcheck : encodeCheck s.code (8 * s.params.bitCap) s.inputSymbols 0 0 = .ok n) :
    exec .encode s = .next ((s.withStream (encodeSymbols s.code s.inputSymbols) n).complete .ok 0#32) := by
  rw [exec, execEncode, if_neg (by simp [hcode]), if_neg hlen.not_gt, hcheck, finish_ok]

theorem exec_encode_of_check_raise {c : ErrCode} {i : Word}
    (hcheck : encodeCheck s.code (8 * s.params.bitCap) s.inputSymbols 0 0 = .error (.raise c i)) :
    exec .encode s = .next (s.complete c i) := by
  rw [exec, execEncode, if_neg (by simp [hcode]), if_neg hlen.not_gt, hcheck, finish_raise]

end

section
variable {C : CodeTable} {limit : Nat} {xs : List Byte} (hx : ∀ x ∈ xs, C.at x ≠ none)
  (hfit : (encodeSymbols C xs).length ≤ limit)
include hx hfit

/-- Pass 1 from the start reaches the symbols after `xs` with the length of the encoding of `xs`. -/
theorem encodeCheck_from_start (ys : List Byte) :
    encodeCheck C limit (xs ++ ys) 0 0 = encodeCheck C limit ys xs.length (encodeSymbols C xs).length := by
  rw [encodeCheck_append ys 0 0 hx (by omega), Nat.zero_add, Nat.zero_add]

theorem encodeCheck_of_fits : encodeCheck C limit xs 0 0 = .ok (encodeSymbols C xs).length := by
  simpa [encodeCheck] using encodeCheck_from_start hx hfit []

theorem encodeCheck_of_no_codeword {x : Byte} (h : C.at x = none) (ys : List Byte) :
    encodeCheck C limit (xs ++ x :: ys) 0 0 = .error (.raise .unknownSymbol (BitVec.ofNat 32 xs.length)) := by
  simp only [encodeCheck_from_start hx hfit, encodeCheck, h]

theorem encodeCheck_of_overflow {x : Byte} {w : BitSeq} (h : C.at x = some w)
    (hover : limit < (encodeSymbols C xs).length + w.length) (ys : List Byte) :
    encodeCheck C limit (xs ++ x :: ys) 0 0 = .error (.raise .bitOverflow (BitVec.ofNat 32 xs.length)) := by
  simp only [encodeCheck_from_start hx hfit, encodeCheck, h, if_pos hover]

end

/-- Settles O31: pass 1 gets past the symbols before, and raises at the first one without a codeword or without room. -/
theorem encodeReportsFirstBadSymbol : Obligations.EncodeReportsFirstBadSymbol := by
  intro s pre post x hcode hlen hinput hpre hfit
  refine ⟨fun hx => ?_, fun w hw hover => ?_⟩
  · exact exec_encode_of_check_raise hcode hlen (hinput ▸ encodeCheck_of_no_codeword hpre hfit hx post)
  · exact exec_encode_of_check_raise hcode hlen (hinput ▸ encodeCheck_of_overflow hpre hfit hw hover post)

/-! ### The packed stream in the buffer (20_memory.md R77, 44_encode.md R181, R182, R184) -/

theorem State.withStream_readByte (s : State) (bits : BitSeq) (n : Nat) {j : Nat} (hj : j < ceil8 bits.length) :
    (s.withStream bits n).readByte .bitBuf j = packByte bits j := by
  have hpack : j < (packBits bits).length := by rwa [length_packBits]
  have hstore := Memory.get?_store_mid (packBits bits) s.bitBuf 0 hpack
  rw [Nat.zero_add] at hstore
  exact (State.readByte_of_get? (s.withStream bits n) .bitBuf hstore).trans (by simp [packBits])

/-- The bytes past the stream keep their values (44_encode.md R184). -/
theorem State.withStream_readByte_of_le (s : State) (bits : BitSeq) (n : Nat) {j : Nat} (hj : ceil8 bits.length ≤ j) :
    (s.withStream bits n).readByte .bitBuf j = s.readByte .bitBuf j :=
  State.readByte_congr (Memory.get?_store_after _ s.bitBuf (by rwa [length_packBits, Nat.zero_add])) rfl

/-- Up to the end of its last byte the buffer holds the stream and then zeros. -/
theorem State.withStream_streamBit (s : State) (bits : BitSeq) (n : Nat) {p : Nat} (hp : p < 8 * ceil8 bits.length) :
    (s.withStream bits n).streamBit p = bits.getD p false := by
  rw [State.streamBit, State.withStream_readByte s bits n (by omega), packByte_getLsbD bits _ (by omega),
    Nat.div_add_mod]

section
variable (s : State) {bits : BitSeq} (hword : bits.length < 2 ^ 32)
include hword

theorem State.withStream_bitLen_toNat : (s.withStream bits bits.length).bitLen.toNat = bits.length :=
  Nat.mod_eq_of_lt hword

theorem State.withStream_bitstream : (s.withStream bits bits.length).bitstream = bits := by
  have hceil := (ceil8_le_iff bits.length _).1 le_rfl
  refine List.ext_getElem (by rw [State.length_bitstream, s.withStream_bitLen_toNat hword]) fun p _ hp => ?_
  simp only [State.bitstream, List.getElem_map, List.getElem_range]
  rw [s.withStream_streamBit bits _ (by omega), List.getD_eq_getElem _ _ hp]

end

@[simp] theorem State.complete_streamBit (s : State) (c : ErrCode) (i : Word) (p : Nat) :
    (s.complete c i).streamBit p = s.streamBit p := by rw [State.streamBit, State.complete_readByte, State.streamBit]

/-- BIT_LEN's new value is the sum of the codeword lengths (44_encode.md R182). -/
theorem length_encodeSymbols (C : CodeTable) (xs : List Byte) :
    (encodeSymbols C xs).length = (xs.map (fun x => ((C.at x).getD []).length)).sum := List.length_flatMap

/-- Settles O29: pass 1 succeeds with the stream's length, and what it commits is `withStream`. -/
theorem encodePacksCodewords : Obligations.EncodePacksCodewords := by
  intro s hcode hlen hx hfit
  have hcap : s.params.bitCap ≤ 2 ^ 24 := (cap_bounds s.params .bitBuf).2.1
  have hword : (encodeSymbols s.code s.inputSymbols).length < 2 ^ 32 := by
    rw [encodeSymbols]
    omega
  refine ⟨_, exec_encode_of_check_ok hcode hlen (encodeCheck_of_fits hx hfit), ?_, State.bitBytes_toNat _,
    s.withStream_bitstream hword, ?_, ?_, rfl⟩ <;>
    rw [State.complete_bitLen, s.withStream_bitLen_toNat hword]
  · exact length_encodeSymbols s.code s.inputSymbols
  · intro p hpast hp
    rw [State.complete_streamBit, s.withStream_streamBit _ _ hp, List.getD_eq_default _ _ hpast]
  · intro j hj
    rw [State.complete_readByte, s.withStream_readByte_of_le _ _ hj]

end Sys2Proof.Machine
end

section
/-! PROOFS. DECODE: the checks before its input, whole codewords one after another, and how a stream can fail after them
(45_decode.md R200 to R206). -/

namespace Sys2Proof.Machine

/-! ### The checks before the input (45_decode.md R202) -/

theorem exec_decode_of_noTree {s : State} (htree : s.treeValid = false) :
    exec .decode s = .next (s.complete .noTree 0#32) := by
  rw [exec, execDecode, if_pos htree, finish_raise]

theorem exec_decode_of_bitCap_lt {s : State} (htree : s.treeValid = true)
    (hlen : 8 * s.params.bitCap < s.bitLen.toNat) :
    exec .decode s = .next (s.complete .badLength s.bitLen) := by
  rw [exec, execDecode, if_neg (by simp [htree]), if_pos hlen, finish_raise]

/-- Settles O33: each check raises before any later one is reached. -/
theorem decodeChecksTreeThenLength : Obligations.DecodeChecksTreeThenLength :=
  fun _ => ⟨exec_decode_of_noTree, exec_decode_of_bitCap_lt⟩

section
variable {s : State} (htree : s.treeValid = true) (hlen : s.bitLen.toNat ≤ 8 * s.params.bitCap)
include htree hlen

theorem exec_decode_of_loop_ok {out : List Byte}
    (hloop : decodeLoop s.nodeAt s.root s.params.outCap s.bitstream 0 s.root 0 [] = .ok out) :
    exec .decode s = .next ((s.withOutput out).complete .ok 0#32) := by
  rw [exec, execDecode, if_neg (by simp [htree]), if_neg hlen.not_gt, hloop, finish_ok]

theorem exec_decode_of_loop_raise {c : ErrCode} {i : Word}
    (hloop : decodeLoop s.nodeAt s.root s.params.outCap s.bitstream 0 s.root 0 [] = .error (.raise c i)) :
    exec .decode s = .next (s.complete c i) := by
  rw [exec, execDecode, if_neg (by simp [htree]), if_neg hlen.not_gt, hloop, finish_raise]

end

/-! ### One bit (45_decode.md R201, R202) -/

theorem emit_of_full {outCap : Nat} {out : List Byte} (h : out.length = outCap) (x : Byte) (p : Nat) :
    emit outCap out x p = .error (.raise .outOverflow (BitVec.ofNat 32 p)) := if_pos h

theorem emit_of_lt {outCap : Nat} {out : List Byte} (h : out.length < outCap) (x : Byte) (p : Nat) :
    emit outCap out x p = .ok (out ++ [x]) := if_neg h.ne

section
variable {nodeAt : NodeIndex → Option Node} {root cur : NodeIndex}

theorem cursorMove_of_leaf {x : Byte} {f : Word} (hr : nodeAt root = some (.leaf x f)) (b : Bool) (p : Nat) :
    cursorMove nodeAt root cur b p =
      if b then .error (.raise .invalidBit (BitVec.ofNat 32 p)) else .ok (.emits x) := by rw [cursorMove, hr]

theorem cursorMove_to_leaf {f g h : Word} {l r l' r' : NodeIndex} {b : Bool} {x : Byte}
    (hr : nodeAt root = some (.internal f l r)) (hcur : nodeAt cur = some (.internal g l' r'))
    (hchild : nodeAt (if b then r' else l') = some (.leaf x h)) (p : Nat) :
    cursorMove nodeAt root cur b p = .ok (.emits x) := by simp only [cursorMove, hr, hcur, hchild]

/-- A bit that completes a codeword emits its symbol, and the next codeword starts at the bit after it. -/
theorem decodeLoop_emits {x : Byte} {b : Bool} {p : Nat} (h : cursorMove nodeAt root cur b p = .ok (.emits x))
    (outCap : Nat) (bs : BitSeq) (start : Nat) (out : List Byte) :
    decodeLoop nodeAt root outCap (b :: bs) p cur start out =
      (emit outCap out x p).bind (decodeLoop nodeAt root outCap bs (p + 1) root (p + 1)) := by
  simp only [decodeLoop, h]
  cases emit outCap out x p <;> rfl

end

/-! ### Whole codewords (45_decode.md R201, R203) -/

/-- Where the root cannot be read there is no codeword. -/
theorem State.root_ne_none_of_isCodeword {s : State} {x : Byte} {w : BitSeq} (h : s.isCodeword x w) :
    s.nodeAt s.root ≠ none := by
  intro hr
  rw [State.isCodeword, hr] at h
  obtain ⟨k, f, hw, hk⟩ := h
  cases w with
  | nil =>
    obtain rfl := follow_nil.1 hw
    exact nomatch hr.symm.trans hk
  | cons b w => simp [follow, hr] at hw

/-- A codeword emits its symbol with its last bit, and leaves the cursor at the root. -/
theorem State.decodeLoop_codeword {s : State} {x : Byte} {w : BitSeq} (h : s.isCodeword x w) (outCap : Nat)
    (bs : BitSeq) (p start : Nat) (out : List Byte) :
    decodeLoop s.nodeAt s.root outCap (w ++ bs) p s.root start out =
      (emit outCap out x (p + w.length - 1)).bind
        (decodeLoop s.nodeAt s.root outCap bs (p + w.length) s.root (p + w.length)) := by
  rcases hr : s.nodeAt s.root with _ | ⟨y, f⟩ | ⟨f, l, r⟩
  · exact absurd hr (State.root_ne_none_of_isCodeword h)
  · obtain ⟨rfl, rfl⟩ := (State.isCodeword_of_leaf hr x w).1 h
    exact decodeLoop_emits (cursorMove_of_leaf hr false p) outCap bs start out
  · obtain ⟨k, g, hw, hk⟩ := (State.isCodeword_of_internal hr x w).1 h
    rcases List.eq_nil_or_concat' w with rfl | ⟨u, b, rfl⟩
    · exact absurd ⟨k, g, hw, hk⟩ (leadsTo_nil_of_internal hr x)
    · obtain ⟨j, g', l', r', hu, hj, rfl⟩ := follow_concat.1 hw
      rw [List.append_assoc, decodeLoop_walk ⟨f, l, r, hr⟩ hu ⟨g', l', r', hj⟩, List.singleton_append,
        decodeLoop_emits (cursorMove_to_leaf hr hj hk _), List.length_append, List.length_singleton,
        ← Nat.add_assoc, Nat.add_sub_cancel]

section
variable {s : State} {ws : List (BitSeq × Byte)} (hws : s.areCodewords ws) {outCap : Nat}
include hws

/-- Codewords whose symbols fit are decoded one after another. -/
theorem State.decodeLoop_codewords {out : List Byte} (hfit : out.length + ws.length ≤ outCap) (bs : BitSeq) (p : Nat) :
    decodeLoop s.nodeAt s.root outCap (ws.flatMap Prod.fst ++ bs) p s.root p out =
      decodeLoop s.nodeAt s.root outCap bs (p + (ws.flatMap Prod.fst).length) s.root
        (p + (ws.flatMap Prod.fst).length) (out ++ ws.map Prod.snd) := by
  induction ws generalizing out p with
  | nil => simp
  | cons c ws ih =>
    obtain ⟨hc, hws⟩ := List.forall_mem_cons.1 hws
    rw [List.length_cons] at hfit
    rw [List.flatMap_cons, List.append_assoc, State.decodeLoop_codeword hc, emit_of_lt (by omega), Except.bind,
      ih hws (by rw [List.length_append, List.length_singleton]; omega)]
    simp [Nat.add_assoc]

theorem State.decodeLoop_from_start (hfit : ws.length ≤ outCap) (bs : BitSeq) :
    decodeLoop s.nodeAt s.root outCap (ws.flatMap Prod.fst ++ bs) 0 s.root 0 [] =
      decodeLoop s.nodeAt s.root outCap bs (ws.flatMap Prod.fst).length s.root (ws.flatMap Prod.fst).length
        (ws.map Prod.snd) := by
  simpa using State.decodeLoop_codewords hws (out := []) (by simpa using hfit) bs 0

end

/-! ### The output in the buffer (45_decode.md R202) -/

theorem State.withOutput_readByte (s : State) (out : List Byte) {j : Nat} (hj : j < out.length) :
    (s.withOutput out).readByte .symOut j = out[j] := by
  have hstore := Memory.get?_store_mid out s.symOut 0 hj
  rw [Nat.zero_add] at hstore
  exact State.readByte_of_get? (s.withOutput out) .symOut hstore

/-- The bytes past the output keep their values. -/
theorem State.withOutput_readByte_of_le (s : State) (out : List Byte) {j : Nat} (hj : out.length ≤ j) :
    (s.withOutput out).readByte .symOut j = s.readByte .symOut j :=
  State.readByte_congr (Memory.get?_store_after out s.symOut (by rwa [Nat.zero_add])) rfl

@[simp] theorem State.complete_outputSymbols (s : State) (c : ErrCode) (i : Word) :
    (s.complete c i).outputSymbols = s.outputSymbols := rfl

section
variable (s : State) {out : List Byte} (hword : out.length < 2 ^ 32)
include hword

theorem State.withOutput_outLen_toNat : (s.withOutput out).outLen.toNat = out.length := Nat.mod_eq_of_lt hword

theorem State.withOutput_outputSymbols : (s.withOutput out).outputSymbols = out := by
  rw [State.outputSymbols, s.withOutput_outLen_toNat hword]
  refine List.ext_getElem (by simp) fun j _ hj => ?_
  rw [List.getElem_map, List.getElem_range, s.withOutput_readByte out hj]

end

/-! ### DECODE on whole codewords, and what can follow them -/

theorem exec_decode_of_codewords {s : State} {ws : List (BitSeq × Byte)} (htree : s.treeValid = true)
    (hlen : s.bitLen.toNat ≤ 8 * s.params.bitCap) (hws : s.areCodewords ws) (hstream : s.bitstream = ws.flatMap Prod.fst)
    (hfit : ws.length ≤ s.params.outCap) :
    exec .decode s = .next ((s.withOutput (ws.map Prod.snd)).complete .ok 0#32) := by
  refine exec_decode_of_loop_ok htree hlen ?_
  rw [hstream, ← List.append_nil (ws.flatMap Prod.fst), State.decodeLoop_from_start hws hfit, decodeLoop, if_pos rfl]

/-- A number of symbols that fits SYM_OUT is a word. -/
theorem lt_word_of_le_outCap {p : Params} {n : Nat} (h : n ≤ p.outCap) : n < 2 ^ 32 := by
  have hcap : p.outCap ≤ 2 ^ 24 := (cap_bounds p .symOut).2.1
  omega

/-- Settles O32: the loop decodes the codewords one after another, and what it commits is `withOutput`. -/
theorem decodeEmitsSymbolsOfCodewords : Obligations.DecodeEmitsSymbolsOfCodewords := by
  intro s ws htree hlen hws hstream hfit
  have hout : (ws.map Prod.snd).length = ws.length := List.length_map _
  have hword : (ws.map Prod.snd).length < 2 ^ 32 := hout ▸ lt_word_of_le_outCap hfit
  refine ⟨_, exec_decode_of_codewords htree hlen hws hstream hfit, (s.withOutput_outLen_toNat hword).trans hout,
    s.withOutput_outputSymbols hword, fun j hj => ?_, rfl⟩
  rw [State.complete_readByte, s.withOutput_readByte_of_le _ (hout.trans_le hj)]

/-- Settles O34: after the whole codewords the cursor walks to an internal node other than the root, and the stream
ends there. -/
theorem decodeRejectsTruncatedStream : Obligations.DecodeRejectsTruncatedStream := by
  intro s ws u k f l r htree hlen hws hfit hstream hu hfollow hk hnode
  have hroot : ∃ g m n, s.nodeAt s.root = some (.internal g m n) := by
    obtain ⟨b, v, rfl⟩ := List.exists_cons_of_ne_nil hu
    rcases hr : s.nodeAt s.root with _ | ⟨y, g⟩ | ⟨g, m, n⟩
    · simp [follow, hr] at hfollow
    · exact nomatch ((follow_leaf hr).1 hfollow).1
    · exact ⟨g, m, n, rfl⟩
  refine exec_decode_of_loop_raise htree hlen ?_
  rw [hstream, State.decodeLoop_from_start hws hfit, ← List.append_nil u,
    decodeLoop_walk hroot hfollow ⟨f, l, r, hnode⟩, decodeLoop, if_neg hk]

/-- Settles O36: the codewords before the last fill the output, so the last bit of the last one cannot emit. -/
theorem decodeRejectsOutputOverflow : Obligations.DecodeRejectsOutputOverflow := by
  intro s ws rest htree hlen hws hcount hstream
  rcases List.eq_nil_or_concat' ws with rfl | ⟨vs, c, rfl⟩
  · exact nomatch hcount
  · obtain ⟨hvs, hc⟩ := List.forall_mem_append.1 hws
    have hfull : (vs.map Prod.snd).length = s.params.outCap := by simpa using hcount
    refine exec_decode_of_loop_raise htree hlen ?_
    rw [hstream, List.flatMap_append, List.flatMap_singleton, List.append_assoc,
      State.decodeLoop_from_start hvs (by simpa using hfull.le),
      State.decodeLoop_codeword (hc c (List.mem_singleton_self c)), emit_of_full hfull, List.length_append, Except.bind]

/-! ### A single-leaf tree (45_decode.md R203) -/

section
variable {s : State} {x : Byte} {f : Word} (hr : s.nodeAt s.root = some (.leaf x f))
include hr

theorem State.areCodewords_of_leaf (n : Nat) : s.areCodewords (List.replicate n ([false], x)) := by
  intro p hp
  rw [List.eq_of_mem_replicate hp, State.isCodeword_of_leaf hr]
  exact ⟨rfl, rfl⟩

/-- The cursor never leaves the root of a single-leaf tree, so the stream cannot end elsewhere. -/
theorem State.decodeLoop_ne_truncated_of_leaf (outCap : Nat) (bs : BitSeq) (p start : Nat) (out : List Byte) (i : Word) :
    decodeLoop s.nodeAt s.root outCap bs p s.root start out ≠ .error (.raise .truncatedStream i) := by
  induction bs generalizing p start out with
  | nil => simp [decodeLoop]
  | cons b bs ih =>
    cases b with
    | true => simp [decodeLoop, cursorMove_of_leaf hr]
    | false =>
      rw [decodeLoop_emits (cursorMove_of_leaf hr false p)]
      by_cases hfull : out.length = outCap
      · simp [emit_of_full hfull, Except.bind]
      · rw [emit, if_neg hfull]
        exact ih _ _ _

end

theorem flatMap_fst_replicate_false (n : Nat) (x : Byte) :
    (List.replicate n ([false], x)).flatMap Prod.fst = List.replicate n false := by
  simp [List.flatMap_replicate]

/-- Settles O35: on a single-leaf tree "0" is the one codeword, and the cursor stays at the root. -/
theorem singleLeafTreeDecodesZeros : Obligations.SingleLeafTreeDecodesZeros := by
  intro s x f htree hlen hr
  refine ⟨fun n hstream hfit => ?_, fun n rest hstream hfit => ?_, fun t h => ?_⟩
  · obtain ⟨t, ht, hout, hsyms, -, hrecord⟩ := decodeEmitsSymbolsOfCodewords s (List.replicate n ([false], x)) htree hlen
      (State.areCodewords_of_leaf hr n) (by rw [flatMap_fst_replicate_false, hstream]) (by simpa using hfit)
    exact ⟨t, ht, by rw [hrecord, State.complete_errCode], by simpa using hout, by simpa using hsyms⟩
  · have hloop := State.decodeLoop_from_start (State.areCodewords_of_leaf hr n) (outCap := s.params.outCap)
      (by simpa using hfit) (true :: rest)
    rw [flatMap_fst_replicate_false, ← hstream, List.length_replicate] at hloop
    refine exec_decode_of_loop_raise htree hlen (hloop.trans ?_)
    rw [decodeLoop, cursorMove_of_leaf hr, if_pos rfl]
  · rcases execDecode_next h with ⟨-, -, out, -, rfl⟩ | ⟨-, rfl⟩ | ⟨-, -, rfl⟩ | ⟨-, -, c, i, hraise, rfl⟩
    · simp
    · simp
    · simp
    · rintro rfl
      exact State.decodeLoop_ne_truncated_of_leaf hr _ _ _ _ _ i hraise

end Sys2Proof.Machine
end

section
/-! PROOFS. The round trip: decoding an encoded input gives the input back (45_decode.md R205). -/

namespace Sys2Proof.Machine

/-! ### The encoding of an input as a sequence of codewords (44_encode.md R180) -/

/-- The input's symbols, each with its entry of the code table. -/
def codewordPairs (C : CodeTable) (xs : List Byte) : List (BitSeq × Byte) := xs.map fun x => ((C.at x).getD [], x)

@[simp] theorem length_codewordPairs (C : CodeTable) (xs : List Byte) : (codewordPairs C xs).length = xs.length :=
  List.length_map _

@[simp] theorem map_snd_codewordPairs (C : CodeTable) (xs : List Byte) : (codewordPairs C xs).map Prod.snd = xs := by
  rw [codewordPairs, List.map_map]
  exact List.map_id xs

theorem flatMap_fst_codewordPairs (C : CodeTable) (xs : List Byte) :
    (codewordPairs C xs).flatMap Prod.fst = encodeSymbols C xs := by rw [codewordPairs, List.flatMap_map, encodeSymbols]

/-- Where every symbol has an entry of the table derived, the entries are codewords of the tree held. -/
theorem State.HoldsTree.areCodewords {s : State} (h : s.HoldsTree) {C : CodeTable} (hC : s.deriveCode = .ok C)
    {xs : List Byte} (hx : ∀ x ∈ xs, C.at x ≠ none) : s.areCodewords (codewordPairs C xs) := by
  refine List.forall_mem_map.2 fun x hmem => ?_
  obtain ⟨w, hw⟩ := Option.ne_none_iff_exists'.1 (hx x hmem)
  rw [hw, Option.getD_some]
  exact (h.code_at_iff hC x w).1 hw

/-! ### ENCODE, then DECODE (45_decode.md R205) -/

/-- With the table of the tree held, DECODE of what ENCODE packed gives the input back. -/
theorem decode_encode_input {s : State} (h : s.HoldsTree) (hvalid : s.codeValid = true) (hcode : s.deriveCode = .ok s.code)
    (hlen : s.symLen.toNat ≤ s.params.symCap) (hx : ∀ x ∈ s.inputSymbols, s.code.at x ≠ none)
    (hstream : (encodeSymbols s.code s.inputSymbols).length ≤ 8 * s.params.bitCap)
    (hfit : s.symLen.toNat ≤ s.params.outCap) :
    ∃ d e, exec .encode s = .next d ∧ d.errCode = .ok ∧ exec .decode d = .next e ∧ e.errCode = .ok ∧
      e.outLen = s.symLen ∧ e.outputSymbols = s.inputSymbols := by
  have hcap : s.params.bitCap ≤ 2 ^ 24 := (cap_bounds s.params .bitBuf).2.1
  have hword : (encodeSymbols s.code s.inputSymbols).length < 2 ^ 32 := by omega
  have hsyms := s.length_inputSymbols
  refine ⟨_, _, exec_encode_of_check_ok hvalid hlen (encodeCheck_of_fits hx hstream), rfl,
    exec_decode_of_codewords (ws := codewordPairs s.code s.inputSymbols) h.valid ?_ (h.areCodewords hcode hx) ?_ ?_,
    rfl, ?_, ?_⟩
  · exact (s.withStream_bitLen_toNat hword).trans_le hstream
  · rw [flatMap_fst_codewordPairs, State.complete_bitstream, s.withStream_bitstream hword]
  · simpa [hsyms] using hfit
  · simp [hsyms]
  · rw [State.complete_outputSymbols, map_snd_codewordPairs, State.withOutput_outputSymbols _ s.length_inputSymbols_lt]

/-! ### FREQ_BUILD, TREE_BUILD and CODE_DERIVE on an input (43_code_derive.md R165) -/

/-- The input has a symbol present exactly when SYM_LEN is not 0. -/
theorem State.presentSymbols_input_eq_nil_iff (s : State) :
    presentSymbols (countSymbols s.inputSymbols) = [] ↔ s.symLen.toNat = 0 := by
  rw [← s.length_inputSymbols, List.length_eq_zero_iff, List.eq_nil_iff_forall_not_mem,
    List.eq_nil_iff_forall_not_mem]
  simp only [mem_presentSymbols, s.count_inputSymbols_ne_zero_iff]

/-- The table derived from a tree just built on bounded counts covers the symbols present. -/
theorem deriveCode_of_treeBuild {a b : State} (hcounts : freqTotal a.freq ≤ a.params.symCap)
    (h : exec .treeBuild a = .next b) (hok : b.errCode = .ok) :
    b.HoldsTree ∧ ∃ C, b.deriveCode = .ok C ∧ ∀ x, a.freq.at x ≠ 0#32 → C.at x ≠ none := by
  obtain ⟨htree, hnodes, hleaf⟩ := holdsTree_of_treeBuild hcounts h hok
  obtain ⟨C, hC⟩ := htree.deriveCode_ok
  refine ⟨htree, C, hC, fun x hx => ?_⟩
  obtain ⟨w, hw⟩ := (htree.exists_codeword_iff x).2
    (hnodes ▸ (exists_buildTree_leaf_iff (hnodes ▸ hleaf ▸ htree.shape) x).2 hx)
  exact Option.ne_none_iff_exists'.2 ⟨w, (htree.code_at_iff hC x w).2 hw⟩

/-- Settles O37: the tree built on the input's counts gives every input symbol a codeword, so what ENCODE packs is a
sequence of codewords of the tree held. -/
theorem codecRoundTrip : Obligations.CodecRoundTrip := by
  intro s hlen
  have hcounts : freqTotal (countSymbols s.inputSymbols) ≤ s.params.symCap := by
    rwa [freqTotal_countSymbols s.length_inputSymbols_lt, s.length_inputSymbols]
  refine ⟨_, exec_freqBuild_of_le hlen, rfl, fun hzero => ?_, fun hpos => ?_⟩
  · exact exec_treeBuild_of_nil (s.presentSymbols_input_eq_nil_iff.2 hzero)
  · have hne : presentSymbols (countSymbols s.inputSymbols) ≠ [] := fun hnil => by
      have := s.presentSymbols_input_eq_nil_iff.1 hnil
      omega
    have hbuild := exec_treeBuild_of_ne
      (s := ({ s with freq := countSymbols s.inputSymbols } : State).complete .ok 0#32) hne
    obtain ⟨htree, C, hC, hcover⟩ := deriveCode_of_treeBuild hcounts hbuild rfl
    refine ⟨_, _, hbuild, rfl, exec_codeDerive_of_ok htree.valid hC, rfl, fun hstream hfit => ?_⟩
    exact decode_encode_input ⟨htree.valid, htree.shape, htree.root⟩ rfl hC hlen
      (fun x hx => hcover x ((s.count_inputSymbols_ne_zero_iff x).2 hx)) ((ceil8_le_iff _ _).1 hstream) hfit

end Sys2Proof.Machine
end

section
/-! PROOFS. The engine: which command a step runs, NOP and SOFT_RESET as whole states (46_control.md R221 to R226). -/

namespace Sys2Proof.Machine

/-! ### Turns of the engine (46_control.md R222) -/

theorem perform_of_legal {w : Word} {i : Instr} (h : decodeCmd w = .ok i) (s : State) : perform w s = exec i s := by
  simp only [perform, h]

theorem engineTurn_of_pending {s : State} {w : Word} (h : s.pending = some w) : engineTurn s = perform w s := by
  simp only [engineTurn, h]

theorem engineTurn_of_idle {s : State} (h : s.pending = none) : engineTurn s = .next s := by
  simp only [engineTurn, h]

theorem step_of_engine {s : State} (h : s.nextTurn = .engine) : step s = engineTurn s.popTurn := by
  rw [step_eq, h, takeTurn]

/-- A step of the engine performs the pending word. -/
theorem step_of_pending {s : State} {w : Word} (h : s.nextTurn = .engine) (hw : s.pending = some w) :
    step s = perform w s.popTurn := by
  rw [step_of_engine h, engineTurn_of_pending (s := s.popTurn) hw]

/-- Settles O4: with an empty schedule BUSY decides who moves; the engine's turn performs the pending word, if any. -/
theorem stepRunsDecodedCommand : Obligations.StepRunsDecodedCommand := by
  intro s
  refine ⟨fun hnil => ?_, fun hturn => ⟨fun w i hw hi => ?_, fun w e hw he => ?_, fun hidle => ?_⟩⟩
  · rw [State.nextTurn_of_nil hnil]
    cases s.busy <;> simp
  · rw [step_of_pending hturn hw, perform_of_legal hi]
  · rw [step_of_pending hturn hw, perform_of_illegal he]
  · rw [step_of_engine hturn, engineTurn_of_idle (s := s.popTurn) hidle]

/-- Taking the engine's turn off leaves the state right after the CMD write. -/
theorem State.issueNext_popTurn (s : State) (w : Word) : (s.issueNext w).popTurn = s.issue w := by
  cases h : s.schedule <;> simp [State.issueNext, State.popTurn, State.issue, h]

theorem State.withFetchWord_toNat (s : State) (w : Word) : s.withFetchWord 32 w.toNat = s.issueNext w := by
  rw [State.withFetchWord, Nat.mod_eq_of_lt w.isLt, BitVec.ofNat_toNat, BitVec.setWidth_eq]

/-- Settles O5: the engine moves next, and the word it finds pending decodes to the command. -/
theorem fetchedWordRunsNext : Obligations.FetchedWordRunsNext := by
  intro s i _
  rw [State.withFetchWord_toNat, step_of_pending (s.issueNext_nextTurn _) rfl, State.issueNext_popTurn,
    perform_of_legal (decodeCmd_encode i)]

/-! ### NOP and SOFT_RESET (46_control.md R224, R226) -/

/-- A completion with OK keeps ERR_STICKY. -/
theorem State.complete_ok_eq (s : State) (info : Word) :
    s.complete .ok info = { s with errCode := .ok, errInfo := info, done := true, pending := none } := by
  rw [State.complete, bne_self_eq_false, Bool.or_false]

/-- Settles O14: NOP commits the state it starts from, and its completion is with OK. -/
theorem nopChangesOnlyRecord : Obligations.NopChangesOnlyRecord :=
  ⟨rfl, fun s => (execNop_eq s).trans (by rw [State.complete_ok_eq])⟩

/-- Without a valid code table its windows read 0 (10_state.md R50, R51). -/
theorem State.readLoc_code_of_invalid {s : State} (h : s.codeValid = false) (x : Byte) :
    s.readLoc (.codeLen x) = 0#32 ∧ ∀ k, s.readLoc (.codeBits x k) = 0#32 := by
  obtain ⟨-, -, -, hinvalid⟩ := codeWindowsShowCodewords s x
  exact hinvalid (.inl h)

/-- Without a tree the node window reads 0 (10_state.md R48). -/
theorem State.readLoc_node_of_noTree {s : State} (h : s.treeValid = false) (i : NodeIndex) (k : BitVec 2) :
    s.readLoc (.node i k) = 0#32 := by
  obtain ⟨-, -, -, hnone⟩ := nodeWindowShowsNodes s i
  exact hnone (.inl h) k

/-- Settles O15: SOFT_RESET commits the emptied codec; with no tree and no code table valid, the windows read 0. -/
theorem softResetEmptiesCodec : Obligations.SoftResetEmptiesCodec := by
  refine ⟨encode_softReset, fun s => ?_⟩
  refine ⟨s.emptied.complete .ok 0#32, execSoftReset_eq s, s.emptied.complete_ok_eq _, ?_, Bool.true_and _,
    fun x => ?_, State.readLoc_node_of_noTree rfl, fun x k => ?_⟩
  · simp [State.statusWord]
  · obtain ⟨hlen, -⟩ := State.readLoc_code_of_invalid (s := s.emptied.complete .ok 0#32) rfl x
    exact ⟨FreqTable.empty_at x, hlen⟩
  · obtain ⟨-, hbits⟩ := State.readLoc_code_of_invalid (s := s.emptied.complete .ok 0#32) rfl x
    exact hbits k

end Sys2Proof.Machine
end

section
/-! PROOFS. Under the invariant every command completes: the decoder's cursor stays on the tree held, and no table walk
meets an entry that cannot be read (46_control.md R222, R223, 43_code_derive.md R162). -/

namespace Sys2Proof.Machine

/-! ### The cursor of DECODE (45_decode.md R201, R202) -/

section
variable {s : State} (h : s.HoldsTree)
include h

/-- The children of an internal node of the tree held can be read (42_tree_build.md R149 (b)). -/
theorem State.HoldsTree.exists_child {k : NodeIndex} {f : Word} {l r : NodeIndex}
    (hk : s.nodeAt k = some (.internal f l r)) (b : Bool) : ∃ a, s.nodeAt (if b then r else l) = some a := by
  rw [h.nodeAt_eq] at hk ⊢
  have hlt := h.shape.child_lt_parent (childOf_of_internal hk b)
  have hk := (List.getElem?_eq_some_iff.1 hk).1
  exact ⟨_, List.getElem?_eq_getElem (hlt.trans hk)⟩

/-- On the tree held a bit raises, emits a symbol, or moves the cursor to an internal node. -/
theorem State.HoldsTree.cursorMove_cases {cur : NodeIndex}
    (hcur : cur = s.root ∨ ∃ f l r, s.nodeAt cur = some (.internal f l r)) (b : Bool) (p : Nat) :
    (∃ c i, cursorMove s.nodeAt s.root cur b p = .error (.raise c i)) ∨
      (∃ x, cursorMove s.nodeAt s.root cur b p = .ok (.emits x)) ∨
      ∃ nxt, cursorMove s.nodeAt s.root cur b p = .ok (.moves nxt) ∧ ∃ f l r, s.nodeAt nxt = some (.internal f l r) := by
  rcases h.root_cases with ⟨-, x, f, hr⟩ | ⟨-, f, l, r, hr⟩
  · rw [cursorMove_of_leaf hr]
    cases b with
    | true => exact .inl ⟨_, _, rfl⟩
    | false => exact .inr (.inl ⟨x, rfl⟩)
  · obtain ⟨g, l', r', hc⟩ : ∃ g l' r', s.nodeAt cur = some (.internal g l' r') := by
      rcases hcur with rfl | hc
      · exact ⟨f, l, r, hr⟩
      · exact hc
    obtain ⟨⟨x, e⟩ | ⟨e, l₂, r₂⟩, hchild⟩ := h.exists_child hc b
    · exact .inr (.inl ⟨x, cursorMove_to_leaf hr hc hchild p⟩)
    · refine .inr (.inr ⟨if b then r' else l', ?_, e, l₂, r₂, hchild⟩)
      simp only [cursorMove, hr, hc, hchild]

/-- So the decoder never faults on the tree held. -/
theorem State.HoldsTree.decodeLoop_ne_fault (outCap : Nat) (bs : BitSeq) (p : Nat) {cur : NodeIndex}
    (hcur : cur = s.root ∨ ∃ f l r, s.nodeAt cur = some (.internal f l r)) (start : Nat) (out : List Byte) (e : Fault) :
    decodeLoop s.nodeAt s.root outCap bs p cur start out ≠ .error (.fault e) := by
  induction bs generalizing p cur start out with
  | nil =>
    rw [decodeLoop]
    split <;> simp
  | cons b bs ih =>
    rcases h.cursorMove_cases hcur b p with ⟨c, i, hm⟩ | ⟨x, hm⟩ | ⟨nxt, hm, hnxt⟩
    · simp [decodeLoop, hm]
    · rw [decodeLoop_emits hm, emit]
      split
      · simp [Except.bind]
      · exact ih _ (.inl rfl) _ _
    · simpa only [decodeLoop, hm] using ih (p + 1) (.inr hnxt) start out

end

/-! ### Every command answers a next state -/

theorem exec_freqBuild_completes (s : State) : ∃ t, exec .freqBuild s = .next t := by
  rcases le_or_gt s.symLen.toNat s.params.symCap with hle | hlt
  · exact ⟨_, exec_freqBuild_of_le hle⟩
  · exact ⟨_, exec_freqBuild_of_lt hlt⟩

theorem exec_treeBuild_completes (s : State) : ∃ t, exec .treeBuild s = .next t := by
  by_cases hnil : presentSymbols s.freq = []
  · exact ⟨_, exec_treeBuild_of_nil hnil⟩
  · exact ⟨_, exec_treeBuild_of_ne hnil⟩

/-- ENCODE completes in every state: its check of the input only raises. -/
theorem exec_encode_completes (s : State) : ∃ t, exec .encode s = .next t := by
  rcases Bool.eq_false_or_eq_true s.codeValid with hcode | hcode
  · rcases le_or_gt s.symLen.toNat s.params.symCap with hle | hlt
    · rcases hcheck : encodeCheck s.code (8 * s.params.bitCap) s.inputSymbols 0 0 with e | n
      · obtain ⟨j, rfl | rfl⟩ := encodeCheck_error hcheck
        · exact ⟨_, exec_encode_of_check_raise hcode hle hcheck⟩
        · exact ⟨_, exec_encode_of_check_raise hcode hle hcheck⟩
      · exact ⟨_, exec_encode_of_check_ok hcode hle hcheck⟩
    · exact ⟨_, exec_encode_of_symCap_lt hcode hlt⟩
  · exact ⟨_, exec_encode_of_not_codeValid hcode⟩

section
variable {s : State} (h : s.Inv)
include h

theorem State.Inv.exec_codeDerive_completes : ∃ t, exec .codeDerive s = .next t := by
  rcases Bool.eq_false_or_eq_true s.treeValid with htree | htree
  · obtain ⟨C, hC⟩ := (h.holdsTree htree).deriveCode_ok
    exact ⟨_, exec_codeDerive_of_ok htree hC⟩
  · exact ⟨_, exec_codeDerive_of_noTree htree⟩

theorem State.Inv.exec_decode_completes : ∃ t, exec .decode s = .next t := by
  rcases Bool.eq_false_or_eq_true s.treeValid with htree | htree
  · rcases le_or_gt s.bitLen.toNat (8 * s.params.bitCap) with hle | hlt
    · rcases hloop : decodeLoop s.nodeAt s.root s.params.outCap s.bitstream 0 s.root 0 [] with (⟨c, i⟩ | e) | out
      · exact ⟨_, exec_decode_of_loop_raise htree hle hloop⟩
      · exact absurd hloop ((h.holdsTree htree).decodeLoop_ne_fault _ _ _ (.inl rfl) _ _ e)
      · exact ⟨_, exec_decode_of_loop_ok htree hle hloop⟩
    · exact ⟨_, exec_decode_of_bitCap_lt htree hlt⟩
  · exact ⟨_, exec_decode_of_noTree htree⟩

theorem State.Inv.exec_completes (i : Instr) : ∃ t, exec i s = .next t := by
  cases i with
  | nop => exact ⟨_, execNop_eq s⟩
  | softReset => exact ⟨_, execSoftReset_eq s⟩
  | freqBuild => exact exec_freqBuild_completes s
  | treeBuild => exact exec_treeBuild_completes s
  | codeDerive => exact h.exec_codeDerive_completes
  | encode => exact exec_encode_completes s
  | decode => exact h.exec_decode_completes

theorem State.Inv.perform_completes (w : Word) : ∃ t, perform w s = .next t := by
  cases hd : decodeCmd w with
  | ok i => exact perform_of_legal hd s ▸ h.exec_completes i
  | error e => exact ⟨_, perform_of_illegal hd s⟩

end

/-- The record that a completed command leaves is never DEGENERATE_TREE's. -/
theorem record_of_exec {i : Instr} {s t : State} (h : exec i s = .next t) :
    t.pending = none ∧ t.done = true ∧ t.errCode ≠ .degenerateTree := by
  rcases exec_next h with ⟨u, -, rfl⟩ | ⟨c, info, -, hdefect⟩
  · exact ⟨rfl, rfl, by simp⟩
  · exact ⟨rfl, rfl, hdefect⟩

/-- Settles O7: under the invariant no command faults, and a completion leaves its record and nothing pending. -/
theorem everyCommandCompletes : Obligations.EveryCommandCompletes := by
  refine fun s h => ⟨fun i => ?_, fun w hw => ?_⟩
  · obtain ⟨t, ht⟩ := h.exec_completes i
    exact ⟨t, ht, record_of_exec ht⟩
  · obtain ⟨t, ht⟩ := h.perform_completes w
    obtain ⟨hdone, hidle, -⟩ := completionRecordOfEveryCommand s t w ht
    exact ⟨t, (engineTurn_of_pending hw).trans ht, hidle, hdone⟩

end Sys2Proof.Machine
end

section
/-! PROOFS. The completion record: what a failing command changes and the codes a command can report (60_exceptions.md
R240 to R246). -/

namespace Sys2Proof.Machine

/-! ### The record that `complete` writes (60_exceptions.md R244) -/

/-- A completion keeps ERR_STICKY on OK and sets it on every other code (10_state.md R37). -/
theorem State.errSticky_complete (s : State) (code : ErrCode) (info : Word) :
    (s.complete code info).errSticky = if code = .ok then s.errSticky else true := by
  by_cases hok : code = .ok <;> simp [hok]

/-- Settles O6: ERR_STICKY is the one field of the record that depends on the state before it. -/
theorem completeWritesRecord : Obligations.CompleteWritesRecord := by
  refine fun s code info => ⟨?_, rfl, rfl, finish_ok s, finish_raise s code info, by decide⟩
  rw [← s.errSticky_complete code info, State.complete]

/-! ### A failing command changes only the record (60_exceptions.md R246) -/

/-- A failing completion is told by the record that it leaves. -/
theorem Fails.eq_complete {s t : State} (h : Fails s t) : t = s.complete t.errCode t.errInfo := by
  obtain ⟨code, info, -, -⟩ := h
  rfl

/-- Settles O10: a word that completes with another code than OK commits no writes, so it fails. -/
theorem failedCommandChangesOnlyRecord : Obligations.FailedCommandChangesOnlyRecord := by
  intro s t w h hcode
  rcases perform_next h with ⟨i, u, -, -, rfl⟩ | hfails
  · exact absurd rfl hcode
  · exact hfails.eq_complete

/-! ### The codes a command can report (60_exceptions.md R242) -/

/-- The rows of R242 for the seven commands. -/
def reportableCodes : Instr → List ErrCode
  | .nop => [.ok]
  | .softReset => [.ok]
  | .freqBuild => [.ok, .badLength]
  | .treeBuild => [.ok, .emptyInput]
  | .codeDerive => [.ok, .noTree, .degenerateTree]
  | .encode => [.ok, .noCode, .badLength, .unknownSymbol, .bitOverflow]
  | .decode => [.ok, .noTree, .badLength, .invalidBit, .outOverflow, .truncatedStream]

/-- A command commits with OK or raises a code of its row: CODE_DERIVE's walk raises nothing, and the passes of ENCODE and
DECODE raise only the codes of their own loops. -/
theorem errCode_mem_reportableCodes {i : Instr} {s t : State} (h : exec i s = .next t) :
    t.errCode ∈ reportableCodes i := by
  cases i with
  | nop =>
    obtain rfl : s.complete .ok 0#32 = t := by simpa [exec, execNop_eq] using h
    simp [reportableCodes]
  | softReset =>
    obtain rfl := eq_of_exec_softReset h
    simp [reportableCodes]
  | freqBuild => rcases execFreqBuild_next h with ⟨-, rfl⟩ | ⟨-, rfl⟩ <;> simp [reportableCodes]
  | treeBuild => rcases execTreeBuild_next h with ⟨-, rfl⟩ | ⟨-, rfl⟩ <;> simp [reportableCodes]
  | codeDerive =>
    rcases execCodeDerive_next h with ⟨-, C, -, rfl⟩ | ⟨-, rfl⟩ | ⟨-, c, info, hraise, -⟩
    · simp [reportableCodes]
    · simp [reportableCodes]
    · exact absurd hraise (s.deriveCode_ne_raise c info)
  | encode =>
    rcases execEncode_next h with ⟨-, -, n, -, rfl⟩ | ⟨-, rfl⟩ | ⟨-, -, rfl⟩ | ⟨-, -, c, info, hraise, rfl⟩
    · simp [reportableCodes]
    · simp [reportableCodes]
    · simp [reportableCodes]
    · obtain ⟨j, hj | hj⟩ := encodeCheck_error hraise <;> cases hj <;> simp [reportableCodes]
  | decode =>
    rcases execDecode_next h with ⟨-, -, out, -, rfl⟩ | ⟨-, rfl⟩ | ⟨-, -, rfl⟩ | ⟨-, -, c, info, hraise, rfl⟩
    · simp [reportableCodes]
    · simp [reportableCodes]
    · simp [reportableCodes]
    · rcases decodeLoop_raise hraise with rfl | rfl | rfl <;> simp [reportableCodes]

/-- An illegal command word reports BAD_COMMAND (46_control.md R225). -/
theorem errCode_of_illegal {w : Word} {e : IllegalWord} {s t : State} (he : decodeCmd w = .error e)
    (h : perform w s = .next t) : t.errCode = .badCommand := by
  obtain rfl : s.complete .badCommand w = t := by simpa [perform_of_illegal he] using h
  exact s.complete_errCode _ _

/-- Settles O12: each clause is a row of the table, and an illegal word has the one code BAD_COMMAND. -/
theorem commandsReportOnlyTheirCodes : Obligations.CommandsReportOnlyTheirCodes := fun _ _ =>
  ⟨fun h => List.mem_singleton.1 (errCode_mem_reportableCodes h),
    fun h => List.mem_singleton.1 (errCode_mem_reportableCodes h), errCode_mem_reportableCodes,
    errCode_mem_reportableCodes, errCode_mem_reportableCodes, errCode_mem_reportableCodes, errCode_mem_reportableCodes,
    fun _ _ => errCode_of_illegal⟩

end Sys2Proof.Machine
end

section
/-! PROOFS. Hardware reset: the values it gives, and the command and the held access it abandons (70_reset_and_hazards.md
R270, R271). -/

namespace Sys2Proof.Machine

/-! ### The values after reset (10_state.md R58, 70_reset_and_hazards.md R270) -/

/-- After hardware reset and at power-up all of HuffCore's state but the capacities and the model's draw of buffer
contents is that of `State.reset`. -/
theorem exists_eq_reset_with {s t : State} (h : t = s.hardReset ∨ t = State.reset) :
    ∃ p e H turns, t = { State.reset with params := p, epoch := e, host := H, schedule := turns } := by
  rcases h with rfl | rfl
  · exact ⟨_, _, _, _, rfl⟩
  · exact ⟨_, _, _, _, rfl⟩

/-- Settles O38: the registers and buffers are those of `State.reset`, and with no tree and no code table valid the
windows read 0. -/
theorem hardwareResetValues : Obligations.HardwareResetValues := by
  intro s t h
  have hparams : t = s.hardReset → t.params = s.params := fun e => e ▸ s.hardReset_params
  obtain ⟨p, e, H, turns, rfl⟩ := exists_eq_reset_with h
  have hctrl : State.reset.ctrlWord = 0#32 := by decide
  have hstatus : State.reset.statusWord = 0#32 := by decide
  have herr : State.reset.errCodeWord = 0#32 := by decide
  have hbytes : State.reset.bitBytes = 0#32 := by decide
  refine ⟨hctrl, hstatus, herr, rfl, rfl, rfl, hbytes, rfl, rfl, rfl, FreqTable.empty_at,
    State.readLoc_node_of_noTree rfl, fun x => ?_, fun x => ?_, rfl, rfl, rfl, hparams, fun b j => ?_⟩
  · exact (State.readLoc_code_of_invalid rfl x).1
  · exact (State.readLoc_code_of_invalid rfl x).2
  · cases b <;> rfl

/-! ### The command and the access abandoned (70_reset_and_hazards.md R271) -/

theorem resetTurn_of_none_held {s : State} (h : s.heldAccess = none) : resetTurn s = .next s.hardReset := by
  simp only [resetTurn, h]

/-- The bus ends an access held at the time with an error or drops it (93 I3). -/
theorem resetTurn_of_held {s : State} {a : HostAccess} (h : s.heldAccess = some a) :
    resetTurn s = .next (s.hardReset.hostAt (s.host.pos + 1)) ∨
      resetTurn s = .fault (.hostBusError (HostAccess.off a) .heldAtReset) := by
  simp only [resetTurn, h]
  cases Config.heldAtResetError with
  | false => exact .inl rfl
  | true => exact .inr rfl

/-- Settles O39: the record after a reset turn is that of the hardware reset, wherever the host then stands. -/
theorem resetAbandonsCommand : Obligations.ResetAbandonsCommand := by
  refine fun s => ⟨resetTurn_of_none_held, fun _ => resetTurn_of_held, fun t h => ?_⟩
  rcases resetTurn_next h with rfl | rfl <;> exact ⟨rfl, rfl, rfl, rfl, rfl⟩

end Sys2Proof.Machine
end
